-- ==== Sys2Proof/Word.lean ====
section
/-! DEFINITION. The word types of PCC: the byte of a buffer and the 32-bit word of the host's bus (rules R16, R61, R90). -/

namespace Sys2Proof

/-- One byte of a byte sequence (rule R16). -/
abbrev Byte := BitVec 8

/-- One word of the host's bus, and one command word (rules R61, R90). -/
abbrev Word := BitVec 32

end Sys2Proof
end

