-- ==== Sys2Proof/Syntax.lean ====
section
/-! DEFINITION. The 20 commands of the opcode map (rule R94), with their operands in the order of the assembler syntax
(rule R99). An operand is a register or buffer index already inside the range rule R92 gives it. -/

namespace Sys2Proof

/-- An integer register index, 0..7 (an `R` field of rule R92). -/
abbrev RegIx := Fin 8

/-- A point register index, 0..3 (a `P` field of rule R92). -/
abbrev PtIx := Fin 4

/-- A byte buffer index, 0..3 (a `B` field of rule R92). -/
abbrev BufIx := Fin 4

/-- PCC command set 1.0 (rules R2, R94), one constructor per row of the opcode table. -/
inductive Instr where
  | madd (rd rs1 rs2 rm : RegIx)
  | msub (rd rs1 rs2 rm : RegIx)
  | mmul (rd rs1 rs2 rm : RegIx)
  | mneg (rd rs1 rm : RegIx)
  | mpow (rd rs1 rs2 rm : RegIx)
  | minv (rd rs1 rm : RegIx)
  | minvf (rd rs1 rm : RegIx)
  | mrand (rd rm : RegIx)
  | pkpad (bd bs : BufIx)
  | pkunpad (bd bs : BufIx)
  | rsakg (rdn rdd re : RegIx)
  | rsaenc (bd bs : BufIx) (rx rn : RegIx)
  | rsadec (bd bs : BufIx) (rx rn : RegIx)
  | padd (pd ps1 ps2 : PtIx)
  | pdbl (pd ps : PtIx)
  | pneg (pd ps : PtIx)
  | smul (pd ps : PtIx) (rk : RegIx)
  | smulm (pd ps : PtIx) (rk : RegIx)
  | eckg (pd : PtIx) (rk : RegIx)
  | ecdh (bd : BufIx) (ps : PtIx) (rk : RegIx)
deriving DecidableEq, Repr

end Sys2Proof
end

