-- ==== Sys2Proof/Decode.lean ====
section
/-! DEFINITION. Decoding a command word (rules R90 to R96, R101), total and by name, and the encoder written from the
same tables. Each format of rule R93 is one definition; the opcode map of rule R94 is the match of `decode`. -/

namespace Sys2Proof

/-- Why a word decodes to no command (rule R231 lists the four reasons; all of them are the one fault E_ILLCMD).
The names are the model's, and no state shows them (DESIGN CHOICE, log entry 17). -/
inductive Illegal where
  /-- `op` is not in the table of rule R94. -/
  | unknownOpcode
  /-- An index field is above the range rule R92 gives it. -/
  | indexOutOfRange
  /-- A field the format does not use is not 0. -/
  | unusedNotZero
  /-- The low byte `z` is not 0. -/
  | lowByteNotZero
deriving DecidableEq, Repr

/-- Field `op`, bits [31:24] (rule R91). -/
def opField (w : Word) : BitVec 8 := w.extractLsb' 24 8
/-- Field `fa`, bits [23:20] (rule R91). -/
def faField (w : Word) : BitVec 4 := w.extractLsb' 20 4
/-- Field `fb`, bits [19:16] (rule R91). -/
def fbField (w : Word) : BitVec 4 := w.extractLsb' 16 4
/-- Field `fc`, bits [15:12] (rule R91). -/
def fcField (w : Word) : BitVec 4 := w.extractLsb' 12 4
/-- Field `fd`, bits [11:8] (rule R91). -/
def fdField (w : Word) : BitVec 4 := w.extractLsb' 8 4
/-- Field `z`, bits [7:0] (rule R91). -/
def zField (w : Word) : BitVec 8 := w.extractLsb' 0 8

/-- An index field whose indices are the numbers below `n` (rule R92). -/
def indexIn (n : Nat) (f : BitVec 4) : Except Illegal (Fin n) :=
  if h : f.toNat < n then .ok ⟨f.toNat, h⟩ else .error .indexOutOfRange

/-- An `R` field: 0..7. -/
def regField (f : BitVec 4) : Except Illegal RegIx := indexIn 8 f
/-- A `P` field: 0..3. -/
def ptField (f : BitVec 4) : Except Illegal PtIx := indexIn 4 f
/-- A `B` field: 0..3. -/
def bufField (f : BitVec 4) : Except Illegal BufIx := indexIn 4 f
/-- A `0` field: unused, must be 0. -/
def unusedField (f : BitVec 4) : Except Illegal Unit :=
  if f = 0 then .ok () else .error .unusedNotZero

/-- Format M4: R R R R. -/
def formatM4 (mk : RegIx → RegIx → RegIx → RegIx → Instr) (w : Word) : Except Illegal Instr := do
  let a ← regField (faField w)
  let b ← regField (fbField w)
  let c ← regField (fcField w)
  let d ← regField (fdField w)
  return mk a b c d

/-- Format M3: R R 0 R. -/
def formatM3 (mk : RegIx → RegIx → RegIx → Instr) (w : Word) : Except Illegal Instr := do
  let a ← regField (faField w)
  let b ← regField (fbField w)
  unusedField (fcField w)
  let d ← regField (fdField w)
  return mk a b d

/-- Format M2: R 0 0 R. -/
def formatM2 (mk : RegIx → RegIx → Instr) (w : Word) : Except Illegal Instr := do
  let a ← regField (faField w)
  unusedField (fbField w)
  unusedField (fcField w)
  let d ← regField (fdField w)
  return mk a d

/-- Format B2: B B 0 0. -/
def formatB2 (mk : BufIx → BufIx → Instr) (w : Word) : Except Illegal Instr := do
  let a ← bufField (faField w)
  let b ← bufField (fbField w)
  unusedField (fcField w)
  unusedField (fdField w)
  return mk a b

/-- Format RK: R R R 0. -/
def formatRK (mk : RegIx → RegIx → RegIx → Instr) (w : Word) : Except Illegal Instr := do
  let a ← regField (faField w)
  let b ← regField (fbField w)
  let c ← regField (fcField w)
  unusedField (fdField w)
  return mk a b c

/-- Format RC: B B R R. -/
def formatRC (mk : BufIx → BufIx → RegIx → RegIx → Instr) (w : Word) : Except Illegal Instr := do
  let a ← bufField (faField w)
  let b ← bufField (fbField w)
  let c ← regField (fcField w)
  let d ← regField (fdField w)
  return mk a b c d

/-- Format P3: P P P 0. -/
def formatP3 (mk : PtIx → PtIx → PtIx → Instr) (w : Word) : Except Illegal Instr := do
  let a ← ptField (faField w)
  let b ← ptField (fbField w)
  let c ← ptField (fcField w)
  unusedField (fdField w)
  return mk a b c

/-- Format P2: P P 0 0. -/
def formatP2 (mk : PtIx → PtIx → Instr) (w : Word) : Except Illegal Instr := do
  let a ← ptField (faField w)
  let b ← ptField (fbField w)
  unusedField (fcField w)
  unusedField (fdField w)
  return mk a b

/-- Format PS: P P R 0. -/
def formatPS (mk : PtIx → PtIx → RegIx → Instr) (w : Word) : Except Illegal Instr := do
  let a ← ptField (faField w)
  let b ← ptField (fbField w)
  let c ← regField (fcField w)
  unusedField (fdField w)
  return mk a b c

/-- Format EK: P 0 R 0. -/
def formatEK (mk : PtIx → RegIx → Instr) (w : Word) : Except Illegal Instr := do
  let a ← ptField (faField w)
  unusedField (fbField w)
  let c ← regField (fcField w)
  unusedField (fdField w)
  return mk a c

/-- Format EH: B P R 0. -/
def formatEH (mk : BufIx → PtIx → RegIx → Instr) (w : Word) : Except Illegal Instr := do
  let a ← bufField (faField w)
  let b ← ptField (fbField w)
  let c ← regField (fcField w)
  unusedField (fdField w)
  return mk a b c

/-- The opcode map (rule R94), after the low byte has been found to be 0. Reads no state (rule R101). -/
def decodeOp (w : Word) : Except Illegal Instr :=
  match (opField w).toNat with
  | 0x01 => formatM4 .madd w
  | 0x02 => formatM4 .msub w
  | 0x03 => formatM4 .mmul w
  | 0x04 => formatM3 .mneg w
  | 0x05 => formatM4 .mpow w
  | 0x06 => formatM3 .minv w
  | 0x07 => formatM3 .minvf w
  | 0x08 => formatM2 .mrand w
  | 0x10 => formatB2 .pkpad w
  | 0x11 => formatB2 .pkunpad w
  | 0x18 => formatRK .rsakg w
  | 0x19 => formatRC .rsaenc w
  | 0x1A => formatRC .rsadec w
  | 0x20 => formatP3 .padd w
  | 0x21 => formatP2 .pdbl w
  | 0x22 => formatP2 .pneg w
  | 0x23 => formatPS .smul w
  | 0x24 => formatPS .smulm w
  | 0x25 => formatEK .eckg w
  | 0x26 => formatEH .ecdh w
  | _ => .error .unknownOpcode

/-- Decoding, total on 32-bit words (rule R101): the command, or the reason the word is illegal. -/
def decode (w : Word) : Except Illegal Instr :=
  if zField w = 0 then decodeOp w else .error .lowByteNotZero

/-- One row of the opcode table: the bits that must be equal (`mask`) and their values (`pattern`, the table's
`match`), as rules R93 and R94 print them. -/
structure OpRow where
  mask : Word
  pattern : Word
deriving DecidableEq, Repr

/-- The row of a command's mnemonic (rules R93, R94). -/
def Instr.row : Instr → OpRow
  | .madd _ _ _ _ => ⟨0xFF8888FF, 0x01000000⟩
  | .msub _ _ _ _ => ⟨0xFF8888FF, 0x02000000⟩
  | .mmul _ _ _ _ => ⟨0xFF8888FF, 0x03000000⟩
  | .mneg _ _ _ => ⟨0xFF88F8FF, 0x04000000⟩
  | .mpow _ _ _ _ => ⟨0xFF8888FF, 0x05000000⟩
  | .minv _ _ _ => ⟨0xFF88F8FF, 0x06000000⟩
  | .minvf _ _ _ => ⟨0xFF88F8FF, 0x07000000⟩
  | .mrand _ _ => ⟨0xFF8FF8FF, 0x08000000⟩
  | .pkpad _ _ => ⟨0xFFCCFFFF, 0x10000000⟩
  | .pkunpad _ _ => ⟨0xFFCCFFFF, 0x11000000⟩
  | .rsakg _ _ _ => ⟨0xFF888FFF, 0x18000000⟩
  | .rsaenc _ _ _ _ => ⟨0xFFCC88FF, 0x19000000⟩
  | .rsadec _ _ _ _ => ⟨0xFFCC88FF, 0x1A000000⟩
  | .padd _ _ _ => ⟨0xFFCCCFFF, 0x20000000⟩
  | .pdbl _ _ => ⟨0xFFCCFFFF, 0x21000000⟩
  | .pneg _ _ => ⟨0xFFCCFFFF, 0x22000000⟩
  | .smul _ _ _ => ⟨0xFFCC8FFF, 0x23000000⟩
  | .smulm _ _ _ => ⟨0xFFCC8FFF, 0x24000000⟩
  | .eckg _ _ => ⟨0xFFCF8FFF, 0x25000000⟩
  | .ecdh _ _ _ => ⟨0xFFCC8FFF, 0x26000000⟩

/-- The 20 rows of the opcode table, in its order (rules R93, R94). -/
def opTable : List OpRow :=
  [ ⟨0xFF8888FF, 0x01000000⟩
  , ⟨0xFF8888FF, 0x02000000⟩
  , ⟨0xFF8888FF, 0x03000000⟩
  , ⟨0xFF88F8FF, 0x04000000⟩
  , ⟨0xFF8888FF, 0x05000000⟩
  , ⟨0xFF88F8FF, 0x06000000⟩
  , ⟨0xFF88F8FF, 0x07000000⟩
  , ⟨0xFF8FF8FF, 0x08000000⟩
  , ⟨0xFFCCFFFF, 0x10000000⟩
  , ⟨0xFFCCFFFF, 0x11000000⟩
  , ⟨0xFF888FFF, 0x18000000⟩
  , ⟨0xFFCC88FF, 0x19000000⟩
  , ⟨0xFFCC88FF, 0x1A000000⟩
  , ⟨0xFFCCCFFF, 0x20000000⟩
  , ⟨0xFFCCFFFF, 0x21000000⟩
  , ⟨0xFFCCFFFF, 0x22000000⟩
  , ⟨0xFFCC8FFF, 0x23000000⟩
  , ⟨0xFFCC8FFF, 0x24000000⟩
  , ⟨0xFFCF8FFF, 0x25000000⟩
  , ⟨0xFFCC8FFF, 0x26000000⟩ ]

/-- The word is the command of the row (rule R93). -/
def OpRow.holds (row : OpRow) (w : Word) : Bool := w &&& row.mask == row.pattern

/-- A command word from its six fields (rule R91), `z` being 0. -/
def packFields (op : BitVec 8) (fa fb fc fd : BitVec 4) : Word :=
  op ++ fa ++ fb ++ fc ++ fd ++ (0 : BitVec 8)

/-- An index as a 4-bit field, unsigned and unscaled (rule R95). -/
def ixField {n : Nat} (i : Fin n) : BitVec 4 := BitVec.ofNat 4 i.val

/-- The word of a command (rules R91 to R94). -/
def encode : Instr → Word
  | .madd rd rs1 rs2 rm => packFields 0x01 (ixField rd) (ixField rs1) (ixField rs2) (ixField rm)
  | .msub rd rs1 rs2 rm => packFields 0x02 (ixField rd) (ixField rs1) (ixField rs2) (ixField rm)
  | .mmul rd rs1 rs2 rm => packFields 0x03 (ixField rd) (ixField rs1) (ixField rs2) (ixField rm)
  | .mneg rd rs1 rm => packFields 0x04 (ixField rd) (ixField rs1) 0 (ixField rm)
  | .mpow rd rs1 rs2 rm => packFields 0x05 (ixField rd) (ixField rs1) (ixField rs2) (ixField rm)
  | .minv rd rs1 rm => packFields 0x06 (ixField rd) (ixField rs1) 0 (ixField rm)
  | .minvf rd rs1 rm => packFields 0x07 (ixField rd) (ixField rs1) 0 (ixField rm)
  | .mrand rd rm => packFields 0x08 (ixField rd) 0 0 (ixField rm)
  | .pkpad bd bs => packFields 0x10 (ixField bd) (ixField bs) 0 0
  | .pkunpad bd bs => packFields 0x11 (ixField bd) (ixField bs) 0 0
  | .rsakg rdn rdd re => packFields 0x18 (ixField rdn) (ixField rdd) (ixField re) 0
  | .rsaenc bd bs rx rn => packFields 0x19 (ixField bd) (ixField bs) (ixField rx) (ixField rn)
  | .rsadec bd bs rx rn => packFields 0x1A (ixField bd) (ixField bs) (ixField rx) (ixField rn)
  | .padd pd ps1 ps2 => packFields 0x20 (ixField pd) (ixField ps1) (ixField ps2) 0
  | .pdbl pd ps => packFields 0x21 (ixField pd) (ixField ps) 0 0
  | .pneg pd ps => packFields 0x22 (ixField pd) (ixField ps) 0 0
  | .smul pd ps rk => packFields 0x23 (ixField pd) (ixField ps) (ixField rk) 0
  | .smulm pd ps rk => packFields 0x24 (ixField pd) (ixField ps) (ixField rk) 0
  | .eckg pd rk => packFields 0x25 (ixField pd) 0 (ixField rk) 0
  | .ecdh bd ps rk => packFields 0x26 (ixField bd) (ixField ps) (ixField rk) 0

/-- The instruction read from a table row's word `w` of `nbits` bits (every higher bit is 0). A command is one 32-bit
word, so the word given to the decoder is the table's number itself (rule R90). -/
def decodeTableWord (nbits w : Nat) : Option Instr :=
  match decode (BitVec.ofNat 32 (w % 2 ^ nbits)) with
  | .ok i => some i
  | .error _ => none

end Sys2Proof
end

