-- ==== Sys2Proof/Machine/Bytes.lean ====
section
/-! DEFINITION. Bits and bytes of an integer (rules R15, R16): `bitlen`, and the three conversions between a byte
sequence and an integer, all of them big-endian (rule R67). -/

namespace Sys2Proof.Machine

/-- `bitlen(v)`: 0 for v = 0, else floor(log2 v) + 1 (rule R15). -/
def bitlen (v : Nat) : Nat := if v = 0 then 0 else Nat.log2 v + 1

/-- `ceil(n / 8)`, the bytes that hold `n` bits (rules R16, R166, R172). -/
def bytesFor (n : Nat) : Nat := (n + 7) / 8

/-- `BE(B)`: the sum over i of `B[i] * 256^(L-1-i)` (rule R16). -/
def be : List Byte → Nat
  | [] => 0
  | b :: bs => b.toNat * 256 ^ bs.length + be bs

/-- `I2BE_n(v, n)` for `v < 256^n`: the n-byte sequence with that value (rule R16). -/
def i2be (v : Nat) : Nat → List Byte
  | 0 => []
  | n + 1 => BitVec.ofNat 8 (v / 256 ^ n) :: i2be v n

/-- `I2BE_min(v)`: the shortest such sequence, empty for 0 (rule R16). -/
def i2beMin (v : Nat) : List Byte := i2be v (bytesFor (bitlen v))

end Sys2Proof.Machine
end

