-- ==== Sys2Proof/Config.lean ====
section
/-! DEFINITION. The configuration record `CFG` of rule R11: what is fixed for this hardware, and, as opaque constants
with no body, what the spec leaves OPEN (`KEYGEN_RETRY_MAX`, `RandBelow`, `BASE`), the answers of the randomness source, and how far a command
that a reset abandons has drawn. -/

namespace Sys2Proof

/-- The curve record `CURVE = {p, a, b, Gx, Gy, n}` (rules R11, R190). -/
structure Curve where
  p : Nat
  a : Nat
  b : Nat
  gx : Nat
  gy : Nat
  n : Nat
deriving DecidableEq, Repr

/-- `OPW`, the width in bits of an integer register: the default of rule R11. DESIGN CHOICE (log entry 1), unsafe:
the spec admits other widths, and this model fixes one. Every other definition is written in terms of this constant. -/
def Config.opw : Nat := 2048

/-- `RB = BUFCAP = OPW/8`, the bytes of an integer register slot and of a byte buffer (rules R11, R62). -/
def Config.bufCap : Nat := Config.opw / 8

/-- `PAD_ZERO_REMAP`, the byte that replaces a drawn zero in the padding run (rules R11, R151). -/
def Config.padZeroRemap : Byte := 0x01

/-- `CURVE`: the NIST P-256 numbers of rule R191, which the spec takes from general knowledge and marks as such
(PRESUMED by the spec, log entry 2). The operations of Machine/Curve.lean take the record as an argument (rule R12). -/
def Config.curve : Curve where
  p := 0xFFFFFFFF00000001000000000000000000000000FFFFFFFFFFFFFFFFFFFFFFFF
  a := 0xFFFFFFFF00000001000000000000000000000000FFFFFFFFFFFFFFFFFFFFFFFC
  b := 0x5AC635D8AA3A93E7B3EBBD55769886BC651D06B0CC53B0F63BCE3C3E27D2604B
  gx := 0x6B17D1F2E12C4247F8BCE6E563A440F277037D812DEB33A0F4A13945D898C296
  gy := 0x4FE342E2FE1A7F9B8EE7EB4A7C0F9E162BCE33576B315ECECBB6406837BF51F5
  n := 0xFFFFFFFF00000000FFFFFFFFFFFFFFFFBCE6FAADA7179E84F3B9CAC2FC632551

/-- `KEYGEN_RETRY_MAX`: OPEN in rule R11, so a free value (log entry 3). -/
opaque Config.keygenRetryMax : Nat

/-- Byte number `i` of the randomness source where the state's own stream of answers does not give it: a draw under no
law (rule R41, item U6), so a free value (log entry 4). -/
opaque Config.freeByte : Nat → Byte

/-- The raw draw of `RandBelow` and the number of source bytes it takes: OPEN in rule R11, so a free value (log entry 5).
The arguments are the modulus, the stream of answers, the position in it and the number of earlier `RandBelow` draws;
`randBelow` of Machine/Ops.lean reduces the raw draw into `[0, m)`, the one law of rule R133. -/
opaque Config.rawBelow : Nat → List Byte → Nat → Nat → Nat × Nat

/-- How far the command in flight has drawn from the source when a reset abandons it: the spec gives no moment of a draw
inside the BUSY interval (rules R270, R283), so a free value (log entry 23). The argument counts the commands abandoned
before. -/
opaque Config.drawnAtReset : Nat → Nat

/-- `BASE / 0x8000`: the platform's choice, OPEN in rule R11, so a free value (log entry 6). -/
opaque Config.baseIndex : Nat

/-- `BASE`, the bus address of offset 0 of the window: a multiple of `0x8000` (rules R11, R60). -/
def Config.base : Nat := 0x8000 * Config.baseIndex

end Sys2Proof
end

