-- ==== Sys2Proof/Machine/State.lean ====
section
/-! DEFINITION. The state of PCC (rules R20 to R45) as plain data, with the data of the two other agents of rule R13 that
a step reads (the host's actions and the randomness source), the reasons a step can stop, and the state after reset. -/

namespace Sys2Proof.Machine

/-- The closed list of fault codes of rule R230. A command that raises one of them ends in a NEXT state, by rule R240;
none of them is a `Fault` of this model. -/
inductive ErrCode where
  /-- E_ILLCMD, 0x01 (rule R231). -/
  | illcmd
  /-- E_PARAM, 0x02 (rule R232). -/
  | param
  /-- E_NOINV, 0x10 (rule R233). -/
  | noinv
  /-- E_MSGLONG, 0x11 (rule R234). -/
  | msglong
  /-- E_MSGLARGE, 0x12 (rule R234). -/
  | msglarge
  /-- E_BADPAD, 0x13 (rule R235). -/
  | badpad
  /-- E_KEYGEN, 0x14 (rule R236). -/
  | keygen
  /-- E_INFPT, 0x15 (rule R237). -/
  | infpt
deriving DecidableEq, Repr

/-- A point value: `O`, or an affine pair (rules R25, R192). -/
inductive Point where
  | inf
  | affine (x y : Nat)
deriving DecidableEq, Repr

/-- A point register: the infinity flag, which is also `PTINF[j]`, and two 256-bit coordinates (rules R25, R26). -/
structure PointReg where
  inf : Bool
  x : BitVec 256
  y : BitVec 256
deriving DecidableEq, Repr

/-- The randomness source (rule R41), which is no state of PCC: the stream of answers given to it (a test double's
stream; any list), the number of bytes already drawn, the number of `RandBelow` draws, and the number of commands in
flight that a reset has abandoned. Byte `i` of the source is entry `i` of `given`, and past its end the free value
`Config.freeByte i` (log entry 4); the two counts are what the free values of log entries 5 and 23 are applied to. -/
structure Rng where
  given : List Byte
  pos : Nat
  draws : Nat
  aborts : Nat
deriving DecidableEq, Repr

/-- What happens next around the core (rules R13, R61, R99, R291): an access of the host (offset from `BASE`, width in
bytes, data), the host's WAIT, the hardware reset input, or the completion of the command in flight. `core` is how a
list of events says that the command completes between two host accesses (rule R283: after any finite time). -/
inductive Event where
  | read (off width : Nat)
  | write (off width : Nat) (v : Word)
  | wait
  | hwReset
  | core
deriving DecidableEq, Repr

/-- The storage bytes of the four byte buffers, by their offset in the host window (rule R65), in one canonical form:
offsets strictly rising, and no entry equal to what an unlisted offset reads as. -/
abbrev Memory := List Host.Cell

/-- What a storage byte that is not listed reads as: 0x00, its reset value (rule R45; DEDUCED, log entry 18). -/
def Memory.unlisted : Byte := 0x00

/-- The canonical form of `Memory`. -/
abbrev Memory.wf (m : Memory) : Prop :=
  List.Pairwise (fun c d : Host.Cell => c.1 < d.1) m ∧ ∀ c ∈ m, c.2 ≠ Memory.unlisted

/-- The state of PCC. `ID` is a constant (rule R33) and `irq` a function of state (rule R244): neither is a field. -/
structure State where
  /-- Integer registers `r[0..7]` (rule R21). -/
  r : Vector (BitVec Config.opw) 8
  /-- Point registers `pt[0..3]` with their `PTINF` bits (rules R25, R26). -/
  pt : Vector PointReg 4
  /-- Storage of the byte buffers `bb[0..3]` (rule R29). -/
  mem : Memory
  /-- Length registers `BLEN[0..3]`, the 16 stored bits (rule R30). -/
  blen : Vector (BitVec 16) 4
  /-- `CTRL.IE` (rule R34). -/
  ie : Bool
  /-- `STATUS.BUSY` (rule R35). -/
  busy : Bool
  /-- `STATUS.DONE` (rule R35). -/
  done : Bool
  /-- `STATUS.FAULT` (rule R35). -/
  fault : Bool
  /-- `ERRCODE.CODE` (rule R37). -/
  errcode : BitVec 8
  /-- `CMD`, the last accepted command word (rule R38). -/
  cmd : Word
  /-- `KBITS`, the 16 stored bits (rule R39). -/
  kbits : BitVec 16
  /-- The randomness source: not PCC state, the model's own field (rules R41, R43; log entry 4). -/
  rng : Rng
  /-- The events still to come, first one first: the host's list of actions, not PCC state (rules R43, R291; log entry 7). -/
  agenda : List Event
  /-- The values the host's reads have returned so far, oldest first: not PCC state (rule R291; log entry 7). -/
  reads : List Word
deriving DecidableEq, Repr

/-- The stops that end a run of the model with a fault: there are none. PCC's own faults are next states (rule R240), no
access raises a bus error (rule R68), and an access outside the window leaves PCC as it is. Safe: nothing stops here. -/
inductive Fault where
deriving DecidableEq, Repr

/-- The refusals: host programs the spec does not define and tells a model to refuse (items U1 to U3). -/
inductive Refusal where
  /-- Raised by an arm of `exec` whose instruction has no meaning yet; no arm does so. Safe: the model stops. -/
  | notModelled (mnemonic : String)
  /-- Raised by a host access that is not 4 bytes wide at a multiple of 4 (rule R68, item U1). Safe: the model stops. -/
  | accessNotDefined
  /-- Raised by a host access, made while a command runs, that rule R280 does not list (item U2). Safe: the model stops. -/
  | accessWhileBusy
  /-- Raised by a write to `CMD` while a command runs (rules R238, R280, item U3). Safe: the model stops. -/
  | commandWhileBusy
deriving DecidableEq, Repr

/-- The canonical register encoding of `O` (rules R27, R45). -/
def PointReg.infinity : PointReg := ⟨true, 0, 0⟩

/-- The machine right after reset, every value as rule R45 states it, with no host action pending, and the randomness
source at its first byte with every answer free (log entries 4 and 7: these three are the model's own fields). -/
def State.reset : State where
  r := Vector.replicate 8 0
  pt := Vector.replicate 4 PointReg.infinity
  mem := []
  blen := Vector.replicate 4 0
  ie := false
  busy := false
  done := false
  fault := false
  errcode := 0
  cmd := 0
  kbits := 0
  rng := ⟨[], 0, 0, 0⟩
  agenda := []
  reads := []

end Sys2Proof.Machine
end

