-- ==== Sys2Proof/Machine/Arith.lean ====
section
/-! DEFINITION. The arithmetic of unit U1 to U3 and of the key generator on exact integers: the ring operations, ModPow,
ModInv, the Fermat inverse, primality and NextPrime (rules R120 to R134, R167). Nothing here reads a state. -/

namespace Sys2Proof.Machine

/-- `add(x, y)` modulo `m` (rules R121, R123). -/
def modAdd (x y m : Nat) : Except ErrCode Nat :=
  if m = 0 then .error .param else .ok ((x + y) % m)

/-- `sub(x, y)` modulo `m`: the residue of the signed difference (rules R121, R124). -/
def modSub (x y m : Nat) : Except ErrCode Nat :=
  if m = 0 then .error .param else .ok (((x : Int) - (y : Int)) % (m : Int)).toNat

/-- `mul(x, y)` modulo `m` (rules R121, R125). -/
def modMul (x y m : Nat) : Except ErrCode Nat :=
  if m = 0 then .error .param else .ok ((x * y) % m)

/-- `neg(x)` modulo `m` (rules R121, R126). -/
def modNeg (x m : Nat) : Except ErrCode Nat :=
  if m = 0 then .error .param else .ok ((-(x : Int)) % (m : Int)).toNat

/-- The loop of rule R127, least significant bit of the exponent first; the first argument counts its iterations. -/
def powLoop (m : Nat) : Nat → Nat → Nat → Nat → Nat
  | 0, _, _, acc => acc
  | n + 1, y, b, acc => powLoop m n (y / 2) (b * b % m) (if y % 2 = 1 then acc * b % m else acc)

/-- `ModPow(x, y, m)` for `m > 0` (rule R127): `bitlen(y)` iterations from `acc = 1 mod m`, `b = x mod m`. -/
def modPow (x y m : Nat) : Nat := powLoop m (bitlen y) y (x % m) (1 % m)

/-- The command MPOW's value (rules R121, R127). -/
def modPowChecked (x y m : Nat) : Except ErrCode Nat :=
  if m = 0 then .error .param else .ok (modPow x y m)

/-- The extended Euclidean loop of rule R130 on `(r0, r1, t0, t1)`; answers `(r0, t0)` once `r1 = 0`. The first argument
bounds the iterations; `r1` falls at each, so `r1` iterations are enough. -/
def euclidLoop : Nat → Nat → Nat → Int → Int → Nat × Int
  | 0, r0, _, t0, _ => (r0, t0)
  | n + 1, r0, r1, t0, t1 =>
    if r1 = 0 then (r0, t0) else euclidLoop n r1 (r0 % r1) t1 (t0 - ((r0 / r1 : Nat) : Int) * t1)

/-- `ModInv(x, m)` for `m > 0` (rules R129, R130): the inverse in `[0, m)`, or E_NOINV when `gcd(x mod m, m) != 1`. -/
def modInv (x m : Nat) : Except ErrCode Nat :=
  let e := euclidLoop m m (x % m) 0 1
  if e.1 = 1 then .ok (e.2 % (m : Int)).toNat else .error .noinv

/-- The command MINV's value (rules R121, R129). -/
def modInvChecked (x m : Nat) : Except ErrCode Nat :=
  if m = 0 then .error .param else modInv x m

/-- The command MINVF's value (rule R131): E_PARAM below 2, E_NOINV on a multiple of `m`, else `x^(m-2) mod m`. -/
def modInvFermat (x m : Nat) : Except ErrCode Nat :=
  if m < 2 then .error .param
  else if x % m = 0 then .error .noinv
  else .ok (modPow x (m - 2) m)

/-- No number from `d` up divides `n`, looking no further than the square root; the first argument bounds the search. -/
def noDivisorFrom (n : Nat) : Nat → Nat → Bool
  | 0, _ => true
  | k + 1, d => if n < d * d then true else if n % d = 0 then false else noDivisorFrom n k (d + 1)

/-- Exact mathematical primality (rule R167, item U8), by trial division (DESIGN CHOICE, log entry 14). -/
def isPrime (n : Nat) : Bool := decide (2 ≤ n) && noDivisorFrom n n 2

/-- The first prime among `c, c + 1, ...`; the first argument bounds the search. -/
def primeFrom : Nat → Nat → Nat
  | 0, c => c
  | k + 1, c => if isPrime c then c else primeFrom k (c + 1)

/-- `NextPrime(s)`, the smallest prime `c >= s` (rule R167). For `s >= 1` a prime lies in `[s, 2 s]`, so the bound is
never reached. -/
def nextPrime (s : Nat) : Nat := primeFrom (s + 1) s

end Sys2Proof.Machine
end

