-- ==== Sys2Proof/Machine/Curve.lean ====
section
/-! DEFINITION. The point arithmetic of units U6 and U7 over an admissible curve record (rules R190 to R207): the curve is
an argument of every operation (rule R12). Nothing here reads a state. -/

namespace Sys2Proof.Machine

/-- `fadd`, `fsub`, `fmul`, `fneg` of rule R193. -/
def fadd (c : Curve) (u v : Nat) : Nat := (u + v) % c.p
@[inherit_doc fadd] def fsub (c : Curve) (u v : Nat) : Nat := (((u : Int) - (v : Int)) % (c.p : Int)).toNat
@[inherit_doc fadd] def fmul (c : Curve) (u v : Nat) : Nat := (u * v) % c.p
@[inherit_doc fadd] def fneg (c : Curve) (u : Nat) : Nat := ((-(u : Int)) % (c.p : Int)).toNat

/-- `fdiv(u, v) = fmul(u, ModInv(v, p))`, E_NOINV on a zero divisor (rule R193). -/
def fdiv (c : Curve) (u v : Nat) : Except ErrCode Nat :=
  match modInv v c.p with
  | .ok w => .ok (fmul c u w)
  | .error e => .error e

/-- The third point of the line of slope `lam` through `(px, _)` and `(qx, _)`, mirrored (rule R194). -/
def linePoint (c : Curve) (lam px py qx : Nat) : Point :=
  let rx := fsub c (fsub c (fmul c lam lam) px) qx
  .affine rx (fsub c (fmul c lam (fsub c px rx)) py)

/-- `PointAdd(P, Q)`, the cases in the document's order (rule R194). -/
def pointAdd (c : Curve) : Point → Point → Except ErrCode Point
  | .inf, q => .ok q
  | .affine px py, .inf => .ok (.affine px py)
  | .affine px py, .affine qx qy =>
    if qx = px ∧ qy = fneg c py then .ok .inf
    else
      match (if px = qx ∧ py = qy
        then fdiv c (fadd c (fmul c 3 (fmul c px px)) c.a) (fmul c 2 py)
        else fdiv c (fsub c qy py) (fsub c qx px)) with
      | .ok lam => .ok (linePoint c lam px py qx)
      | .error e => .error e

/-- `PointDouble(P) = PointAdd(P, P)` (rule R194). -/
def pointDouble (c : Curve) (p : Point) : Except ErrCode Point := pointAdd c p p

/-- `PointNeg` (rule R194). -/
def pointNeg (c : Curve) : Point → Point
  | .inf => .inf
  | .affine x y => .affine x (fneg c y)

/-- The loop of rule R200, least significant bit first; the first argument counts its iterations. -/
def doubleAddLoop (c : Curve) : Nat → Nat → Point → Point → Except ErrCode Point
  | 0, _, r, _ => .ok r
  | n + 1, d, r, t =>
    match (if d % 2 = 1 then pointAdd c r t else .ok r) with
    | .error e => .error e
    | .ok r' =>
      match pointAdd c t t with
      | .error e => .error e
      | .ok t' => doubleAddLoop c n (d / 2) r' t'

/-- `ScalarMulDA(d, P)` (rule R200). -/
def scalarMulDA (c : Curve) (d : Nat) (p : Point) : Except ErrCode Point :=
  doubleAddLoop c (bitlen d) d .inf p

/-- The ladder of rule R205; the first argument counts down, so the bit looked at is bit `i` of `d` at `i + 1`. -/
def ladderLoop (c : Curve) (d : Nat) : Nat → Point → Point → Except ErrCode Point
  | 0, r0, _ => .ok r0
  | i + 1, r0, r1 =>
    match pointAdd c r0 r1 with
    | .error e => .error e
    | .ok sum =>
      if d.testBit i then
        match pointDouble c r1 with
        | .error e => .error e
        | .ok dbl => ladderLoop c d i sum dbl
      else
        match pointDouble c r0 with
        | .error e => .error e
        | .ok dbl => ladderLoop c d i dbl sum

/-- `ScalarMulML(d, P)`, the Montgomery ladder (rule R205). -/
def scalarMulML (c : Curve) (d : Nat) (p : Point) : Except ErrCode Point :=
  ladderLoop c d (bitlen d) .inf p

/-- The generator `G` (rule R190). -/
def generator (c : Curve) : Point := .affine c.gx c.gy

/-- Both coordinates of a pair are below `p` (rule R192). -/
abbrev Point.inRange (c : Curve) : Point → Prop
  | .inf => True
  | .affine x y => x < c.p ∧ y < c.p

/-- `OnCurve(P)`: `O`, or a pair in range that satisfies the curve equation (rule R192). No command checks it. -/
abbrev Point.onCurve (c : Curve) : Point → Prop
  | .inf => True
  | .affine x y => (x < c.p ∧ y < c.p) ∧ (y * y) % c.p = (x * x * x + c.a * x + c.b) % c.p

/-- The requirements on a curve record (rules R11, R190). -/
def admissibleCurve (c : Curve) : Prop :=
  Nat.Prime c.p ∧ 3 < c.p ∧ c.p < 2 ^ 256 ∧ c.a < c.p ∧ c.b < c.p ∧ (generator c).onCurve c

end Sys2Proof.Machine
end

