-- ==== Sys2Proof/Machine/Ops.lean ====
section
/-! DEFINITION. The named operations over the state: buffer storage, registers, the randomness source; the acceptance and
the completion of a command; the fault completion, which is PCC's trap entry, and the host's way out of it. -/

namespace Sys2Proof.Machine

/-! ### Buffer storage -/

/-- The storage byte at a window offset (rule R65). -/
def Memory.read (m : Memory) (a : Nat) : Byte := (m.lookup a).getD Memory.unlisted

/-- The `n` storage bytes from offset `a` up. -/
def Memory.readBytes (m : Memory) (a n : Nat) : List Byte := (List.range n).map fun i => m.read (a + i)

/-- The entries that hold the bytes `bs` from offset `a` up: none for a byte that reads as an unlisted one does. -/
def Memory.cells (a : Nat) : List Byte → Memory
  | [] => []
  | b :: bs => if b = Memory.unlisted then Memory.cells (a + 1) bs else (a, b) :: Memory.cells (a + 1) bs

/-- The storage with the bytes `bs` from offset `a` up, every other byte as before. -/
def Memory.writeBytes (m : Memory) (a : Nat) (bs : List Byte) : Memory :=
  m.filter (fun c => decide (c.1 < a)) ++ Memory.cells a bs ++ m.filter (fun c => decide (a + bs.length ≤ c.1))

/-! ### Registers -/

/-- `r[i]` as a number (rules R17, R21). -/
def State.reg (s : State) (i : RegIx) : Nat := (s.r.get i).toNat

/-- `r[i] <- v`, all `OPW` bits (rule R24). -/
def State.setReg (s : State) (i : RegIx) (v : Nat) : State :=
  { s with r := s.r.set i.val (BitVec.ofNat Config.opw v) i.isLt }

/-- The register encoding of a point value: `O` is written with both coordinates 0 (rule R27). -/
def PointReg.ofPoint : Point → PointReg
  | .inf => PointReg.infinity
  | .affine x y => ⟨false, BitVec.ofNat 256 x, BitVec.ofNat 256 y⟩

/-- `pt[j] <- P`, with the `PTINF` bit (rule R27). -/
def State.setPoint (s : State) (j : PtIx) (p : Point) : State :=
  { s with pt := s.pt.set j.val (PointReg.ofPoint p) j.isLt }

/-- The window offset of storage byte 0 of `bb[k]` (rules R62, R65). -/
def bufBase (k : BufIx) : Nat := 0x5000 + 0x400 * k.val

/-- `BLEN[k]` as a number. -/
def State.bufLen (s : State) (k : BufIx) : Nat := (s.blen.get k).toNat

/-- The first `BLEN[k]` storage bytes of `bb[k]` (rule R31, where the length is within the capacity). -/
def State.bufBytes (s : State) (k : BufIx) : List Byte := s.mem.readBytes (bufBase k) (s.bufLen k)

/-- A sequence filled up with zero bytes to the capacity of a buffer (rule R31). -/
def zeroFilled (bs : List Byte) : List Byte := bs ++ List.replicate (Config.bufCap - bs.length) 0x00

/-- `bb[k] <- B`: the bytes of B, zero bytes in the rest of the storage, and the length (rule R31). -/
def State.setBuf (s : State) (k : BufIx) (bs : List Byte) : State :=
  { s with
    mem := s.mem.writeBytes (bufBase k) (zeroFilled bs)
    blen := s.blen.set k.val (BitVec.ofNat 16 bs.length) k.isLt }

/-! ### The randomness source -/

/-- Byte `i` of the source: the stream of answers where it reaches, else a free value (rule R41). -/
def Rng.byteAt (g : Rng) (i : Nat) : Byte := g.given.getD i (Config.freeByte i)

/-- The answer of `RandBytes(n)`: the next `n` bytes (rule R41). -/
def Rng.bytes (g : Rng) (n : Nat) : List Byte := (List.range n).map fun i => g.byteAt (g.pos + i)

/-- The source after `n` bytes have been drawn: they are never returned (rule R41). -/
def Rng.skip (g : Rng) (n : Nat) : Rng := { g with pos := g.pos + n }

/-- The value of `RandBelow(m)` for `m > 0`: any value with `0 <= value < m`, and nothing else is known of it (rule R133). -/
def randBelow (m : Nat) (g : Rng) : Nat := (Config.rawBelow m g.given g.pos g.draws).1 % m

/-- The source after `RandBelow(m)`: how many bytes it took is not in the spec (rule R133), so a free value. -/
def randBelowRest (m : Nat) (g : Rng) : Rng :=
  { g with pos := g.pos + (Config.rawBelow m g.given g.pos g.draws).2, draws := g.draws + 1 }

/-! ### Acceptance and completion of a command -/

/-- What a command comes to: all its destination writes, or the fault it raises together with the source as it stands
then, since bytes drawn before the raise stay consumed (rules R41, R239, R240). -/
abbrev Effect := Except (ErrCode × Rng) State

/-- The number of a fault code (rule R230). -/
def ErrCode.code : ErrCode → BitVec 8
  | .illcmd => 0x01
  | .param => 0x02
  | .noinv => 0x10
  | .msglong => 0x11
  | .msglarge => 0x12
  | .badpad => 0x13
  | .keygen => 0x14
  | .infpt => 0x15

/-- Acceptance of the command word `w` (rule R238). The operands need no snapshot of their own: while BUSY is 1 no
defined access of the host changes them (rule R280; DEDUCED, log entry 10). -/
def State.accept (s : State) (w : Word) : State := { s with cmd := w, done := false, busy := true }

/-- Successful completion (rule R239); FAULT and ERRCODE stay as they are (DEDUCED, log entry 20). -/
def State.complete (s : State) : State := { s with busy := false, done := true }

/-- TAKING A FAULT, the trap entry of PCC (rule R240): the code, the sticky flag, and the completion; `CMD` already holds
the faulting word, and nothing else changes but the source. -/
def State.raise (s : State) (e : ErrCode) (g : Rng) : State :=
  { s with errcode := e.code, fault := true, busy := false, done := true, rng := g }

/-- RETURN FROM A FAULT: what writing `CLRF` does (rule R241). -/
def State.clearFault (s : State) : State := { s with fault := false, errcode := 0 }

/-- The end of a command that was accepted in state `s` (rules R239, R240, R243). -/
def State.finish (s : State) : Effect → State
  | .ok t => t.complete
  | .error (e, g) => s.raise e g

end Sys2Proof.Machine
end

