-- ==== Sys2Proof/Machine/Operands.lean ====
section
/-! DEFINITION. The operand forms: reading an integer register, a point register or a byte buffer as a command does, with
the E_PARAM checks of rules R27 and R31, and the destination forms. -/

namespace Sys2Proof.Machine

/-- Reading `pt[j]` (rule R27): `O` whatever the coordinates hold when `inf = 1`; else the pair, and E_PARAM when a
coordinate is not below `p`. -/
def State.point (s : State) (c : Curve) (j : PtIx) : Except ErrCode Point :=
  let q := s.pt.get j
  if q.inf then .ok .inf
  else if c.p ≤ q.x.toNat ∨ c.p ≤ q.y.toNat then .error .param
  else .ok (.affine q.x.toNat q.y.toNat)

/-- Reading `bb[k]` (rule R31): E_PARAM when `BLEN[k]` is above the capacity, else the sequence. -/
def State.buf (s : State) (k : BufIx) : Except ErrCode (List Byte) :=
  if Config.bufCap < s.bufLen k then .error .param else .ok (s.bufBytes k)

/-- A command whose one destination is `r[rd]` and that draws nothing. -/
def State.putReg (s : State) (rd : RegIx) : Except ErrCode Nat → Effect
  | .ok v => .ok (s.setReg rd v)
  | .error e => .error (e, s.rng)

/-- A command whose one destination is `pt[pd]` and that draws nothing. -/
def State.putPoint (s : State) (pd : PtIx) : Except ErrCode Point → Effect
  | .ok p => .ok (s.setPoint pd p)
  | .error e => .error (e, s.rng)

/-- A command whose one destination is `bb[bd]` and that draws nothing. -/
def State.putBuf (s : State) (bd : BufIx) : Except ErrCode (List Byte) → Effect
  | .ok bs => .ok (s.setBuf bd bs)
  | .error e => .error (e, s.rng)

/-- A command whose one destination is `bb[bd]` and that draws. -/
def State.putBufDrawn (s : State) (bd : BufIx) : Except (ErrCode × Rng) (List Byte × Rng) → Effect
  | .ok (bs, g) => .ok ({ s with rng := g }.setBuf bd bs)
  | .error (e, g) => .error (e, g)

end Sys2Proof.Machine
end

