-- ==== Sys2Proof/Machine/Ec.lean ====
section
/-! DEFINITION. The elliptic-curve commands of units U6 and U7 (rules R190 to R211), over the operations of
Machine/Curve.lean at the curve of the configuration. -/

namespace Sys2Proof.Machine

/-- Two point operands, then PointAdd (rule R196). -/
def addValue (s : State) (c : Curve) (ps1 ps2 : PtIx) : Except ErrCode Point :=
  (s.point c ps1).bind fun p => (s.point c ps2).bind fun q => pointAdd c p q

/-- PADD pd, ps1, ps2 (rule R196). -/
def execPadd (pd ps1 ps2 : PtIx) (s : State) : Host.Outcome State Fault Refusal :=
  .next (s.finish (s.putPoint pd (addValue s Config.curve ps1 ps2)))

/-- PDBL pd, ps (rule R197). -/
def execPdbl (pd ps : PtIx) (s : State) : Host.Outcome State Fault Refusal :=
  .next (s.finish (s.putPoint pd ((s.point Config.curve ps).bind (pointDouble Config.curve))))

/-- PNEG pd, ps (rule R198). -/
def execPneg (pd ps : PtIx) (s : State) : Host.Outcome State Fault Refusal :=
  .next (s.finish (s.putPoint pd ((s.point Config.curve ps).map (pointNeg Config.curve))))

/-- SMUL pd, ps, rk, by double-and-add (rule R201); the scalar is the whole register. -/
def execSmul (pd ps : PtIx) (rk : RegIx) (s : State) : Host.Outcome State Fault Refusal :=
  .next (s.finish (s.putPoint pd ((s.point Config.curve ps).bind (scalarMulDA Config.curve (s.reg rk)))))

/-- SMULM pd, ps, rk, by the Montgomery ladder (rule R206). -/
def execSmulm (pd ps : PtIx) (rk : RegIx) (s : State) : Host.Outcome State Fault Refusal :=
  .next (s.finish (s.putPoint pd ((s.point Config.curve ps).bind (scalarMulML Config.curve (s.reg rk)))))

/-- The scalar ECKG makes of its 32 drawn bytes (rule R208): modulo the field prime, with no rejection. -/
def ecScalar (c : Curve) (bs : List Byte) : Nat := be bs % c.p

/-- What ECKG comes to (rule R208). The multiplication cannot fault, since G is on the curve (log entry 21). -/
def eckgEffect (s : State) (c : Curve) (pd : PtIx) (rk : RegIx) : Effect :=
  match scalarMulML c (ecScalar c (s.rng.bytes 32)) (generator c) with
  | .error e => .error (e, s.rng.skip 32)
  | .ok p => .ok (({ s with rng := s.rng.skip 32 }.setReg rk (ecScalar c (s.rng.bytes 32))).setPoint pd p)

/-- ECKG pd, rk (rule R208). -/
def execEckg (pd : PtIx) (rk : RegIx) (s : State) : Host.Outcome State Fault Refusal :=
  .next (s.finish (eckgEffect s Config.curve pd rk))

/-- The shared secret of a product point: its x-coordinate in 32 bytes, E_INFPT for `O` (rule R209). -/
def secretOf : Point → Except ErrCode (List Byte)
  | .inf => .error .infpt
  | .affine x _ => .ok (i2be x 32)

/-- ECDH bd, ps, rk (rule R209). -/
def execEcdh (bd : BufIx) (ps : PtIx) (rk : RegIx) (s : State) : Host.Outcome State Fault Refusal :=
  .next (s.finish (s.putBuf bd
    (((s.point Config.curve ps).bind (scalarMulDA Config.curve (s.reg rk))).bind secretOf)))

end Sys2Proof.Machine
end

