-- ==== Sys2Proof/Machine/Modular.lean ====
section
/-! DEFINITION. The modular arithmetic commands (rules R120 to R133). Every meaning ends in a next state: the completion of
rule R239 or the fault completion of rule R240. -/

namespace Sys2Proof.Machine

/-- MADD rd, rs1, rs2, rm (rule R123). -/
def execMadd (rd rs1 rs2 rm : RegIx) (s : State) : Host.Outcome State Fault Refusal :=
  .next (s.finish (s.putReg rd (modAdd (s.reg rs1) (s.reg rs2) (s.reg rm))))

/-- MSUB rd, rs1, rs2, rm (rule R124). -/
def execMsub (rd rs1 rs2 rm : RegIx) (s : State) : Host.Outcome State Fault Refusal :=
  .next (s.finish (s.putReg rd (modSub (s.reg rs1) (s.reg rs2) (s.reg rm))))

/-- MMUL rd, rs1, rs2, rm (rule R125). -/
def execMmul (rd rs1 rs2 rm : RegIx) (s : State) : Host.Outcome State Fault Refusal :=
  .next (s.finish (s.putReg rd (modMul (s.reg rs1) (s.reg rs2) (s.reg rm))))

/-- MNEG rd, rs1, rm (rule R126). -/
def execMneg (rd rs1 rm : RegIx) (s : State) : Host.Outcome State Fault Refusal :=
  .next (s.finish (s.putReg rd (modNeg (s.reg rs1) (s.reg rm))))

/-- MPOW rd, rs1, rs2, rm (rule R127). -/
def execMpow (rd rs1 rs2 rm : RegIx) (s : State) : Host.Outcome State Fault Refusal :=
  .next (s.finish (s.putReg rd (modPowChecked (s.reg rs1) (s.reg rs2) (s.reg rm))))

/-- MINV rd, rs1, rm, by the extended Euclidean algorithm (rule R129). -/
def execMinv (rd rs1 rm : RegIx) (s : State) : Host.Outcome State Fault Refusal :=
  .next (s.finish (s.putReg rd (modInvChecked (s.reg rs1) (s.reg rm))))

/-- MINVF rd, rs1, rm, by Fermat's exponent (rule R131); it does not test that the modulus is prime. -/
def execMinvf (rd rs1 rm : RegIx) (s : State) : Host.Outcome State Fault Refusal :=
  .next (s.finish (s.putReg rd (modInvFermat (s.reg rs1) (s.reg rm))))

/-- What MRAND comes to: a draw below the modulus (rules R121, R133). -/
def randomEffect (s : State) (rd : RegIx) (m : Nat) : Effect :=
  if m = 0 then .error (.param, s.rng)
  else .ok ({ s with rng := randBelowRest m s.rng }.setReg rd (randBelow m s.rng))

/-- MRAND rd, rm (rule R133). -/
def execMrand (rd rm : RegIx) (s : State) : Host.Outcome State Fault Refusal :=
  .next (s.finish (randomEffect s rd (s.reg rm)))

end Sys2Proof.Machine
end

