-- ==== Sys2Proof/Machine/Padding.lean ====
section
/-! DEFINITION. PKCS#1 v1.5 padding (rules R150 to R157): the functions Pad and Unpad, which RSAENC and RSADEC use too, and
the two commands of unit U4. -/

namespace Sys2Proof.Machine

/-- A drawn padding byte, a zero replaced by `PAD_ZERO_REMAP` (rule R151). -/
def remapZero (b : Byte) : Byte := if b = 0x00 then Config.padZeroRemap else b

/-- The padded message block for the padding run `ps` (rule R150). -/
def paddedBlock (ps msg : List Byte) : List Byte := [0x00, 0x02] ++ ps ++ [0x00] ++ msg

/-- `Pad(M, kbits)` (rule R151): E_MSGLONG before any draw when the message is above the capacity, which is compared as a
signed number; else one draw of exactly the padding length. -/
def pad (msg : List Byte) (kbits : Nat) (g : Rng) : Except (ErrCode × Rng) (List Byte × Rng) :=
  let k := kbits / 8
  if (msg.length : Int) > (k : Int) - 11 then .error (.msglong, g)
  else
    let n := k - 3 - msg.length
    .ok (paddedBlock ((g.bytes n).map remapZero) msg, g.skip n)

/-- Everything after the first 0x00 byte, if there is one (rule R153). -/
def afterSeparator : List Byte → Option (List Byte)
  | [] => none
  | b :: bs => if b = 0x00 then some bs else afterSeparator bs

/-- `Unpad(B)` (rule R153): the prefix `00 02`, then the bytes after the first separator at or after offset 2. -/
def unpad : List Byte → Except ErrCode (List Byte)
  | b0 :: b1 :: rest =>
    if b0 = 0x00 ∧ b1 = 0x02 then
      match afterSeparator rest with
      | some msg => .ok msg
      | none => .error .badpad
    else .error .badpad
  | _ => .error .badpad

/-- What PKPAD comes to (rule R152). -/
def padEffect (s : State) (bd bs : BufIx) : Effect :=
  if s.kbits.toNat % 8 ≠ 0 ∨ Config.bufCap < s.kbits.toNat / 8 then .error (.param, s.rng)
  else
    match s.buf bs with
    | .error e => .error (e, s.rng)
    | .ok msg => s.putBufDrawn bd (pad msg s.kbits.toNat s.rng)

/-- PKPAD bd, bs (rule R152). -/
def execPkpad (bd bs : BufIx) (s : State) : Host.Outcome State Fault Refusal :=
  .next (s.finish (padEffect s bd bs))

/-- PKUNPAD bd, bs (rule R154); `KBITS` is not read. -/
def execPkunpad (bd bs : BufIx) (s : State) : Host.Outcome State Fault Refusal :=
  .next (s.finish (s.putBuf bd ((s.buf bs).bind unpad)))

end Sys2Proof.Machine
end

