-- ==== Sys2Proof/Machine/Rsa.lean ====
section
/-! DEFINITION. The RSA commands of unit U5 (rules R165 to R175): the key generator with its one bounded retry budget, and
encryption and decryption over Pad, Unpad and ModPow. -/

namespace Sys2Proof.Machine

/-- The value `RandOdd(h)` makes of its drawn bytes: the low `h` bits with bit h-1 and bit 0 set (rule R166). -/
def oddOfBytes (h : Nat) (bs : List Byte) : Nat := (be bs % 2 ^ h) ||| 2 ^ (h - 1) ||| 1

/-- The candidate of one draw: `NextPrime(RandOdd(h))` on the next `ceil(h/8)` bytes (rules R166, R168). -/
def candidate (h : Nat) (g : Rng) : Nat := nextPrime (oddOfBytes h (g.bytes (bytesFor h)))

/-- The source after one draw of `RandOdd(h)`. -/
def afterCandidate (h : Nat) (g : Rng) : Rng := g.skip (bytesFor h)

/-- The condition under which `GenPrime` returns a candidate (rule R168). -/
def candidateOk (h e c : Nat) : Bool := decide (bitlen c = h) && decide (Nat.gcd e (c - 1) = 1)

/-- `GenPrime` after its first candidate was rejected. The first number is what is left of the retry budget,
`KEYGEN_RETRY_MAX - tries`: `Retry()` takes one from it, or ends the command with E_KEYGEN when nothing is left (rule R168).
Answers the prime, the budget left and the source; an error carries the source at exhaustion. -/
def retryPrime (h e : Nat) : Nat → Rng → Except Rng (Nat × Nat × Rng)
  | 0, g => .error g
  | left + 1, g =>
    if candidateOk h e (candidate h g) then .ok (candidate h g, left, afterCandidate h g)
    else retryPrime h e left (afterCandidate h g)

/-- `GenPrime(h, e)` with `left` retries in the budget (rule R168). -/
def genPrime (h e left : Nat) (g : Rng) : Except Rng (Nat × Nat × Rng) :=
  if candidateOk h e (candidate h g) then .ok (candidate h g, left, afterCandidate h g)
  else retryPrime h e left (afterCandidate h g)

/-- `|p - q|`. -/
def distance (p q : Nat) : Nat := ((p : Int) - (q : Int)).natAbs

/-- `DistOK(p, q, h)` (rule R169). -/
def distOk (p q h : Nat) : Bool := decide (2 ^ h ≤ distance p q * 2 ^ 100)

/-- The loop of rule R169 that samples `q` again until it is far enough from `p`: each turn costs one retry. The first
argument bounds the turns; one more than the budget is enough, since every turn takes from it. -/
def spreadPrimes (h e p : Nat) : Nat → Nat → Nat → Rng → Except Rng (Nat × Rng)
  | 0, _, _, g => .error g
  | n + 1, left, q, g =>
    if distOk p q h then .ok (q, g)
    else
      match left with
      | 0 => .error g
      | left' + 1 =>
        match genPrime h e left' g with
        | .error g' => .error g'
        | .ok (q', left'', g') => spreadPrimes h e p n left'' q' g'

/-- The two primes of a key with `left` retries in the budget (rules R168, R169). -/
def keyPrimes (h e left : Nat) (g : Rng) : Except Rng (Nat × Nat × Rng) :=
  match genPrime h e left g with
  | .error g1 => .error g1
  | .ok (p, left1, g1) =>
    match genPrime h e left1 g1 with
    | .error g2 => .error g2
    | .ok (q, left2, g2) =>
      match spreadPrimes h e p (left2 + 1) left2 q g2 with
      | .error g3 => .error g3
      | .ok (q', g3) => .ok (p, q', g3)

/-- `lam = lcm(p - 1, q - 1)` (rule R169). -/
def carmichael (p q : Nat) : Nat := Nat.lcm (p - 1) (q - 1)

/-- What RSAKG comes to, the budget being an argument (rule R169): E_ILLCMD before any operand is read, then E_PARAM, then
E_KEYGEN. `ModInv` cannot fail here (rule R171); were it to, the command would end as an exhausted one does
(DESIGN CHOICE, log entry 13). -/
def keygenEffect (retryMax : Nat) (s : State) (rdn rdd re : RegIx) : Effect :=
  if rdn = rdd then .error (.illcmd, s.rng)
  else if s.kbits.toNat % 2 ≠ 0 ∨ s.kbits.toNat < 4 ∨ Config.opw < s.kbits.toNat then .error (.param, s.rng)
  else
    match keyPrimes (s.kbits.toNat / 2) (s.reg re) retryMax s.rng with
    | .error g => .error (.keygen, g)
    | .ok (p, q, g) =>
      match modInv (s.reg re) (carmichael p q) with
      | .error _ => .error (.keygen, g)
      | .ok d => .ok (({ s with rng := g }.setReg rdn (p * q)).setReg rdd d)

/-- RSAKG rdn, rdd, re (rule R169). -/
def execRsakg (rdn rdd re : RegIx) (s : State) : Host.Outcome State Fault Refusal :=
  .next (s.finish (keygenEffect Config.keygenRetryMax s rdn rdd re))

/-- Encryption of the message `msg` under `(N, e)` with `N > 0` (rule R172): Pad to N's byte length, the check `m >= N`
after the draw, and the minimal encoding of `m^e mod N`. -/
def rsaEncrypt (msg : List Byte) (e modulus : Nat) (g : Rng) : Except (ErrCode × Rng) (List Byte × Rng) :=
  match pad msg (8 * bytesFor (bitlen modulus)) g with
  | .error r => .error r
  | .ok (em, g') =>
    if modulus ≤ be em then .error (.msglarge, g')
    else .ok (i2beMin (modPow (be em) e modulus), g')

/-- What RSAENC comes to (rule R172). -/
def encryptEffect (s : State) (bd bs : BufIx) (e modulus : Nat) : Effect :=
  if modulus = 0 then .error (.param, s.rng)
  else
    match s.buf bs with
    | .error x => .error (x, s.rng)
    | .ok msg => s.putBufDrawn bd (rsaEncrypt msg e modulus s.rng)

/-- RSAENC bd, bs, rx, rn (rule R172). -/
def execRsaenc (bd bs : BufIx) (rx rn : RegIx) (s : State) : Host.Outcome State Fault Refusal :=
  .next (s.finish (encryptEffect s bd bs (s.reg rx) (s.reg rn)))

/-- Decryption of the ciphertext `ct` under `(N, d)` with `N > 0` (rule R173): exactly one zero byte before the minimal
encoding of `c^d mod N`, then Unpad. -/
def rsaDecrypt (ct : List Byte) (d modulus : Nat) : Except ErrCode (List Byte) :=
  unpad (0x00 :: i2beMin (modPow (be ct) d modulus))

/-- RSADEC's value (rule R173). -/
def decryptValue (s : State) (bs : BufIx) (d modulus : Nat) : Except ErrCode (List Byte) :=
  if modulus = 0 then .error .param else (s.buf bs).bind fun ct => rsaDecrypt ct d modulus

/-- RSADEC bd, bs, rx, rn (rule R173). -/
def execRsadec (bd bs : BufIx) (rx rn : RegIx) (s : State) : Host.Outcome State Fault Refusal :=
  .next (s.finish (s.putBuf bd (decryptValue s bs (s.reg rx) (s.reg rn))))

end Sys2Proof.Machine
end

