-- ==== Sys2Proof/Machine/Dispatch.lean ====
section
/-! DEFINITION. exec: one arm per command, each one direct call of its meaning. -/

namespace Sys2Proof.Machine

def exec (i : Instr) (s : State) : Host.Outcome State Fault Refusal :=
  match i with
  | .madd rd rs1 rs2 rm => Sys2Proof.Machine.execMadd rd rs1 rs2 rm s
  | .msub rd rs1 rs2 rm => Sys2Proof.Machine.execMsub rd rs1 rs2 rm s
  | .mmul rd rs1 rs2 rm => Sys2Proof.Machine.execMmul rd rs1 rs2 rm s
  | .mneg rd rs1 rm => Sys2Proof.Machine.execMneg rd rs1 rm s
  | .mpow rd rs1 rs2 rm => Sys2Proof.Machine.execMpow rd rs1 rs2 rm s
  | .minv rd rs1 rm => Sys2Proof.Machine.execMinv rd rs1 rm s
  | .minvf rd rs1 rm => Sys2Proof.Machine.execMinvf rd rs1 rm s
  | .mrand rd rm => Sys2Proof.Machine.execMrand rd rm s
  | .pkpad bd bs => Sys2Proof.Machine.execPkpad bd bs s
  | .pkunpad bd bs => Sys2Proof.Machine.execPkunpad bd bs s
  | .rsakg rdn rdd re => Sys2Proof.Machine.execRsakg rdn rdd re s
  | .rsaenc bd bs rx rn => Sys2Proof.Machine.execRsaenc bd bs rx rn s
  | .rsadec bd bs rx rn => Sys2Proof.Machine.execRsadec bd bs rx rn s
  | .padd pd ps1 ps2 => Sys2Proof.Machine.execPadd pd ps1 ps2 s
  | .pdbl pd ps => Sys2Proof.Machine.execPdbl pd ps s
  | .pneg pd ps => Sys2Proof.Machine.execPneg pd ps s
  | .smul pd ps rk => Sys2Proof.Machine.execSmul pd ps rk s
  | .smulm pd ps rk => Sys2Proof.Machine.execSmulm pd ps rk s
  | .eckg pd rk => Sys2Proof.Machine.execEckg pd rk s
  | .ecdh bd ps rk => Sys2Proof.Machine.execEcdh bd ps rk s

end Sys2Proof.Machine
end

