-- ==== Sys2Proof/Machine/Command.lean ====
section
/-! DEFINITION. The command in flight: its run to completion (rules R36, R238 to R240), and what a reset leaves when it
abandons it (rules R45, R270, R271). -/

namespace Sys2Proof.Machine

/-- The word in the `CMD` register runs to its completion (rules R36, R238 to R240): an illegal word completes with
E_ILLCMD and changes nothing else (rules R96, R231; when it does so is log entry 24). -/
def runCommand (s : State) : Host.Outcome State Fault Refusal :=
  match decode s.cmd with
  | .ok i => exec i s
  | .error _ => .next (s.raise .illcmd s.rng)

/-- The randomness source at the completion of the command in flight. -/
def State.rngAtCompletion (s : State) : Rng :=
  match runCommand s with
  | .next t => t.rng
  | _ => s.rng

/-- The randomness source after a reset (rules R41, R270): not reset, and the bytes the abandoned command has already drawn
stay consumed. How many of the bytes the command would draw that is, from none to all, is a free value (DESIGN CHOICE, log
entry 23); with no command in flight the source is as it was. -/
def State.rngAtReset (s : State) : Rng :=
  if s.busy then
    { s.rng with
      pos := s.rng.pos + Config.drawnAtReset s.rng.aborts % (s.rngAtCompletion.pos - s.rng.pos + 1)
      draws := s.rngAtCompletion.draws
      aborts := s.rng.aborts + 1 }
  else s.rng

/-- Reset, hardware or soft: every piece of PCC state at the value of rule R45, the command in flight abandoned; the source,
the host's actions and the values it has read are no state of PCC (rules R270, R271). -/
def State.softReset (s : State) : State :=
  { State.reset with rng := s.rngAtReset, agenda := s.agenda, reads := s.reads }

end Sys2Proof.Machine
end

