-- ==== Sys2Proof/Machine/Flags.lean ====
section
/-! DEFINITION. The control registers as the host reads them, and the interrupt output (rules R32 to R40, R244). PCC has no
arithmetic condition codes (rule R40). Reserved bits read as zero. -/

namespace Sys2Proof.Machine

/-- A flag as bit `n` of a control register (rule R66). -/
def flagBit (b : Bool) (n : Nat) : Word := if b then 1#32 <<< n else 0

/-- `ID`, a constant (rule R33). -/
def idWord : Word := 0x50434301

/-- `CTRL` as read: `IE` in bit 0, zero elsewhere (rule R34). -/
def State.ctrlWord (s : State) : Word := flagBit s.ie 0

/-- `STATUS` as read: BUSY, DONE, FAULT in bits 0, 1, 2 (rule R32). -/
def State.statusWord (s : State) : Word := flagBit s.busy 0 ||| flagBit s.done 1 ||| flagBit s.fault 2

/-- `ERRCODE` as read (rule R37). -/
def State.errcodeWord (s : State) : Word := s.errcode.setWidth 32

/-- `PTINF` as read: bit `j` is `pt[j].inf` (rule R26). -/
def State.ptinfWord (s : State) : Word :=
  flagBit (s.pt.get 0).inf 0 ||| flagBit (s.pt.get 1).inf 1 ||| flagBit (s.pt.get 2).inf 2 ||| flagBit (s.pt.get 3).inf 3

/-- Writing `PTINF`: the four flags, no coordinate (rule R26). -/
def State.setPtinf (s : State) (v : Word) : State :=
  { s with pt := Vector.ofFn fun j : Fin 4 => { s.pt.get j with inf := v.getLsbD j.val } }

/-- Writing `CTRL` (rule R34): SRST alone when bit 31 is 1; else `IE`, then CLRD, then CLRF. -/
def State.writeCtrl (s : State) (v : Word) : State :=
  if v.getLsbD 31 then s.softReset
  else
    let s1 := { s with ie := v.getLsbD 0 }
    let s2 := if v.getLsbD 1 then { s1 with done := false } else s1
    if v.getLsbD 2 then s2.clearFault else s2

/-- The interrupt output, a level (rule R244). -/
def State.irq (s : State) : Bool := s.ie && s.done

end Sys2Proof.Machine
end

