-- ==== Sys2Proof/Machine/Window.lean ====
section
/-! DEFINITION. The host window (rules R60 to R69): the address map, one word of each kind of register, and the host's two
accesses, with the accesses the spec leaves undefined refused by name (rules R68, R280; items U1 to U3). -/

namespace Sys2Proof.Machine

/-- What stands at a word of the window (rule R62). A word of an integer register or a coordinate is given by the position
of its least significant bit in the register (rules R63, R64), a word of a buffer by its window offset (rule R65). -/
inductive WinReg where
  | id
  | ctrl
  | status
  | errcode
  | cmd
  | kbits
  | ptinf
  | blen (k : BufIx)
  | regWord (i : RegIx) (lo : Nat)
  | xWord (j : PtIx) (lo : Nat)
  | yWord (j : PtIx) (lo : Nat)
  | bufWord (off : Nat)
  | unmapped
deriving DecidableEq, Repr

/-- The size of the window in bytes (rule R60). -/
def windowSize : Nat := 0x6000

/-- The window offset of a bus address, for an address inside the window (rule R60); PCC sees offsets only. -/
def windowOffset (addr : Nat) : Option Nat :=
  if Config.base ≤ addr ∧ addr < Config.base + windowSize then some (addr - Config.base) else none

/-- The address map of rule R62, for the offset of an aligned word. -/
def winReg (off : Nat) : WinReg :=
  if off = 0x0000 then .id
  else if off = 0x0004 then .ctrl
  else if off = 0x0008 then .status
  else if off = 0x000C then .errcode
  else if off = 0x0010 then .cmd
  else if off = 0x0014 then .kbits
  else if off = 0x0018 then .ptinf
  else if 0x0020 ≤ off ∧ off < 0x0030 then .blen (Fin.ofNat 4 ((off - 0x0020) / 4))
  else if 0x1000 ≤ off ∧ off < 0x3000 then
    let o := (off - 0x1000) % 0x400
    if o < Config.bufCap then .regWord (Fin.ofNat 8 ((off - 0x1000) / 0x400)) (Config.opw - 32 - 8 * o) else .unmapped
  else if 0x4000 ≤ off ∧ off < 0x4100 then
    let o := (off - 0x4000) % 0x40
    if o < 0x20 then .xWord (Fin.ofNat 4 ((off - 0x4000) / 0x40)) (224 - 8 * o)
    else .yWord (Fin.ofNat 4 ((off - 0x4000) / 0x40)) (224 - 8 * (o - 0x20))
  else if 0x5000 ≤ off ∧ off < 0x6000 then
    if (off - 0x5000) % 0x400 < Config.bufCap then .bufWord off else .unmapped
  else .unmapped

/-- Bits [lo+31 : lo] of a register (rules R63, R64). -/
def getWord {n : Nat} (x : BitVec n) (lo : Nat) : Word := x.extractLsb' lo 32

/-- The register with bits [lo+31 : lo] replaced and no others (rules R63, R64). -/
def putWord {n : Nat} (x : BitVec n) (lo : Nat) (v : Word) : BitVec n :=
  (x &&& ~~~((0xFFFFFFFF#32).setWidth n <<< lo)) ||| (v.setWidth n <<< lo)

/-- Four bytes as a bus word, the lowest-addressed byte the most significant (rule R65). -/
def wordOfBytes (b0 b1 b2 b3 : Byte) : Word := b0 ++ b1 ++ b2 ++ b3

/-- The four bytes of a bus word in offset order (rule R65). -/
def bytesOfWord (v : Word) : List Byte :=
  [v.extractLsb' 24 8, v.extractLsb' 16 8, v.extractLsb' 8 8, v.extractLsb' 0 8]

/-- The value of an aligned word of the window; reads have no side effect (rules R62 to R69). -/
def State.windowRead (s : State) (off : Nat) : Word :=
  match winReg off with
  | .id => idWord
  | .ctrl => s.ctrlWord
  | .status => s.statusWord
  | .errcode => s.errcodeWord
  | .cmd => s.cmd
  | .kbits => s.kbits.setWidth 32
  | .ptinf => s.ptinfWord
  | .blen k => (s.blen.get k).setWidth 32
  | .regWord i lo => getWord (s.r.get i) lo
  | .xWord j lo => getWord (s.pt.get j).x lo
  | .yWord j lo => getWord (s.pt.get j).y lo
  | .bufWord a => wordOfBytes (s.mem.read a) (s.mem.read (a + 1)) (s.mem.read (a + 2)) (s.mem.read (a + 3))
  | .unmapped => 0

/-- A word written to `CMD` while no command runs (rules R238, R242): dropped while FAULT is 1, else accepted. An illegal word
is accepted with a BUSY interval like any other, although it completes "at once" (rule R96): DESIGN CHOICE, log entry 24. -/
def State.issue (s : State) (w : Word) : State := if s.fault then s else s.accept w

/-- The effect of writing an aligned word of the window, where the write is defined (rules R62 to R69). -/
def State.windowWrite (s : State) (off : Nat) (v : Word) : State :=
  match winReg off with
  | .id => s
  | .ctrl => s.writeCtrl v
  | .status => s
  | .errcode => s
  | .cmd => s.issue v
  | .kbits => { s with kbits := v.setWidth 16 }
  | .ptinf => s.setPtinf v
  | .blen k => { s with blen := s.blen.set k.val (v.setWidth 16) k.isLt }
  | .regWord i lo => { s with r := s.r.set i.val (putWord (s.r.get i) lo v) i.isLt }
  | .xWord j lo => { s with pt := s.pt.set j.val { s.pt.get j with x := putWord (s.pt.get j).x lo v } j.isLt }
  | .yWord j lo => { s with pt := s.pt.set j.val { s.pt.get j with y := putWord (s.pt.get j).y lo v } j.isLt }
  | .bufWord a => { s with mem := s.mem.writeBytes a (bytesOfWord v) }
  | .unmapped => s

/-- The reads that are defined while a command runs (rule R280). -/
def readableWhileBusy (off : Nat) : Bool :=
  match winReg off with
  | .id | .ctrl | .status | .errcode | .cmd => true
  | _ => false

/-- The writes that are defined while a command runs: to `CTRL`, without CLRD and CLRF, with or without SRST; reserved bits
do not matter (rule R280; DEDUCED, log entries 11 and 12). -/
def writableWhileBusy (off : Nat) (v : Word) : Bool :=
  match winReg off with
  | .ctrl => !v.getLsbD 1 && !v.getLsbD 2
  | _ => false

/-- `MemRead(BASE + off, width)` (rules R61, R68, R280): the value goes to the host. A read outside the window does not reach
PCC, whose state goes on unchanged (log entry 9). -/
def hostRead (s : State) (off width : Nat) : Host.Outcome State Fault Refusal :=
  if windowSize ≤ off then .next s
  else if width ≠ 4 ∨ off % 4 ≠ 0 then .refused .accessNotDefined
  else if s.busy && !readableWhileBusy off then .refused .accessWhileBusy
  else .next { s with reads := s.reads ++ [s.windowRead off] }

/-- `MemWrite(BASE + off, width, v)` (rules R61, R68, R238, R280); outside the window as `hostRead`. -/
def hostWrite (s : State) (off width : Nat) (v : Word) : Host.Outcome State Fault Refusal :=
  if windowSize ≤ off then .next s
  else if width ≠ 4 ∨ off % 4 ≠ 0 then .refused .accessNotDefined
  else if s.busy && !writableWhileBusy off v then
    (if winReg off = .cmd then .refused .commandWhileBusy else .refused .accessWhileBusy)
  else .next (s.windowWrite off v)

end Sys2Proof.Machine
end

