-- ==== Sys2Proof/Machine/Agenda.lean ====
section
/-! DEFINITION. How the machine moves (rules R13, R14, R36, R238 to R240, R291): the command in flight runs
when it completes, and the events of the agenda happen one at a time, in order. -/

namespace Sys2Proof.Machine

/-- The core's turn: a command in flight completes; an idle PCC waits, and all state survives (rule R255). -/
def coreTurn (s : State) : Host.Outcome State Fault Refusal :=
  if s.busy then runCommand s else .next s

/-- The host's WAIT (rules R99, R280): while a command is in flight it polls, and the command completes, since every command
does (rule R288); once BUSY is 0 the host goes on with the rest of its list. -/
def hostWait (s : State) (rest : List Event) : Host.Outcome State Fault Refusal :=
  if s.busy then runCommand s else .next { s with agenda := rest }

/-- The first event of the agenda happens; with no event left, the core has its turn. -/
def advance (s : State) : Host.Outcome State Fault Refusal :=
  match s.agenda with
  | [] => coreTurn s
  | .read off width :: rest => hostRead { s with agenda := rest } off width
  | .write off width v :: rest => hostWrite { s with agenda := rest } off width v
  | .wait :: rest => hostWait s rest
  | .hwReset :: rest => .next { s with agenda := rest }.softReset
  | .core :: rest => coreTurn { s with agenda := rest }

/-- The state in which the command word `w` has just been accepted and the very next event is its completion. Acceptance
needs FAULT = 0, so a fault latched before is cleared as rule R241 clears it (rule R238; log entry 8). -/
def State.presentWord (s : State) (w : Word) : State :=
  { s.clearFault.accept w with agenda := .core :: s.agenda }

end Sys2Proof.Machine
end

