-- ==== Sys2Proof/Machine/Step.lean ====
section
/-! DEFINITION. One step of the machine, and where an instruction is put for the next step to run it. -/

namespace Sys2Proof.Machine

/-- One step: the first event of the agenda, or the core's turn (Machine/Agenda.lean). -/
def step (s : State) : Host.Outcome State Fault Refusal := advance s

/-- The state whose next step runs the table word `w` of `nbits` bits: it stands in `CMD` as an accepted command (PCC
fetches nothing, rule R36; log entry 8). -/
def State.withFetchWord (s : State) (nbits w : Nat) : State :=
  s.presentWord (BitVec.ofNat 32 (w % 2 ^ nbits))

end Sys2Proof.Machine
end

