-- ==== Sys2Proof/Safety.lean ====
section
/-! DEFINITION. What a safe run is, and the vocabulary statements about the machine use: what may change, how a command
ends, the invariant of the state, the repeated addition of a point, and what a generated key satisfies. -/

namespace Sys2Proof.Machine

/-- The step answers a next state: the model neither stops nor refuses the host's access. -/
def safeStep (s : State) : Prop := ∃ t, step s = .next t

/-- The codes of rule R230, with 0 for no fault. -/
def legalCodes : List (BitVec 8) := [0x00, 0x01, 0x02, 0x10, 0x11, 0x12, 0x13, 0x14, 0x15]

/-- The window offset is one of the storage bytes of `bb[k]` (rules R62, R65). -/
abbrev inStorage (k : BufIx) (a : Nat) : Prop := bufBase k ≤ a ∧ a < bufBase k + Config.bufCap

/-- The invariant of the state: the storage is in canonical form and lists storage bytes only; `ERRCODE` is one of the
codes of rule R230, and 0 exactly when FAULT is 0 (rule R37); while a command runs, DONE and FAULT are 0 (rules R35, R238). -/
def stateInv (s : State) : Prop :=
  s.mem.wf ∧ (∀ c ∈ s.mem, ∃ k, inStorage k c.1) ∧ s.errcode ∈ legalCodes ∧ (s.errcode = 0 ↔ s.fault = false) ∧
    (s.busy = true → s.done = false) ∧ (s.busy = true → s.fault = false)

/-- Nothing differs between the two states but the integer registers, point registers and buffers named (storage and
length), `STATUS`, `ERRCODE` and the randomness source; memory is compared by reading every byte. -/
def onlyChanges (regs : List RegIx) (pts : List PtIx) (bufs : List BufIx) (s t : State) : Prop :=
  (∀ i, i ∉ regs → t.r.get i = s.r.get i) ∧ (∀ j, j ∉ pts → t.pt.get j = s.pt.get j) ∧
    (∀ k, k ∉ bufs → t.blen.get k = s.blen.get k) ∧
    (∀ a, (∀ k ∈ bufs, ¬ inStorage k a) → t.mem.read a = s.mem.read a) ∧
    t.ie = s.ie ∧ t.cmd = s.cmd ∧ t.kbits = s.kbits ∧ t.agenda = s.agenda ∧ t.reads = s.reads

/-- How a command that raised nothing ends (rule R239): BUSY 0, DONE 1, and FAULT and ERRCODE stay as they are (0 in every
run, log entry 20). -/
def completed (s t : State) : Prop :=
  t.busy = false ∧ t.done = true ∧ t.fault = s.fault ∧ t.errcode = s.errcode

/-- How a command that raised `e` ends (rule R240): no destination written, the code recorded, FAULT and DONE 1, BUSY 0. -/
def faulted (e : ErrCode) (s t : State) : Prop :=
  onlyChanges [] [] [] s t ∧ t.errcode = e.code ∧ t.fault = true ∧ t.busy = false ∧ t.done = true

/-- The buffer holds the sequence: its bytes, its length, and zero bytes in the rest of the storage (rule R31). -/
def holdsBytes (t : State) (k : BufIx) (bs : List Byte) : Prop :=
  t.bufBytes k = bs ∧ t.bufLen k = bs.length ∧
    ∀ n, bs.length ≤ n → n < Config.bufCap → t.mem.read (bufBase k + n) = 0x00

/-- The buffer is the source of no defined sequence: its length register is above the capacity (rule R31). -/
abbrev lengthTooLarge (s : State) (k : BufIx) : Prop := Config.bufCap < s.bufLen k

/-- Offset `i` of the sequence is the separator Unpad looks for (rule R153): the prefix `00 02`, and the first 0x00 at or
after offset 2. -/
def separatorAt (bs : List Byte) (i : Nat) : Prop :=
  bs[0]? = some 0x00 ∧ bs[1]? = some 0x02 ∧ 2 ≤ i ∧ bs[i]? = some 0x00 ∧ ∀ j, 2 ≤ j → j < i → bs[j]? ≠ some 0x00

/-- The point register is read as the point value (rule R27): `O` whatever its coordinates, or a pair in range. -/
def pointIs (c : Curve) (s : State) (j : PtIx) : Point → Prop
  | .inf => (s.pt.get j).inf = true
  | .affine x y =>
    (s.pt.get j).inf = false ∧ (s.pt.get j).x.toNat = x ∧ (s.pt.get j).y.toNat = y ∧ x < c.p ∧ y < c.p

/-- The point register holds a pair with a coordinate that is not below `p` (rule R27). -/
def pointOutOfRange (c : Curve) (s : State) (j : PtIx) : Prop :=
  (s.pt.get j).inf = false ∧ (c.p ≤ (s.pt.get j).x.toNat ∨ c.p ≤ (s.pt.get j).y.toNat)

/-- `(rx, ry)` is the third point of the line of slope `lam` through `(px, py)` and a point with x-coordinate `qx`,
mirrored: the formulas of rule R194 as congruences. -/
def onLine (c : Curve) (lam px py qx rx ry : Int) : Prop :=
  0 ≤ rx ∧ rx < c.p ∧ 0 ≤ ry ∧ ry < c.p ∧
    rx ≡ lam * lam - px - qx [ZMOD (c.p : Int)] ∧ ry ≡ lam * (px - rx) - py [ZMOD (c.p : Int)]

/-- The integer registers a command may write (rule R22). -/
def destRegs : Instr → List RegIx
  | .madd rd _ _ _ => [rd]
  | .msub rd _ _ _ => [rd]
  | .mmul rd _ _ _ => [rd]
  | .mneg rd _ _ => [rd]
  | .mpow rd _ _ _ => [rd]
  | .minv rd _ _ => [rd]
  | .minvf rd _ _ => [rd]
  | .mrand rd _ => [rd]
  | .pkpad _ _ => []
  | .pkunpad _ _ => []
  | .rsakg rdn rdd _ => [rdn, rdd]
  | .rsaenc _ _ _ _ => []
  | .rsadec _ _ _ _ => []
  | .padd _ _ _ => []
  | .pdbl _ _ => []
  | .pneg _ _ => []
  | .smul _ _ _ => []
  | .smulm _ _ _ => []
  | .eckg _ rk => [rk]
  | .ecdh _ _ _ => []

/-- The point registers a command may write (rule R40). -/
def destPoints : Instr → List PtIx
  | .madd _ _ _ _ => []
  | .msub _ _ _ _ => []
  | .mmul _ _ _ _ => []
  | .mneg _ _ _ => []
  | .mpow _ _ _ _ => []
  | .minv _ _ _ => []
  | .minvf _ _ _ => []
  | .mrand _ _ => []
  | .pkpad _ _ => []
  | .pkunpad _ _ => []
  | .rsakg _ _ _ => []
  | .rsaenc _ _ _ _ => []
  | .rsadec _ _ _ _ => []
  | .padd pd _ _ => [pd]
  | .pdbl pd _ => [pd]
  | .pneg pd _ => [pd]
  | .smul pd _ _ => [pd]
  | .smulm pd _ _ => [pd]
  | .eckg pd _ => [pd]
  | .ecdh _ _ _ => []

/-- The byte buffers a command may write. -/
def destBufs : Instr → List BufIx
  | .madd _ _ _ _ => []
  | .msub _ _ _ _ => []
  | .mmul _ _ _ _ => []
  | .mneg _ _ _ => []
  | .mpow _ _ _ _ => []
  | .minv _ _ _ => []
  | .minvf _ _ _ => []
  | .mrand _ _ => []
  | .pkpad bd _ => [bd]
  | .pkunpad bd _ => [bd]
  | .rsakg _ _ _ => []
  | .rsaenc bd _ _ _ => [bd]
  | .rsadec bd _ _ _ => [bd]
  | .padd _ _ _ => []
  | .pdbl _ _ => []
  | .pneg _ _ => []
  | .smul _ _ _ => []
  | .smulm _ _ _ => []
  | .eckg _ _ => []
  | .ecdh bd _ _ => [bd]

/-- The commands that draw from the randomness source (rule R41, conflict C9). -/
def draws : Instr → Bool
  | .madd _ _ _ _ => false
  | .msub _ _ _ _ => false
  | .mmul _ _ _ _ => false
  | .mneg _ _ _ => false
  | .mpow _ _ _ _ => false
  | .minv _ _ _ => false
  | .minvf _ _ _ => false
  | .mrand _ _ => true
  | .pkpad _ _ => true
  | .pkunpad _ _ => false
  | .rsakg _ _ _ => true
  | .rsaenc _ _ _ _ => true
  | .rsadec _ _ _ _ => false
  | .padd _ _ _ => false
  | .pdbl _ _ => false
  | .pneg _ _ => false
  | .smul _ _ _ => false
  | .smulm _ _ _ => false
  | .eckg _ _ => true
  | .ecdh _ _ _ => false

/-- The fault codes a command's rule gives it: the column "raised by" of rule R230, read with rules R232 to R237. -/
def mayRaise : Instr → List ErrCode
  | .madd _ _ _ _ => [.param]
  | .msub _ _ _ _ => [.param]
  | .mmul _ _ _ _ => [.param]
  | .mneg _ _ _ => [.param]
  | .mpow _ _ _ _ => [.param]
  | .minv _ _ _ => [.param, .noinv]
  | .minvf _ _ _ => [.param, .noinv]
  | .mrand _ _ => [.param]
  | .pkpad _ _ => [.param, .msglong]
  | .pkunpad _ _ => [.param, .badpad]
  | .rsakg _ _ _ => [.illcmd, .param, .keygen]
  | .rsaenc _ _ _ _ => [.param, .msglong, .msglarge]
  | .rsadec _ _ _ _ => [.param, .badpad]
  | .padd _ _ _ => [.param, .noinv]
  | .pdbl _ _ => [.param]
  | .pneg _ _ => [.param]
  | .smul _ _ _ => [.param, .noinv]
  | .smulm _ _ _ => [.param, .noinv]
  | .eckg _ _ => []
  | .ecdh _ _ _ => [.param, .noinv, .infpt]

/-- The multiple `d·P` as repeated addition (rule R19): `0·P = O`, and `(d+1)·P = d·P + P`. -/
def multiple (c : Curve) : Nat → Point → Except ErrCode Point
  | 0, _ => .ok .inf
  | d + 1, p => (multiple c d p).bind fun q => pointAdd c q p

/-- `p` is `NextPrime(s)` (rule R167): the smallest prime at or above `s`. -/
def leastPrimeFrom (s p : Nat) : Prop :=
  Nat.Prime p ∧ s ≤ p ∧ ∀ r, Nat.Prime r → s ≤ r → p ≤ r

/-- What rule R171 says of the primes of a key of `kbits` bits and of the values RSAKG writes. -/
def keyOfPrimes (kbits e modulus d p q : Nat) : Prop :=
  Nat.Prime p ∧ Nat.Prime q ∧ p ≠ q ∧ bitlen p = kbits / 2 ∧ bitlen q = kbits / 2 ∧
    Nat.gcd e (p - 1) = 1 ∧ Nat.gcd e (q - 1) = 1 ∧
    2 ^ (kbits / 2) ≤ distance p q * 2 ^ 100 ∧ modulus = p * q ∧
    (e * d) % Nat.lcm (p - 1) (q - 1) = 1 % Nat.lcm (p - 1) (q - 1) ∧
    d < Nat.lcm (p - 1) (q - 1) ∧ Nat.lcm (p - 1) (q - 1) < modulus ∧ modulus < 2 ^ kbits

end Sys2Proof.Machine
end

