-- ==== Sys2Proof/Certificates/Slice0/Obligations.lean ====
section
/-! DEFINITION. The statements for the provers, in the order of OBLIGATIONS.json. A statement about a command is about
`exec`, which is total: the frame of each result is said with `onlyChanges`, the ends with `completed` and `faulted`
(Safety.lean). The randomness source is a field of the state, so "for every state" is "for every answer of the source".
How host accesses, resets and completions come one after another (the agenda) is the model's form of rules R61, R72 and
R283: log entry 7. -/

open Sys2Proof Sys2Proof.Machine

/-! ### Encoding -/

/-- Rules R91, R93, R94, R99: the encoder and the decoder agree on every command with every operand. -/
def Obligations.DecodeOfEncodeIsTheInstruction : Prop :=
  ∀ i : Instr, decode (encode i) = .ok i

/-- Rules R91 to R94, R101: no bit of a legal word is dropped by the decoder. -/
def Obligations.EncodeOfDecodedWordIsTheWord : Prop :=
  ∀ (w : Word) (i : Instr), decode w = .ok i → encode i = w

/-- Rules R93, R94, R101: a word is a command exactly when it matches a row of the opcode table under the row's mask; the
row is that of the command decoded; no word matches two rows. -/
def Obligations.WordDecodesExactlyWhenARowHolds : Prop :=
  (∀ w : Word, (∃ i, decode w = .ok i) ↔ ∃ row ∈ opTable, row.holds w = true) ∧
    (∀ (w : Word) (i : Instr), decode w = .ok i → i.row ∈ opTable ∧ i.row.holds w = true) ∧
    (∀ w : Word, ∀ r1 ∈ opTable, ∀ r2 ∈ opTable, r1.holds w = true → r2.holds w = true → r1 = r2)

/-- Rules R96, R99: the words the spec writes out decode to the commands it names, or to none (the reasons' names are the
model's, log entry 17). -/
def Obligations.SampleWordsDecode : Prop :=
  decode 0x01201300 = .ok (.madd 2 0 1 3) ∧ decode 0x06100200 = .ok (.minv 1 0 2) ∧
    decode 0x10100000 = .ok (.pkpad 1 0) ∧ decode 0x19101000 = .ok (.rsaenc 1 0 1 0) ∧
    decode 0x24104000 = .ok (.smulm 1 0 4) ∧ decode 0x25000000 = .ok (.eckg 0 0) ∧
    decode 0x26010000 = .ok (.ecdh 0 1 0) ∧ decode 0x00000000 = .error .unknownOpcode ∧
    decode 0x01800000 = .error .indexOutOfRange ∧ decode 0x01201301 = .error .lowByteNotZero ∧
    decode 0x04101200 = .error .unusedNotZero

/-! ### Steps, acceptance, the window in time -/

/-- Rules R36, R101, R238: the command in flight is the one `CMD` holds, and the step that completes it is `exec` of it
(which event lets it complete is the model's choice, log entry 7). -/
def Obligations.StepRunsTheCommandInFlight : Prop :=
  ∀ (s : State) (i : Instr) (rest : List Event), s.busy = true → decode s.cmd = .ok i →
    (s.agenda = [] → step s = exec i s) ∧
    (s.agenda = .core :: rest → step s = exec i { s with agenda := rest }) ∧
    (s.agenda = .wait :: rest → step s = exec i s)

/-- A word presented for the next step (log entry 8) stands in `CMD` as accepted, and the next step runs it. -/
def Obligations.PresentedWordRunsNext : Prop :=
  ∀ (s : State) (w : Word) (i : Instr), decode w = .ok i →
    step (s.withFetchWord 32 w.toNat) =
      exec i { s with cmd := w, busy := true, done := false, fault := false, errcode := 0 }

/-- Rules R72, R238, R280: a command word written to `CMD` of an idle PCC with no fault latched is accepted, and the wait
that follows runs it on the operands as they were at the write. -/
def Obligations.CommandWriteThenWaitRunsTheCommand : Prop :=
  ∀ (s : State) (i : Instr) (rest : List Event), s.busy = false → s.fault = false →
    s.agenda = .write 0x0010 4 (encode i) :: .wait :: rest →
    ∃ t, step s = .next t ∧
      t = { s with cmd := encode i, done := false, busy := true, agenda := .wait :: rest } ∧ step t = exec i t

/-- Rule R238: a write to `CMD` is refused while a command runs, ignored while FAULT is 1, and else accepted (that
BUSY is 1 after the write of an illegal word too is the model's choice, log entry 24). -/
def Obligations.CommandWriteOutcomes : Prop :=
  ∀ (s : State) (w : Word) (rest : List Event), s.agenda = .write 0x0010 4 w :: rest →
    (s.busy = true → step s = .refused .commandWhileBusy) ∧
    (s.busy = false → s.fault = true → step s = .next { s with agenda := rest }) ∧
    (s.busy = false → s.fault = false →
      step s = .next { s with agenda := rest, cmd := w, done := false, busy := true })

/-- Rules R14, R238, R280: no defined host access but the soft reset changes anything a running command reads or the record
of it, so the operands at completion are the operands at acceptance. -/
def Obligations.BusyWindowKeepsTheOperands : Prop :=
  ∀ (s t : State) (e : Event) (rest : List Event), s.busy = true → s.agenda = e :: rest →
    ((∃ off width, e = .read off width) ∨ (∃ off width v, e = .write off width v ∧ v.getLsbD 31 = false)) →
    step s = .next t →
    t.r = s.r ∧ t.pt = s.pt ∧ t.mem = s.mem ∧ t.blen = s.blen ∧ t.kbits = s.kbits ∧ t.cmd = s.cmd ∧ t.rng = s.rng ∧
      t.busy = true ∧ t.done = s.done ∧ t.fault = s.fault ∧ t.errcode = s.errcode

/-- Rule R280: while a command runs, exactly the reads of ID, CTRL, STATUS, ERRCODE and CMD and the CTRL writes without CLRD
and CLRF are defined; every other aligned access in the window is refused by name (DEDUCED: so is a CTRL write with SRST
beside CLRD or CLRF, log entry 11, and reserved bits do not matter, log entry 12). A soft reset leaves the source somewhere
between its place and the one at the command's completion (rule R270; how far is free: the model's choice, log entry 23). -/
def Obligations.BusyWindowAccesses : Prop :=
  ∀ (s : State) (off : Nat) (v : Word) (rest : List Event), s.busy = true → off < 0x6000 → off % 4 = 0 →
    (s.agenda = .read off 4 :: rest → off ∈ [0x0000, 0x0004, 0x0008, 0x000C, 0x0010] →
      step s = .next { s with agenda := rest, reads := s.reads ++ [s.windowRead off] }) ∧
    (s.agenda = .read off 4 :: rest → off ∉ [0x0000, 0x0004, 0x0008, 0x000C, 0x0010] →
      step s = .refused .accessWhileBusy) ∧
    (s.agenda = .write 0x0004 4 v :: rest → v.getLsbD 1 = false → v.getLsbD 2 = false → v.getLsbD 31 = false →
      step s = .next { s with agenda := rest, ie := v.getLsbD 0 }) ∧
    (s.agenda = .write 0x0004 4 v :: rest → v.getLsbD 1 = false → v.getLsbD 2 = false → v.getLsbD 31 = true →
      ∃ g, step s = .next { State.reset with rng := g, agenda := rest, reads := s.reads } ∧
        g.given = s.rng.given ∧ s.rng.pos ≤ g.pos ∧
        (∀ i u, decode s.cmd = .ok i → exec i s = .next u → g.pos ≤ u.rng.pos) ∧
        (∀ e, decode s.cmd = .error e → g.pos = s.rng.pos)) ∧
    (s.agenda = .write 0x0004 4 v :: rest → v.getLsbD 1 = true ∨ v.getLsbD 2 = true →
      step s = .refused .accessWhileBusy) ∧
    (s.agenda = .write 0x0010 4 v :: rest → step s = .refused .commandWhileBusy) ∧
    (s.agenda = .write off 4 v :: rest → off ≠ 0x0004 → off ≠ 0x0010 → step s = .refused .accessWhileBusy)

/-- Rules R61, R68 (item U1): an access in the window that is not 4 bytes wide at a multiple of 4 is refused by name; one
whose offset is outside the window does not reach PCC, busy or not, and nothing but the event list changes (that the host's
read values get no entry is the model's choice, log entry 9). -/
def Obligations.UndefinedAndOutsideAccesses : Prop :=
  ∀ (s : State) (off width : Nat) (v : Word) (rest : List Event),
    s.agenda = .read off width :: rest ∨ s.agenda = .write off width v :: rest →
    (0x6000 ≤ off → step s = .next { s with agenda := rest }) ∧
    (off < 0x6000 → width ≠ 4 ∨ off % 4 ≠ 0 → step s = .refused .accessNotDefined)

/-- Rules R99, R255, R291: an idle PCC with no event before it stays as it is; a WAIT of the host on an idle PCC ends at once,
and so does a `core` event, which has no command to complete: the event is taken off the list and nothing else changes (the
event list is the model's, log entry 7). -/
def Obligations.IdleMachineWaits : Prop :=
  ∀ s : State, s.busy = false →
    (s.agenda = [] → step s = .next s) ∧
    (∀ rest : List Event, s.agenda = .wait :: rest ∨ s.agenda = .core :: rest →
      step s = .next { s with agenda := rest })

/-! ### Reset, the invariant, control registers, faults -/

/-- Rules R45, R270: hardware reset, in any state, and the soft reset put every piece of state at the value of the table.
The randomness source is not reset: it stays where it is when PCC is idle, and never moves back, so the bytes an abandoned
command has drawn stay consumed; it is not past the place where that command would have left it, and an illegal word draws
nothing (how far between the two it is, is free: the model's choice, log entry 23). -/
def Obligations.ResetGivesTheResetValues : Prop :=
  ∀ (s : State) (v : Word) (rest : List Event),
    (s.agenda = .hwReset :: rest ∨
      (s.agenda = .write 0x0004 4 v :: rest ∧ v.getLsbD 31 = true ∧
        (s.busy = true → v = 0x80000000 ∨ v = 0x80000001))) →
    ∃ t, step s = .next t ∧ (∀ i, t.reg i = 0) ∧ (∀ j, t.pt.get j = ⟨true, 0, 0⟩) ∧ t.windowRead 0x0018 = 0xF ∧
      (∀ a, t.mem.read a = 0x00) ∧ (∀ k, t.bufLen k = 0) ∧ t.ie = false ∧ t.busy = false ∧ t.done = false ∧
      t.fault = false ∧ t.errcode = 0 ∧ t.cmd = 0 ∧ t.kbits = 0 ∧ t.windowRead 0x0000 = 0x50434301 ∧ t.irq = false ∧
      t.rng.given = s.rng.given ∧ s.rng.pos ≤ t.rng.pos ∧ (s.busy = false → t.rng = s.rng) ∧
      (∀ i u, decode s.cmd = .ok i → exec i s = .next u → t.rng.pos ≤ u.rng.pos) ∧
      (∀ e, decode s.cmd = .error e → t.rng.pos = s.rng.pos)

/-- The invariant `stateInv` (rules R35, R37, R230; the form of the storage is the model's, log entry 18) holds in the reset
state. -/
def Obligations.StateInvHoldsAtReset : Prop := stateInv State.reset

/-- Every step keeps the invariant `stateInv` (rules R35, R37, R230, R238, R242; the form of the storage is the model's, log
entry 18), from every state that has it. -/
def Obligations.StepKeepsStateInv : Prop :=
  ∀ s t : State, stateInv s → step s = .next t → stateInv t

/-- Rule R96: a word that matches no row of the table, and RSAKG with two equal destinations, once accepted, completes with
E_ILLCMD and changes nothing else. (That BUSY is 1 between the acceptance and this step, for an illegal word too, is the
model's choice, log entry 24.) -/
def Obligations.IllegalWordFaults : Prop :=
  ∀ (s : State) (rest : List Event), s.busy = true →
    ((∀ row ∈ opTable, row.holds s.cmd = false) ∨ ∃ rd re, s.cmd = encode (.rsakg rd rd re)) →
    (s.agenda = [] → step s = .next { s with errcode := 0x01, fault := true, busy := false, done := true }) ∧
    (s.agenda = .core :: rest →
      step s = .next { s with agenda := rest, errcode := 0x01, fault := true, busy := false, done := true }) ∧
    (s.agenda = .wait :: rest →
      step s = .next { s with errcode := 0x01, fault := true, busy := false, done := true })

/-- Rule R34: the CTRL write, action by action, and the CTRL read. -/
def Obligations.CtrlWriteActions : Prop :=
  ∀ (s : State) (v : Word) (rest : List Event), s.agenda = .write 0x0004 4 v :: rest →
    (s.busy = false → v.getLsbD 31 = true →
      step s = .next { State.reset with rng := s.rng, agenda := rest, reads := s.reads }) ∧
    (s.busy = false → v.getLsbD 31 = false →
      step s = .next { s with
        agenda := rest, ie := v.getLsbD 0
        done := s.done && !v.getLsbD 1
        fault := s.fault && !v.getLsbD 2
        errcode := if v.getLsbD 2 = true then 0 else s.errcode }) ∧
    (s.busy = true → v.getLsbD 31 = false → v.getLsbD 1 = true ∨ v.getLsbD 2 = true →
      step s = .refused .accessWhileBusy) ∧
    s.windowRead 0x0004 = if s.ie = true then 1 else 0

/-- Rules R238, R241, R242: while FAULT is 1 a command write changes nothing; after CLRF it is accepted. -/
def Obligations.FaultLatchDropsCommands : Prop :=
  ∀ (s : State) (w : Word) (rest : List Event), s.busy = false → s.fault = true →
    (s.agenda = .write 0x0010 4 w :: rest → step s = .next { s with agenda := rest }) ∧
    (s.agenda = .write 0x0004 4 0x00000004 :: .write 0x0010 4 w :: rest →
      ∃ t u, step s = .next t ∧ t.fault = false ∧ t.errcode = 0 ∧ t.done = s.done ∧
        step t = .next u ∧ u.cmd = w ∧ u.busy = true ∧ u.done = false)

/-- Rule R244: `irq` is up after a completion exactly when IE is 1, with or without fault; it is down after an acceptance,
after an acknowledge (CLRD), and after a reset. -/
def Obligations.IrqFollowsCompletion : Prop :=
  (∀ (i : Instr) (s t : State), exec i s = .next t → t.irq = s.ie) ∧
    (∀ (s : State) (w : Word) (rest : List Event), s.busy = false → s.fault = false →
      s.agenda = .write 0x0010 4 w :: rest → ∃ t, step s = .next t ∧ t.irq = false) ∧
    (∀ (s : State) (v : Word) (rest : List Event), s.busy = false → s.agenda = .write 0x0004 4 v :: rest →
      v.getLsbD 31 = false → ∃ t, step s = .next t ∧ t.irq = (v.getLsbD 0 && s.done && !v.getLsbD 1)) ∧
    (∀ (s : State) (rest : List Event), s.agenda = .hwReset :: rest → ∃ t, step s = .next t ∧ t.irq = false)

/-! ### The window -/

/-- Rule R63: an integer register appears big-endian in its slot; a word write changes those 32 bits and no others. -/
def Obligations.IntegerWindowIsBigEndian : Prop :=
  ∀ (s : State) (i : RegIx) (w : Nat) (v : Word) (rest : List Event), s.busy = false → w < Config.opw / 32 →
    s.windowRead (0x1000 + 0x400 * i.val + 4 * w) = (s.r.get i).extractLsb' (Config.opw - 32 - 32 * w) 32 ∧
    bytesOfWord (s.windowRead (0x1000 + 0x400 * i.val + 4 * w)) =
      ((i2be (s.reg i) Config.bufCap).drop (4 * w)).take 4 ∧
    (s.agenda = .read (0x1000 + 0x400 * i.val + 4 * w) 4 :: rest →
      step s = .next { s with
        agenda := rest, reads := s.reads ++ [(s.r.get i).extractLsb' (Config.opw - 32 - 32 * w) 32] }) ∧
    (s.agenda = .write (0x1000 + 0x400 * i.val + 4 * w) 4 v :: rest →
      ∃ t, step s = .next t ∧ t = { s with agenda := rest, r := t.r } ∧ (∀ j, j ≠ i → t.r.get j = s.r.get j) ∧
        (t.r.get i).extractLsb' (Config.opw - 32 - 32 * w) 32 = v ∧
        ∀ b, b < Config.opw - 32 - 32 * w ∨ Config.opw - 32 * w ≤ b →
          (t.r.get i).getLsbD b = (s.r.get i).getLsbD b)

/-- Rule R64: the coordinates of a point register in their slot, word 0 the most significant; a word write changes those 32
bits of that coordinate and not the infinity flag. -/
def Obligations.CoordinateWindowIsBigEndian : Prop :=
  ∀ (s : State) (j : PtIx) (w : Nat) (v : Word) (rest : List Event), s.busy = false → w < 8 →
    s.windowRead (0x4000 + 0x40 * j.val + 4 * w) = (s.pt.get j).x.extractLsb' (224 - 32 * w) 32 ∧
    s.windowRead (0x4000 + 0x40 * j.val + 0x20 + 4 * w) = (s.pt.get j).y.extractLsb' (224 - 32 * w) 32 ∧
    (s.agenda = .write (0x4000 + 0x40 * j.val + 4 * w) 4 v :: rest →
      ∃ t, step s = .next t ∧ t = { s with agenda := rest, pt := t.pt } ∧ (∀ k, k ≠ j → t.pt.get k = s.pt.get k) ∧
        (t.pt.get j).inf = (s.pt.get j).inf ∧ (t.pt.get j).y = (s.pt.get j).y ∧
        (t.pt.get j).x.extractLsb' (224 - 32 * w) 32 = v ∧
        ∀ b, b < 224 - 32 * w ∨ 256 - 32 * w ≤ b → (t.pt.get j).x.getLsbD b = (s.pt.get j).x.getLsbD b) ∧
    (s.agenda = .write (0x4000 + 0x40 * j.val + 0x20 + 4 * w) 4 v :: rest →
      ∃ t, step s = .next t ∧ t = { s with agenda := rest, pt := t.pt } ∧ (∀ k, k ≠ j → t.pt.get k = s.pt.get k) ∧
        (t.pt.get j).inf = (s.pt.get j).inf ∧ (t.pt.get j).x = (s.pt.get j).x ∧
        (t.pt.get j).y.extractLsb' (224 - 32 * w) 32 = v ∧
        ∀ b, b < 224 - 32 * w ∨ 256 - 32 * w ≤ b → (t.pt.get j).y.getLsbD b = (s.pt.get j).y.getLsbD b)

/-- Rule R65: a word of a buffer's storage carries four bytes, the lowest-addressed the most significant; a write changes
those four bytes, and not the length. -/
def Obligations.BufferWindowCarriesFourBytes : Prop :=
  ∀ (s : State) (k : BufIx) (n : Nat) (v : Word) (rest : List Event), s.busy = false → n < Config.bufCap → n % 4 = 0 →
    bytesOfWord (s.windowRead (bufBase k + n)) = s.mem.readBytes (bufBase k + n) 4 ∧
    (s.agenda = .write (bufBase k + n) 4 v :: rest →
      ∃ t, step s = .next t ∧ t = { s with agenda := rest, mem := t.mem } ∧
        t.mem.readBytes (bufBase k + n) 4 = bytesOfWord v ∧
        ∀ a, a < bufBase k + n ∨ bufBase k + n + 4 ≤ a → t.mem.read a = s.mem.read a)

/-- Rules R26, R30, R32, R39: `KBITS` and `BLEN` store 16 bits and `PTINF` four; their other bits read as zero and ignore
writes; writing `PTINF` changes no coordinate. -/
def Obligations.NarrowRegistersKeepTheirBits : Prop :=
  ∀ (s : State) (k : BufIx) (v : Word) (rest : List Event), s.busy = false →
    (s.agenda = .write 0x0014 4 v :: rest →
      ∃ t, step s = .next t ∧ t = { s with agenda := rest, kbits := t.kbits } ∧
        t.kbits.toNat = v.toNat % 2 ^ 16 ∧ (t.windowRead 0x0014).toNat = v.toNat % 2 ^ 16) ∧
    (s.agenda = .write (0x0020 + 4 * k.val) 4 v :: rest →
      ∃ t, step s = .next t ∧ t = { s with agenda := rest, blen := t.blen } ∧
        (∀ j, j ≠ k → t.bufLen j = s.bufLen j) ∧ t.bufLen k = v.toNat % 2 ^ 16 ∧
        (t.windowRead (0x0020 + 4 * k.val)).toNat = v.toNat % 2 ^ 16) ∧
    (s.agenda = .write 0x0018 4 v :: rest →
      ∃ t, step s = .next t ∧ t = { s with agenda := rest, pt := t.pt } ∧
        (∀ j : PtIx, (t.pt.get j).inf = v.getLsbD j.val ∧ (t.pt.get j).x = (s.pt.get j).x ∧
          (t.pt.get j).y = (s.pt.get j).y) ∧
        (t.windowRead 0x0018).toNat = v.toNat % 2 ^ 4)

/-- Rules R32, R62, R68, R69: an aligned offset with nothing behind it reads 0 and ignores writes; writes to ID, STATUS and
ERRCODE are ignored. -/
def Obligations.UnmappedAndReadOnlyOffsets : Prop :=
  ∀ (s : State) (off : Nat) (v : Word) (rest : List Event), s.busy = false → off < 0x6000 → off % 4 = 0 →
    ((off = 0x001C ∨ (0x0030 ≤ off ∧ off < 0x1000) ∨
        (0x1000 ≤ off ∧ off < 0x3000 ∧ Config.bufCap ≤ (off - 0x1000) % 0x400) ∨ (0x3000 ≤ off ∧ off < 0x4000) ∨
        (0x4100 ≤ off ∧ off < 0x5000) ∨ (0x5000 ≤ off ∧ Config.bufCap ≤ (off - 0x5000) % 0x400)) →
      s.windowRead off = 0 ∧ (s.agenda = .write off 4 v :: rest → step s = .next { s with agenda := rest })) ∧
    (off = 0x0000 ∨ off = 0x0008 ∨ off = 0x000C →
      s.agenda = .write off 4 v :: rest → step s = .next { s with agenda := rest })

/-- Rules R61, R68, R69: on an idle PCC every aligned word of the window can be read; a read that is defined, then or while a
command runs, returns its value to the host and changes nothing else. -/
def Obligations.ReadsHaveNoSideEffect : Prop :=
  (∀ (s : State) (off : Nat) (rest : List Event), s.busy = false → off < 0x6000 → off % 4 = 0 →
    s.agenda = .read off 4 :: rest →
      step s = .next { s with agenda := rest, reads := s.reads ++ [s.windowRead off] }) ∧
    (∀ (s t : State) (off width : Nat) (rest : List Event), off < 0x6000 → s.agenda = .read off width :: rest →
      step s = .next t →
      t = { s with agenda := rest, reads := s.reads ++ [s.windowRead off] } ∧
        ∀ off', t.windowRead off' = s.windowRead off')

/-! ### Modular arithmetic -/

/-- Rule R123: MADD. -/
def Obligations.AddWritesTheResidueOfTheSum : Prop :=
  ∀ (rd rs1 rs2 rm : RegIx) (s : State),
    (s.reg rm = 0 → ∃ t, exec (.madd rd rs1 rs2 rm) s = .next t ∧ faulted .param s t ∧ t.rng = s.rng) ∧
    (0 < s.reg rm → ∃ t, exec (.madd rd rs1 rs2 rm) s = .next t ∧ t.reg rd = (s.reg rs1 + s.reg rs2) % s.reg rm ∧
      completed s t ∧ onlyChanges [rd] [] [] s t ∧ t.rng = s.rng)

/-- Rule R124: MSUB, the non-negative residue of the signed difference. -/
def Obligations.SubWritesTheResidueOfTheDifference : Prop :=
  ∀ (rd rs1 rs2 rm : RegIx) (s : State),
    (s.reg rm = 0 → ∃ t, exec (.msub rd rs1 rs2 rm) s = .next t ∧ faulted .param s t ∧ t.rng = s.rng) ∧
    (0 < s.reg rm → ∃ t, exec (.msub rd rs1 rs2 rm) s = .next t ∧
      (t.reg rd : Int) = ((s.reg rs1 : Int) - (s.reg rs2 : Int)) % (s.reg rm : Int) ∧
      completed s t ∧ onlyChanges [rd] [] [] s t ∧ t.rng = s.rng)

/-- Rule R125: MMUL. -/
def Obligations.MulWritesTheResidueOfTheProduct : Prop :=
  ∀ (rd rs1 rs2 rm : RegIx) (s : State),
    (s.reg rm = 0 → ∃ t, exec (.mmul rd rs1 rs2 rm) s = .next t ∧ faulted .param s t ∧ t.rng = s.rng) ∧
    (0 < s.reg rm → ∃ t, exec (.mmul rd rs1 rs2 rm) s = .next t ∧ t.reg rd = (s.reg rs1 * s.reg rs2) % s.reg rm ∧
      completed s t ∧ onlyChanges [rd] [] [] s t ∧ t.rng = s.rng)

/-- Rule R126: MNEG, 0 on a multiple of the modulus and `m - (x mod m)` otherwise. -/
def Obligations.NegWritesTheAdditiveInverse : Prop :=
  ∀ (rd rs1 rm : RegIx) (s : State),
    (s.reg rm = 0 → ∃ t, exec (.mneg rd rs1 rm) s = .next t ∧ faulted .param s t ∧ t.rng = s.rng) ∧
    (0 < s.reg rm → ∃ t, exec (.mneg rd rs1 rm) s = .next t ∧
      t.reg rd = (if s.reg rs1 % s.reg rm = 0 then 0 else s.reg rm - s.reg rs1 % s.reg rm) ∧
      completed s t ∧ onlyChanges [rd] [] [] s t ∧ t.rng = s.rng)

/-- Rules R127, R128: MPOW writes the mathematical power, the exponent never reduced. -/
def Obligations.PowWritesTheResidueOfThePower : Prop :=
  ∀ (rd rs1 rs2 rm : RegIx) (s : State),
    (s.reg rm = 0 → ∃ t, exec (.mpow rd rs1 rs2 rm) s = .next t ∧ faulted .param s t ∧ t.rng = s.rng) ∧
    (0 < s.reg rm → ∃ t, exec (.mpow rd rs1 rs2 rm) s = .next t ∧ t.reg rd = s.reg rs1 ^ s.reg rs2 % s.reg rm ∧
      completed s t ∧ onlyChanges [rd] [] [] s t ∧ t.rng = s.rng)

/-- Rule R129: MINV writes the unique inverse in `[0, m)`, or raises E_NOINV when the gcd is not 1. -/
def Obligations.InverseIsWrittenExactlyWhenItExists : Prop :=
  ∀ (rd rs1 rm : RegIx) (s : State),
    (s.reg rm = 0 → ∃ t, exec (.minv rd rs1 rm) s = .next t ∧ faulted .param s t ∧ t.rng = s.rng) ∧
    (0 < s.reg rm → Nat.gcd (s.reg rs1) (s.reg rm) ≠ 1 →
      ∃ t, exec (.minv rd rs1 rm) s = .next t ∧ faulted .noinv s t ∧ t.rng = s.rng) ∧
    (0 < s.reg rm → Nat.gcd (s.reg rs1) (s.reg rm) = 1 →
      ∃ t, exec (.minv rd rs1 rm) s = .next t ∧ t.reg rd < s.reg rm ∧
        s.reg rs1 * t.reg rd % s.reg rm = 1 % s.reg rm ∧
        (∀ v, v < s.reg rm → s.reg rs1 * v % s.reg rm = 1 % s.reg rm → v = t.reg rd) ∧
        completed s t ∧ onlyChanges [rd] [] [] s t ∧ t.rng = s.rng)

/-- Rule R131: MINVF, whatever the modulus at or above 2 is: the power `x^(m-2)`, prime or not. -/
def Obligations.FermatInverseIsThePower : Prop :=
  ∀ (rd rs1 rm : RegIx) (s : State),
    (s.reg rm < 2 → ∃ t, exec (.minvf rd rs1 rm) s = .next t ∧ faulted .param s t ∧ t.rng = s.rng) ∧
    (2 ≤ s.reg rm → s.reg rs1 % s.reg rm = 0 →
      ∃ t, exec (.minvf rd rs1 rm) s = .next t ∧ faulted .noinv s t ∧ t.rng = s.rng) ∧
    (2 ≤ s.reg rm → s.reg rs1 % s.reg rm ≠ 0 →
      ∃ t, exec (.minvf rd rs1 rm) s = .next t ∧ t.reg rd = s.reg rs1 ^ (s.reg rm - 2) % s.reg rm ∧
        completed s t ∧ onlyChanges [rd] [] [] s t ∧ t.rng = s.rng)

/-- Rule R132: for a prime modulus MINV and MINVF write the same value or both raise E_NOINV. -/
def Obligations.InversesAgreeOnPrimeModuli : Prop :=
  ∀ (rd rs1 rm : RegIx) (s : State), Nat.Prime (s.reg rm) →
    ∃ t u, exec (.minv rd rs1 rm) s = .next t ∧ exec (.minvf rd rs1 rm) s = .next u ∧
      ((s.reg rs1 % s.reg rm ≠ 0 ∧ completed s t ∧ completed s u ∧ t.reg rd = u.reg rd) ∨
        (s.reg rs1 % s.reg rm = 0 ∧ faulted .noinv s t ∧ faulted .noinv s u))

/-- Rule R133: MRAND writes some value below the modulus; nothing more is said of the value or of the bytes drawn. -/
def Obligations.RandomElementIsBelowTheModulus : Prop :=
  ∀ (rd rm : RegIx) (s : State),
    (s.reg rm = 0 → ∃ t, exec (.mrand rd rm) s = .next t ∧ faulted .param s t ∧ t.rng = s.rng) ∧
    (0 < s.reg rm → ∃ t, exec (.mrand rd rm) s = .next t ∧ t.reg rd < s.reg rm ∧
      completed s t ∧ onlyChanges [rd] [] [] s t)

/-- Rule R122: whatever a modular command writes is below its modulus as read at acceptance. -/
def Obligations.ModularResultsAreBelowTheModulus : Prop :=
  ∀ (rd rs1 rs2 rm : RegIx) (i : Instr) (s t : State),
    i ∈ [Instr.madd rd rs1 rs2 rm, .msub rd rs1 rs2 rm, .mmul rd rs1 rs2 rm, .mneg rd rs1 rm, .mpow rd rs1 rs2 rm,
      .minv rd rs1 rm, .minvf rd rs1 rm, .mrand rd rm] →
    exec i s = .next t → completed s t → s.fault = false → t.reg rd < s.reg rm

/-- Rule R121: modulus 0 is E_PARAM for every modular command, before any draw; modulus 1 gives 0, but for MINVF. -/
def Obligations.ModulusZeroFaultsAndModulusOneGivesZero : Prop :=
  ∀ (rd rs1 rs2 rm : RegIx) (s : State),
    (∀ i ∈ [Instr.madd rd rs1 rs2 rm, .msub rd rs1 rs2 rm, .mmul rd rs1 rs2 rm, .mneg rd rs1 rm,
        .mpow rd rs1 rs2 rm, .minv rd rs1 rm, .minvf rd rs1 rm, .mrand rd rm],
      s.reg rm = 0 → ∃ t, exec i s = .next t ∧ faulted .param s t ∧ t.rng = s.rng) ∧
    (∀ i ∈ [Instr.madd rd rs1 rs2 rm, .msub rd rs1 rs2 rm, .mmul rd rs1 rs2 rm, .mneg rd rs1 rm,
        .mpow rd rs1 rs2 rm, .minv rd rs1 rm, .mrand rd rm],
      s.reg rm = 1 → ∃ t, exec i s = .next t ∧ completed s t ∧ t.reg rd = 0) ∧
    (s.reg rm = 1 → ∃ t, exec (.minvf rd rs1 rm) s = .next t ∧ faulted .param s t ∧ t.rng = s.rng)

/-! ### PKCS#1 padding -/

/-- Rules R150 to R152: PKPAD, its three faults in order, and the block it writes. -/
def Obligations.PadWritesThePaddedBlock : Prop :=
  ∀ (bd bs : BufIx) (s : State),
    (s.kbits.toNat % 8 ≠ 0 ∨ Config.bufCap < s.kbits.toNat / 8 ∨ lengthTooLarge s bs →
      ∃ t, exec (.pkpad bd bs) s = .next t ∧ faulted .param s t ∧ t.rng = s.rng) ∧
    (s.kbits.toNat % 8 = 0 → s.kbits.toNat / 8 ≤ Config.bufCap → ¬ lengthTooLarge s bs →
      s.kbits.toNat / 8 < s.bufLen bs + 11 →
      ∃ t, exec (.pkpad bd bs) s = .next t ∧ faulted .msglong s t ∧ t.rng = s.rng) ∧
    (s.kbits.toNat % 8 = 0 → s.kbits.toNat / 8 ≤ Config.bufCap → s.bufLen bs + 11 ≤ s.kbits.toNat / 8 →
      ∃ t, exec (.pkpad bd bs) s = .next t ∧ completed s t ∧ onlyChanges [] [] [bd] s t ∧
        t.rng = s.rng.skip (s.kbits.toNat / 8 - 3 - s.bufLen bs) ∧ t.bufLen bd = s.kbits.toNat / 8 ∧
        holdsBytes t bd ([0x00, 0x02] ++
          (s.rng.bytes (s.kbits.toNat / 8 - 3 - s.bufLen bs)).map (fun b => if b = 0x00 then 0x01 else b) ++
          [0x00] ++ s.bufBytes bs))

/-- Rules R153, R154: PKUNPAD writes what follows the first separator, or raises E_BADPAD when there is none. -/
def Obligations.UnpadWritesWhatFollowsTheSeparator : Prop :=
  ∀ (bd bs : BufIx) (s : State),
    (lengthTooLarge s bs → ∃ t, exec (.pkunpad bd bs) s = .next t ∧ faulted .param s t ∧ t.rng = s.rng) ∧
    (∀ i, ¬ lengthTooLarge s bs → separatorAt (s.bufBytes bs) i →
      ∃ t, exec (.pkunpad bd bs) s = .next t ∧ completed s t ∧ onlyChanges [] [] [bd] s t ∧ t.rng = s.rng ∧
        holdsBytes t bd ((s.bufBytes bs).drop (i + 1))) ∧
    (¬ lengthTooLarge s bs → (∀ i, ¬ separatorAt (s.bufBytes bs) i) →
      ∃ t, exec (.pkunpad bd bs) s = .next t ∧ faulted .badpad s t ∧ t.rng = s.rng)

/-- Rule R155: unpadding what was padded restores the message, for every answer of the source; a longer message fails. -/
def Obligations.PadThenUnpadRestoresTheMessage : Prop :=
  ∀ (b0 b1 b2 : BufIx) (s : State), s.kbits.toNat % 8 = 0 → s.kbits.toNat / 8 ≤ Config.bufCap →
    (s.bufLen b0 + 11 ≤ s.kbits.toNat / 8 →
      ∃ t u, exec (.pkpad b1 b0) s = .next t ∧ completed s t ∧ exec (.pkunpad b2 b1) t = .next u ∧ completed t u ∧
        u.bufBytes b2 = s.bufBytes b0 ∧ u.bufLen b2 = s.bufLen b0) ∧
    (s.kbits.toNat / 8 < s.bufLen b0 + 11 → ¬ lengthTooLarge s b0 →
      ∃ t, exec (.pkpad b1 b0) s = .next t ∧ faulted .msglong s t)

/-! ### RSA -/

/-- Rules R168, R169, R171: a legal RSAKG ends in E_KEYGEN with its budget exhausted, that is after `KEYGEN_RETRY_MAX + 1`
candidates (no first prime) or one more (no second prime) and never earlier; or it writes the modulus and the private exponent
of two primes that meet every condition of rule R171, having drawn two candidates and one more for each retry; for every answer
of the source. Its one inversion cannot fail. -/
def Obligations.KeygenWritesAValidKeyOrExhausts : Prop :=
  (∀ (rdn rdd re : RegIx) (s : State), rdn ≠ rdd → s.kbits.toNat % 2 = 0 → 4 ≤ s.kbits.toNat →
    s.kbits.toNat ≤ Config.opw →
    ∃ t, exec (.rsakg rdn rdd re) s = .next t ∧
      ((faulted .keygen s t ∧
          (t.rng = s.rng.skip ((Config.keygenRetryMax + 1) * ((s.kbits.toNat / 2 + 7) / 8)) ∨
            t.rng = s.rng.skip ((Config.keygenRetryMax + 2) * ((s.kbits.toNat / 2 + 7) / 8)))) ∨
        (completed s t ∧ onlyChanges [rdn, rdd] [] [] s t ∧
          (∃ n, 2 ≤ n ∧ n ≤ Config.keygenRetryMax + 2 ∧ t.rng = s.rng.skip (n * ((s.kbits.toNat / 2 + 7) / 8))) ∧
          ∃ p q, keyOfPrimes s.kbits.toNat (s.reg re) (t.reg rdn) (t.reg rdd) p q))) ∧
    (∀ e p q : Nat, 2 ≤ p → 2 ≤ q → Nat.gcd e (p - 1) = 1 → Nat.gcd e (q - 1) = 1 →
      ∃ d, modInv e (Nat.lcm (p - 1) (q - 1)) = .ok d)

/-- Rules R166 to R169: a candidate is the least prime at or above the drawn bytes' number, cut to `KBITS/2` bits with the top
and the bottom bit set; when the first two candidates drawn suit the exponent and lie far enough apart, RSAKG completes with
their key and has drawn exactly twice, whatever the retry budget is. -/
def Obligations.KeygenCompletesOnTwoGoodDraws : Prop :=
  ∀ (rdn rdd re : RegIx) (s : State) (p q : Nat), rdn ≠ rdd → s.kbits.toNat % 2 = 0 → 4 ≤ s.kbits.toNat →
    s.kbits.toNat ≤ Config.opw → p = candidate (s.kbits.toNat / 2) s.rng →
    q = candidate (s.kbits.toNat / 2) (afterCandidate (s.kbits.toNat / 2) s.rng) →
    bitlen p = s.kbits.toNat / 2 → bitlen q = s.kbits.toNat / 2 →
    Nat.gcd (s.reg re) (p - 1) = 1 → Nat.gcd (s.reg re) (q - 1) = 1 →
    2 ^ (s.kbits.toNat / 2) ≤ distance p q * 2 ^ 100 →
    leastPrimeFrom ((be (s.rng.bytes ((s.kbits.toNat / 2 + 7) / 8)) % 2 ^ (s.kbits.toNat / 2)) |||
      2 ^ (s.kbits.toNat / 2 - 1) ||| 1) p ∧
    leastPrimeFrom ((be ((s.rng.skip ((s.kbits.toNat / 2 + 7) / 8)).bytes ((s.kbits.toNat / 2 + 7) / 8)) %
      2 ^ (s.kbits.toNat / 2)) ||| 2 ^ (s.kbits.toNat / 2 - 1) ||| 1) q ∧
    ∃ t, exec (.rsakg rdn rdd re) s = .next t ∧ completed s t ∧ onlyChanges [rdn, rdd] [] [] s t ∧
      t.reg rdn = p * q ∧ t.reg rdd < Nat.lcm (p - 1) (q - 1) ∧
      s.reg re * t.reg rdd % Nat.lcm (p - 1) (q - 1) = 1 % Nat.lcm (p - 1) (q - 1) ∧
      t.rng = s.rng.skip (2 * ((s.kbits.toNat / 2 + 7) / 8))

/-- Rules R96, R169, R232: RSAKG with equal destinations is E_ILLCMD, whatever its operands; with a key size that is odd,
below 4 or above OPW, E_PARAM; neither draws. -/
def Obligations.KeygenRejectsItsOperands : Prop :=
  ∀ (rdn rdd re : RegIx) (s : State),
    (rdn = rdd → ∃ t, exec (.rsakg rdn rdd re) s = .next t ∧ faulted .illcmd s t ∧ t.rng = s.rng) ∧
    (rdn ≠ rdd → s.kbits.toNat % 2 ≠ 0 ∨ s.kbits.toNat < 4 ∨ Config.opw < s.kbits.toNat →
      ∃ t, exec (.rsakg rdn rdd re) s = .next t ∧ faulted .param s t ∧ t.rng = s.rng)

/-- Rule R169 (corner cases), with rules R168, R236, R240: an even exponent suits no candidate, so RSAKG ends in E_KEYGEN after
`KEYGEN_RETRY_MAX + 1` candidates; for KBITS = 4 and an odd exponent every candidate is 3, which is accepted as `p` and then
never lies far enough from `q`, so it ends in E_KEYGEN after one candidate more. The bytes drawn stay consumed. -/
def Obligations.KeygenExhaustsOnEvenExponents : Prop :=
  ∀ (rdn rdd re : RegIx) (s : State), rdn ≠ rdd → s.kbits.toNat % 2 = 0 → 4 ≤ s.kbits.toNat →
    s.kbits.toNat ≤ Config.opw →
    (s.reg re % 2 = 0 →
      ∃ t, exec (.rsakg rdn rdd re) s = .next t ∧ faulted .keygen s t ∧
        t.rng = s.rng.skip ((Config.keygenRetryMax + 1) * ((s.kbits.toNat / 2 + 7) / 8))) ∧
    (s.reg re % 2 = 1 → s.kbits.toNat = 4 →
      ∃ t, exec (.rsakg rdn rdd re) s = .next t ∧ faulted .keygen s t ∧
        t.rng = s.rng.skip (Config.keygenRetryMax + 2))

/-- Rule R172: RSAENC, its faults in order (E_MSGLARGE never occurs), and the minimal encoding it writes. -/
def Obligations.EncryptWritesTheMinimalCiphertext : Prop :=
  ∀ (bd bs : BufIx) (rx rn : RegIx) (s : State),
    (s.reg rn = 0 ∨ lengthTooLarge s bs →
      ∃ t, exec (.rsaenc bd bs rx rn) s = .next t ∧ faulted .param s t ∧ t.rng = s.rng) ∧
    (0 < s.reg rn → ¬ lengthTooLarge s bs → (bitlen (s.reg rn) + 7) / 8 < s.bufLen bs + 11 →
      ∃ t, exec (.rsaenc bd bs rx rn) s = .next t ∧ faulted .msglong s t ∧ t.rng = s.rng) ∧
    (0 < s.reg rn → s.bufLen bs + 11 ≤ (bitlen (s.reg rn) + 7) / 8 →
      ∃ t em, exec (.rsaenc bd bs rx rn) s = .next t ∧ completed s t ∧ onlyChanges [] [] [bd] s t ∧
        t.rng = s.rng.skip ((bitlen (s.reg rn) + 7) / 8 - 3 - s.bufLen bs) ∧
        em = [0x00, 0x02] ++ (s.rng.bytes ((bitlen (s.reg rn) + 7) / 8 - 3 - s.bufLen bs)).map
          (fun b => if b = 0x00 then 0x01 else b) ++ [0x00] ++ s.bufBytes bs ∧
        be em < s.reg rn ∧ holdsBytes t bd (i2beMin (be em ^ s.reg rx % s.reg rn)))

/-- Rule R173: RSADEC, which rebuilds the block as one zero byte and the minimal encoding of the power. -/
def Obligations.DecryptUnpadsThePower : Prop :=
  ∀ (bd bs : BufIx) (rx rn : RegIx) (s : State),
    (s.reg rn = 0 ∨ lengthTooLarge s bs →
      ∃ t, exec (.rsadec bd bs rx rn) s = .next t ∧ faulted .param s t ∧ t.rng = s.rng) ∧
    (∀ i em, 0 < s.reg rn → ¬ lengthTooLarge s bs →
      em = 0x00 :: i2beMin (be (s.bufBytes bs) ^ s.reg rx % s.reg rn) → separatorAt em i →
      ∃ t, exec (.rsadec bd bs rx rn) s = .next t ∧ completed s t ∧ onlyChanges [] [] [bd] s t ∧ t.rng = s.rng ∧
        holdsBytes t bd (em.drop (i + 1))) ∧
    (∀ em, 0 < s.reg rn → ¬ lengthTooLarge s bs →
      em = 0x00 :: i2beMin (be (s.bufBytes bs) ^ s.reg rx % s.reg rn) → (∀ i, ¬ separatorAt em i) →
      ∃ t, exec (.rsadec bd bs rx rn) s = .next t ∧ faulted .badpad s t ∧ t.rng = s.rng)

/-- Rules R171, R174: with the modulus of two distinct primes and exponents inverse to each other modulo the lcm, decrypting
what was encrypted restores the message, for every answer of the source. -/
def Obligations.DecryptOfEncryptRestoresTheMessage : Prop :=
  ∀ (b0 b1 b2 : BufIx) (re rd rn : RegIx) (s : State) (p q : Nat), Nat.Prime p → Nat.Prime q → p ≠ q →
    s.reg rn = p * q →
    s.reg re * s.reg rd % Nat.lcm (p - 1) (q - 1) = 1 % Nat.lcm (p - 1) (q - 1) →
    s.bufLen b0 + 11 ≤ (bitlen (s.reg rn) + 7) / 8 →
    ∃ t u, exec (.rsaenc b1 b0 re rn) s = .next t ∧ completed s t ∧
      exec (.rsadec b2 b1 rd rn) t = .next u ∧ completed t u ∧
      u.bufBytes b2 = s.bufBytes b0 ∧ u.bufLen b2 = s.bufLen b0

/-! ### Elliptic curve -/

/-- Rules R27, R194 to R196: PADD, case by case, on any pairs in range, on the curve or not. -/
def Obligations.PointAdditionFollowsTheCases : Prop :=
  ∀ (pd ps1 ps2 : PtIx) (s : State),
    (pointOutOfRange Config.curve s ps1 ∨ pointOutOfRange Config.curve s ps2 →
      ∃ t, exec (.padd pd ps1 ps2) s = .next t ∧ faulted .param s t ∧ t.rng = s.rng) ∧
    (∀ P Q, pointIs Config.curve s ps1 P → pointIs Config.curve s ps2 Q →
      ∃ t, exec (.padd pd ps1 ps2) s = .next t ∧ t.rng = s.rng ∧
        match P, Q with
        | .inf, q => completed s t ∧ onlyChanges [] [pd] [] s t ∧ t.pt.get pd = PointReg.ofPoint q
        | .affine px py, .inf =>
          completed s t ∧ onlyChanges [] [pd] [] s t ∧ t.pt.get pd = PointReg.ofPoint (.affine px py)
        | .affine px py, .affine qx qy =>
          if qx = px ∧ (qy + py) % Config.curve.p = 0 then
            completed s t ∧ onlyChanges [] [pd] [] s t ∧ t.pt.get pd = ⟨true, 0, 0⟩
          else if qx = px ∧ qy ≠ py then faulted .noinv s t
          else
            completed s t ∧ onlyChanges [] [pd] [] s t ∧
              ∃ lam rx ry : Nat, t.pt.get pd = PointReg.ofPoint (.affine rx ry) ∧
                onLine Config.curve lam px py qx rx ry ∧
                if qx = px then
                  (lam : Int) * (2 * py) ≡ 3 * (px * px) + Config.curve.a [ZMOD (Config.curve.p : Int)]
                else (lam : Int) * (qx - px) ≡ qy - py [ZMOD (Config.curve.p : Int)])

/-- Rules R195, R197: PDBL is PADD of a register with itself, and E_PARAM is its only fault, on the curve or not. -/
def Obligations.DoublingRaisesNothingButParam : Prop :=
  ∀ (pd ps : PtIx) (s : State),
    exec (.pdbl pd ps) s = exec (.padd pd ps ps) s ∧
    (pointOutOfRange Config.curve s ps →
      ∃ t, exec (.pdbl pd ps) s = .next t ∧ faulted .param s t ∧ t.rng = s.rng) ∧
    (∀ P, pointIs Config.curve s ps P →
      ∃ t, exec (.pdbl pd ps) s = .next t ∧ completed s t ∧ onlyChanges [] [pd] [] s t ∧ t.rng = s.rng ∧
        match P with
        | .inf => t.pt.get pd = ⟨true, 0, 0⟩
        | .affine px py =>
          if py = 0 then t.pt.get pd = ⟨true, 0, 0⟩
          else
            ∃ lam rx ry : Nat, t.pt.get pd = PointReg.ofPoint (.affine rx ry) ∧
              onLine Config.curve lam px py px rx ry ∧
              (lam : Int) * (2 * py) ≡ 3 * (px * px) + Config.curve.a [ZMOD (Config.curve.p : Int)])

/-- Rules R194, R198: PNEG, and PNEG twice. -/
def Obligations.NegationMirrorsThePoint : Prop :=
  ∀ (pd ps : PtIx) (s : State),
    (pointOutOfRange Config.curve s ps →
      ∃ t, exec (.pneg pd ps) s = .next t ∧ faulted .param s t ∧ t.rng = s.rng) ∧
    (∀ P, pointIs Config.curve s ps P →
      ∃ t u, exec (.pneg pd ps) s = .next t ∧ completed s t ∧ onlyChanges [] [pd] [] s t ∧ t.rng = s.rng ∧
        (match P with
        | .inf => t.pt.get pd = ⟨true, 0, 0⟩
        | .affine x y => t.pt.get pd = PointReg.ofPoint (.affine x ((Config.curve.p - y) % Config.curve.p))) ∧
        exec (.pneg pd pd) t = .next u ∧ completed t u ∧ u.pt.get pd = PointReg.ofPoint P)

/-- Rules R192, R195: on every admissible curve the operations take points on the curve to points on the curve, and never
fault on them. -/
def Obligations.OperationsStayOnTheCurve : Prop :=
  ∀ c : Curve, admissibleCurve c → ∀ P Q : Point, P.onCurve c → Q.onCurve c →
    (∃ R, pointAdd c P Q = .ok R ∧ R.onCurve c) ∧ (pointNeg c P).onCurve c ∧
    ∀ d : Nat, (∃ R, scalarMulDA c d P = .ok R ∧ R.onCurve c) ∧ (∃ R, scalarMulML c d P = .ok R ∧ R.onCurve c)

/-- Rule R199: the group-law properties the document states, on every admissible curve and for every pair in range. -/
def Obligations.PointAdditionHasIdentityInverseAndCommutes : Prop :=
  ∀ c : Curve, admissibleCurve c → ∀ P Q : Point, P.inRange c → Q.inRange c →
    pointAdd c P .inf = .ok P ∧ pointAdd c P (pointNeg c P) = .ok .inf ∧ pointAdd c P Q = pointAdd c Q P

/-- Rules R192, R201, R206: SMUL and SMULM complete for every scalar and every pair in range, on the curve or not, with the
result of double-and-add (rule R200) and of the ladder (rule R205) (the
formulas never use `b`, so a pair off the curve moves on the curve of its own `b`, and no chord divisor is 0 there: the
E_NOINV the two rules allow off the curve never occurs, log entry 19); on the curve the result is on the curve; scalar 0
and the point `O` give `O`; a coordinate out of range is E_PARAM. -/
def Obligations.ScalarMultiplicationsComplete : Prop :=
  ∀ (pd ps : PtIx) (rk : RegIx) (i : Instr) (s : State), i ∈ [Instr.smul pd ps rk, .smulm pd ps rk] →
    (pointOutOfRange Config.curve s ps → ∃ t, exec i s = .next t ∧ faulted .param s t ∧ t.rng = s.rng) ∧
    (∀ P, pointIs Config.curve s ps P →
      ∃ t Q, exec i s = .next t ∧ completed s t ∧ onlyChanges [] [pd] [] s t ∧ t.rng = s.rng ∧
        t.pt.get pd = PointReg.ofPoint Q ∧ Q.inRange Config.curve ∧
        (i = .smul pd ps rk → scalarMulDA Config.curve (s.reg rk) P = .ok Q) ∧
        (i = .smulm pd ps rk → scalarMulML Config.curve (s.reg rk) P = .ok Q) ∧
        (P.onCurve Config.curve → Q.onCurve Config.curve)) ∧
    (∀ P, pointIs Config.curve s ps P → s.reg rk = 0 ∨ P = .inf →
      ∃ t, exec i s = .next t ∧ completed s t ∧ t.pt.get pd = ⟨true, 0, 0⟩)

/-- Rule R207: for every scalar and every point on the curve SMUL and SMULM write the same point, which is the multiple, and
neither faults. -/
def Obligations.ScalarMultiplicationsAgree : Prop :=
  ∀ (pd ps : PtIx) (rk : RegIx) (s : State) (P : Point), pointIs Config.curve s ps P → P.onCurve Config.curve →
    ∃ t u Q, multiple Config.curve (s.reg rk) P = .ok Q ∧
      exec (.smul pd ps rk) s = .next t ∧ completed s t ∧ t.pt.get pd = PointReg.ofPoint Q ∧
      exec (.smulm pd ps rk) s = .next u ∧ completed s u ∧ u.pt.get pd = PointReg.ofPoint Q

/-- Rule R208: ECKG writes the 32 drawn bytes, big-endian and reduced modulo the field prime, and the ladder's multiple of
G, and never faults. -/
def Obligations.EcKeygenWritesTheScalarAndItsPoint : Prop :=
  ∀ (pd : PtIx) (rk : RegIx) (s : State),
    ∃ t Q, exec (.eckg pd rk) s = .next t ∧ completed s t ∧ onlyChanges [rk] [pd] [] s t ∧ t.rng = s.rng.skip 32 ∧
      t.reg rk = be (s.rng.bytes 32) % Config.curve.p ∧
      scalarMulML Config.curve (t.reg rk) (.affine Config.curve.gx Config.curve.gy) = .ok Q ∧
      Q.onCurve Config.curve ∧ t.pt.get pd = PointReg.ofPoint Q

/-- Rule R209: ECDH writes the 32-byte big-endian x-coordinate of the double-and-add product, and raises E_INFPT when the
product is `O`. That the product exists for every peer pair in range, on the curve or not, so that the E_NOINV which the rule
allows off the curve never occurs, is the model's deduction from the formulas (DEDUCED, log entry 19). -/
def Obligations.SharedSecretIsTheXCoordinate : Prop :=
  ∀ (bd : BufIx) (ps : PtIx) (rk : RegIx) (s : State),
    (pointOutOfRange Config.curve s ps →
      ∃ t, exec (.ecdh bd ps rk) s = .next t ∧ faulted .param s t ∧ t.rng = s.rng) ∧
    (∀ P, pointIs Config.curve s ps P →
      ∃ t R, scalarMulDA Config.curve (s.reg rk) P = .ok R ∧ exec (.ecdh bd ps rk) s = .next t ∧ t.rng = s.rng ∧
        match R with
        | .inf => faulted .infpt s t
        | .affine x _ =>
          completed s t ∧ onlyChanges [] [] [bd] s t ∧ t.bufLen bd = 32 ∧ be (t.bufBytes bd) = x ∧
            holdsBytes t bd (i2be x 32)) ∧
    (∀ P, pointIs Config.curve s ps P → s.reg rk = 0 ∨ P = .inf →
      ∃ t, exec (.ecdh bd ps rk) s = .next t ∧ faulted .infpt s t)

/-- Rule R210: two parties that each generate a key pair and use the other's point either both raise E_INFPT or get the same
bytes, for every answer of the source. -/
def Obligations.KeyAgreementGivesTheSameSecret : Prop :=
  ∀ (p0 p1 : PtIx) (r0 r1 : RegIx) (b0 b1 : BufIx) (s : State), p0 ≠ p1 → r0 ≠ r1 →
    ∃ s1 s2 t u, exec (.eckg p0 r0) s = .next s1 ∧ exec (.eckg p1 r1) s1 = .next s2 ∧
      exec (.ecdh b0 p1 r0) s2 = .next t ∧ exec (.ecdh b1 p0 r1) s2 = .next u ∧
      ((faulted .infpt s2 t ∧ faulted .infpt s2 u) ∨
        (completed s2 t ∧ completed s2 u ∧ t.bufBytes b0 = u.bufBytes b1 ∧ t.bufLen b0 = 32 ∧ u.bufLen b1 = 32))

/-! ### All commands -/

/-- Rules R20, R22, R40, R41, R239, R240: what each of the 20 commands may change: its destinations, STATUS, ERRCODE, and the
source if the command draws; every other register, flag and byte of memory is unchanged, faults included. The source's answers
are not the command's to change, and it never moves back: what a command has drawn, faulted or not, stays consumed. -/
def Obligations.CommandsChangeOnlyTheirDestinations : Prop :=
  ∀ (i : Instr) (s t : State), exec i s = .next t →
    onlyChanges (destRegs i) (destPoints i) (destBufs i) s t ∧ (draws i = false → t.rng = s.rng) ∧
      t.rng.given = s.rng.given ∧ s.rng.pos ≤ t.rng.pos

/-- Rules R239, R240: every command ends in a next state, which is the completion with STATUS DONE and no new fault, or the
fault completion with no destination written. -/
def Obligations.CommandsEndCompletedOrFaulted : Prop :=
  ∀ (i : Instr) (s : State), ∃ t, exec i s = .next t ∧ (completed s t ∨ ∃ e, faulted e s t)

/-- Rules R230, R232 to R237: a command raises no code but those its rule gives it; in particular PDBL never raises E_NOINV
and ECKG raises nothing. -/
def Obligations.CommandsRaiseOnlyTheirCodes : Prop :=
  ∀ (i : Instr) (s t : State), exec i s = .next t → completed s t ∨ ∃ e ∈ mayRaise i, faulted e s t

/-! ### The control registers as read -/

/-- Rules R26, R30, R32 to R35, R37 to R39, R66: what the host reads of each control register, in every state, bit by bit of
the fields it is made of. -/
def Obligations.ControlRegistersReadTheirFields : Prop :=
  ∀ s : State, s.windowRead 0x0000 = 0x50434301 ∧
    (s.windowRead 0x0004).toNat = (if s.ie = true then 1 else 0) ∧
    (s.windowRead 0x0008).toNat =
      (if s.busy = true then 1 else 0) + (if s.done = true then 2 else 0) + (if s.fault = true then 4 else 0) ∧
    (s.windowRead 0x000C).toNat = s.errcode.toNat ∧ s.windowRead 0x0010 = s.cmd ∧
    (s.windowRead 0x0014).toNat = s.kbits.toNat ∧
    (∀ n, (s.windowRead 0x0018).getLsbD n = if h : n < 4 then (s.pt.get ⟨n, h⟩).inf else false) ∧
    ∀ k : BufIx, (s.windowRead (0x0020 + 4 * k.val)).toNat = s.bufLen k
end

