-- ==== Sys2Proof/Laws/Bytes.lean ====
section
/-! SUPPORT. bitlen and the big-endian conversions: what each determines, and that they undo each other (rules R15, R16). -/

namespace Sys2Proof.Machine
set_option Elab.async false

theorem bitlen_le_iff (v n : Nat) : bitlen v ≤ n ↔ v < 2 ^ n := by
  unfold bitlen
  split
  · subst_vars; simp
  · rename_i h; rw [Nat.succ_le_iff, Nat.log2_lt h]

theorem lt_two_pow_bitlen (v : Nat) : v < 2 ^ bitlen v := (bitlen_le_iff v _).1 le_rfl

@[simp] theorem bitlen_zero : bitlen 0 = 0 := rfl

/-- A nonzero number has its top bit set. -/
theorem two_pow_le_of_bitlen {v n : Nat} (h : bitlen v = n + 1) : 2 ^ n ≤ v := by
  by_contra hlt
  have := (bitlen_le_iff v n).2 (by omega)
  omega

theorem lt_pow_bytesFor (v : Nat) : v < 256 ^ bytesFor (bitlen v) := by
  have h := lt_two_pow_bitlen v
  have h2 : 2 ^ bitlen v ≤ 256 ^ bytesFor (bitlen v) := by
    rw [show (256 : Nat) = 2 ^ 8 by rfl, ← pow_mul]
    exact Nat.pow_le_pow_right (by omega) (by unfold bytesFor; omega)
  omega

@[simp] theorem be_nil : be [] = 0 := rfl

theorem be_append (xs ys : List Byte) : be (xs ++ ys) = be xs * 256 ^ ys.length + be ys := by
  induction xs with
  | nil => simp
  | cons b bs ih =>
    simp only [List.cons_append, be, List.length_append, ih, pow_add]
    ring

theorem be_lt (bs : List Byte) : be bs < 256 ^ bs.length := by
  induction bs with
  | nil => simp
  | cons b bs ih =>
    have hb : b.toNat ≤ 255 := by have := b.isLt; omega
    have := Nat.mul_le_mul_right (256 ^ bs.length) hb
    simp only [be, List.length_cons, pow_succ]
    omega

@[simp] theorem i2be_length (v n : Nat) : (i2be v n).length = n := by
  induction n with
  | zero => rfl
  | succ n ih => simp [i2be, ih]

theorem be_i2be (v n : Nat) : be (i2be v n) = v % 256 ^ n := by
  induction n with
  | zero => simp [i2be, Nat.mod_one]
  | succ n ih =>
    simp only [i2be, be, i2be_length, BitVec.toNat_ofNat, ih]
    rw [pow_succ 256 n, Nat.mod_mul, show (2 ^ 8 : Nat) = 256 by rfl, Nat.mul_comm (256 ^ n), Nat.add_comm]

/-- `I2BE_min` undoes nothing but leading zero bytes: its value is the number itself. -/
@[simp] theorem be_i2beMin (v : Nat) : be (i2beMin v) = v := by
  rw [i2beMin, be_i2be, Nat.mod_eq_of_lt (lt_pow_bytesFor v)]

@[simp] theorem i2beMin_length (v : Nat) : (i2beMin v).length = bytesFor (bitlen v) := by simp [i2beMin]

theorem i2be_add_mul (v k n : Nat) : i2be (v + k * 256 ^ n) n = i2be v n := by
  induction n generalizing v k with
  | zero => rfl
  | succ n ih =>
    have e : v + k * 256 ^ (n + 1) = v + (k * 256) * 256 ^ n := by rw [pow_succ]; ring
    simp only [i2be, e, ih]
    rw [Nat.add_mul_div_right _ _ (by positivity)]
    congr 1
    apply BitVec.eq_of_toNat_eq
    simp [BitVec.toNat_ofNat, Nat.add_mul_mod_self_right]

/-- A sequence is the encoding of its value in its own length. -/
theorem i2be_be (bs : List Byte) : i2be (be bs) bs.length = bs := by
  induction bs with
  | nil => rfl
  | cons b bs ih =>
    have hlt := be_lt bs
    simp only [List.length_cons, i2be, be]
    rw [Nat.add_comm, i2be_add_mul, ih, Nat.add_mul_div_right _ _ (by positivity), Nat.div_eq_of_lt hlt]
    congr 1
    apply BitVec.eq_of_toNat_eq
    simp

end Sys2Proof.Machine
end

