-- ==== Sys2Proof/Laws/Arith.lean ====
section
/-! SUPPORT. What the arithmetic functions compute: ModPow is the power, ModInv the inverse or E_NOINV, isPrime is primality
and NextPrime the least prime at or above its argument. -/

namespace Sys2Proof.Machine
set_option Elab.async false

theorem powLoop_eq (m n y b acc : Nat) (hy : y < 2 ^ n) (hacc : acc % m = acc) :
    powLoop m n y b acc = acc * b ^ y % m := by
  induction n generalizing y b acc with
  | zero =>
    have : y = 0 := by simpa using hy
    subst this; simp [powLoop, hacc]
  | succ n ih =>
    have hy' : y / 2 < 2 ^ n := by rw [pow_succ] at hy; omega
    have hacc' : (if y % 2 = 1 then acc * b % m else acc) % m = (if y % 2 = 1 then acc * b % m else acc) := by
      split <;> simp [hacc]
    rw [powLoop, ih _ _ _ hy' hacc']
    have hb : (b * b % m) ^ (y / 2) ≡ b ^ (2 * (y / 2)) [MOD m] := by
      rw [pow_mul, sq]; exact (Nat.mod_modEq _ _).pow _
    split
    · rename_i hodd
      have e : b ^ y = b * b ^ (2 * (y / 2)) := by rw [← pow_succ']; congr 1; omega
      rw [e, ← mul_assoc]
      exact (Nat.mod_modEq _ _).mul hb
    · rename_i hev
      have e : 2 * (y / 2) = y := by omega
      rw [e] at hb
      exact (Nat.ModEq.refl _).mul hb

/-- ModPow is the mathematical power (rule R128). -/
theorem modPow_eq (x y m : Nat) : modPow x y m = x ^ y % m := by
  rw [modPow, powLoop_eq _ _ _ _ _ (lt_two_pow_bitlen y) (Nat.mod_mod _ _)]
  have : (1 % m) * (x % m) ^ y ≡ 1 * x ^ y [MOD m] := (Nat.mod_modEq _ _).mul ((Nat.mod_modEq _ _).pow _)
  simpa [Nat.ModEq] using this

/-- What the Euclidean loop answers, with the invariant of rule R130. -/
theorem euclidLoop_spec (x m : Int) (n r0 r1 : Nat) (t0 t1 : Int) (hn : r1 ≤ n)
    (h0 : t0 * x ≡ r0 [ZMOD m]) (h1 : t1 * x ≡ r1 [ZMOD m]) :
    (euclidLoop n r0 r1 t0 t1).1 = Nat.gcd r0 r1 ∧
      (euclidLoop n r0 r1 t0 t1).2 * x ≡ (euclidLoop n r0 r1 t0 t1).1 [ZMOD m] := by
  induction n generalizing r0 r1 t0 t1 with
  | zero =>
    have : r1 = 0 := by omega
    subst this; simp [euclidLoop, h0]
  | succ n ih =>
    rw [euclidLoop]
    split
    · rename_i h; subst h; simp [h0]
    · rename_i h
      have hlt := Nat.mod_lt r0 (Nat.pos_of_ne_zero h)
      have key : (t0 - ((r0 / r1 : Nat) : Int) * t1) * x ≡ ((r0 % r1 : Nat) : Int) [ZMOD m] := by
        have e : ((r0 % r1 : Nat) : Int) = (r0 : Int) - ((r0 / r1 : Nat) : Int) * (r1 : Int) := by
          have := Nat.div_add_mod r0 r1
          have h2 : (r0 : Int) = (r1 : Int) * ((r0 / r1 : Nat) : Int) + ((r0 % r1 : Nat) : Int) := by
            exact_mod_cast this.symm
          linarith [mul_comm (r1 : Int) ((r0 / r1 : Nat) : Int)]
        rw [e, sub_mul, mul_assoc]
        exact h0.sub (h1.mul_left _)
      have := ih r1 (r0 % r1) t1 _ (by omega) h1 key
      rw [Nat.gcd_comm r0 r1, Nat.gcd_rec r1 r0, Nat.gcd_comm]
      exact this

/-- ModInv fails exactly when the gcd is not 1, and otherwise answers the inverse in `[0, m)` (rule R129). -/
theorem modInv_spec (x m : Nat) (hm : 0 < m) :
    (Nat.gcd x m ≠ 1 → modInv x m = .error .noinv) ∧
      (Nat.gcd x m = 1 → ∃ v, modInv x m = .ok v ∧ v < m ∧ x * v % m = 1 % m) := by
  have hs := euclidLoop_spec (x : Int) (m : Int) m m (x % m) 0 1 (Nat.mod_lt _ hm).le
    (by simp [Int.ModEq]) (by simp [Int.ModEq])
  have hg : Nat.gcd m (x % m) = Nat.gcd x m := by rw [Nat.gcd_comm m, ← Nat.gcd_rec, Nat.gcd_comm]
  rw [hg] at hs
  constructor
  · intro h
    simp only [modInv, hs.1, if_neg h]
  · intro h
    have hm' : (0 : Int) < (m : Int) := by exact_mod_cast hm
    refine ⟨((euclidLoop m m (x % m) 0 1).2 % (m : Int)).toNat, by simp only [modInv, hs.1, if_pos h], ?_, ?_⟩
    · have h2 := Int.emod_lt_of_pos (euclidLoop m m (x % m) 0 1).2 hm'
      have h3 := Int.emod_nonneg (euclidLoop m m (x % m) 0 1).2 hm'.ne'
      omega
    · have h3 := Int.emod_nonneg (euclidLoop m m (x % m) 0 1).2 hm'.ne'
      have hc : ((x * ((euclidLoop m m (x % m) 0 1).2 % (m : Int)).toNat : Nat) : Int) ≡ 1 [ZMOD m] := by
        push_cast
        rw [Int.toNat_of_nonneg h3, mul_comm]
        refine ((Int.mod_modEq _ _).mul_right _).trans ?_
        have := hs.2
        rw [hs.1, h] at this
        exact_mod_cast this
      have : (x * ((euclidLoop m m (x % m) 0 1).2 % (m : Int)).toNat : Nat) ≡ 1 [MOD m] :=
        (Int.natCast_modEq_iff).1 (by exact_mod_cast hc)
      exact this

theorem noDivisorFrom_iff (n k d : Nat) :
    noDivisorFrom n k d = true ↔ ∀ e, d ≤ e → e < d + k → e * e ≤ n → ¬ e ∣ n := by
  induction k generalizing d with
  | zero => simp [noDivisorFrom]; omega
  | succ k ih =>
    rw [noDivisorFrom]
    split
    · rename_i h
      simp only [true_iff]
      intro e h1 _ h3
      have := Nat.mul_le_mul h1 h1
      omega
    · split
      · rename_i h1 h2
        simp only [Bool.false_eq_true, false_iff, not_forall, not_not]
        exact ⟨d, le_rfl, by omega, by omega, Nat.dvd_of_mod_eq_zero h2⟩
      · rename_i h1 h2
        rw [ih]
        constructor
        · intro h e h3 h4 h5
          rcases Nat.eq_or_lt_of_le h3 with rfl | h6
          · exact fun hd => h2 (Nat.mod_eq_zero_of_dvd hd)
          · exact h e h6 (by omega) h5
        · intro h e h3 h4 h5
          exact h e (by omega) (by omega) h5

/-- `isPrime` is primality (rule R167). -/
theorem isPrime_iff (n : Nat) : isPrime n = true ↔ Nat.Prime n := by
  rw [isPrime, Bool.and_eq_true, decide_eq_true_eq, noDivisorFrom_iff, Nat.prime_def_le_sqrt]
  constructor
  · rintro ⟨h, hd⟩
    refine ⟨h, fun m h2 hm => ?_⟩
    have hs := Nat.le_sqrt.1 hm
    exact hd m h2 (by nlinarith) hs
  · rintro ⟨h, hd⟩
    exact ⟨h, fun e h2 _ h4 => hd e h2 (Nat.le_sqrt.2 h4)⟩

theorem primeFrom_spec (k c q : Nat) (hq : Nat.Prime q) (hc : c ≤ q) (hk : q < c + k) :
    Nat.Prime (primeFrom k c) ∧ c ≤ primeFrom k c ∧ ∀ r, Nat.Prime r → c ≤ r → primeFrom k c ≤ r := by
  induction k generalizing c with
  | zero => omega
  | succ k ih =>
    rw [primeFrom]
    split
    · rename_i h
      exact ⟨(isPrime_iff c).1 h, le_rfl, fun r _ h => h⟩
    · rename_i h
      have hne : ∀ r, Nat.Prime r → c ≤ r → c + 1 ≤ r := by
        intro r hr hcr
        rcases Nat.eq_or_lt_of_le hcr with rfl | hlt
        · exact absurd ((isPrime_iff _).2 hr) h
        · exact hlt
      have := ih (c + 1) (hne q hq hc) (by omega)
      exact ⟨this.1, by omega, fun r hr hcr => this.2.2 r hr (hne r hr hcr)⟩

/-- NextPrime is the smallest prime at or above its argument (rule R167). -/
theorem nextPrime_spec (s : Nat) (hs : 1 ≤ s) :
    Nat.Prime (nextPrime s) ∧ s ≤ nextPrime s ∧ ∀ r, Nat.Prime r → s ≤ r → nextPrime s ≤ r := by
  obtain ⟨q, hq, h1, h2⟩ := Nat.exists_prime_lt_and_le_two_mul s (by omega)
  exact primeFrom_spec (s + 1) s q hq (by omega) (by omega)

end Sys2Proof.Machine
end

