-- ==== Sys2Proof/Laws/Memory.lean ====
section
/-! SUPPORT. The buffer storage: a write keeps the canonical form, changes the bytes it writes, and no others. -/

namespace Sys2Proof.Machine
set_option Elab.async false

@[simp] theorem readBytes_length (m : Memory) (a n : Nat) : (m.readBytes a n).length = n := by
  simp [Memory.readBytes]

theorem mem_cells {a : Nat} {bs : List Byte} {c : Host.Cell} (h : c ∈ Memory.cells a bs) :
    a ≤ c.1 ∧ c.1 < a + bs.length ∧ c.2 ≠ Memory.unlisted := by
  induction bs generalizing a with
  | nil => simp [Memory.cells] at h
  | cons b bs ih =>
    simp only [Memory.cells] at h
    split at h
    · have := ih h; simp only [List.length_cons]; exact ⟨by omega, by omega, this.2.2⟩
    · rcases List.mem_cons.1 h with rfl | h
      · simp; assumption
      · have := ih h; simp only [List.length_cons]; exact ⟨by omega, by omega, this.2.2⟩

theorem cells_sorted (a : Nat) (bs : List Byte) :
    List.Pairwise (fun c d : Host.Cell => c.1 < d.1) (Memory.cells a bs) := by
  induction bs generalizing a with
  | nil => simp [Memory.cells]
  | cons b bs ih =>
    simp only [Memory.cells]
    split
    · exact ih _
    · refine List.Pairwise.cons (fun c hc => ?_) (ih _)
      have := mem_cells hc; simp only; omega

/-- Every write keeps the canonical form. -/
theorem writeBytes_wf {m : Memory} (h : m.wf) (a : Nat) (bs : List Byte) : (m.writeBytes a bs).wf := by
  refine ⟨?_, fun c hc => ?_⟩
  · simp only [Memory.writeBytes, List.pairwise_append, List.mem_append, List.mem_filter, decide_eq_true_eq]
    refine ⟨⟨h.1.filter _, cells_sorted _ _, fun c hc d hd => ?_⟩, h.1.filter _, fun c hc d hd => ?_⟩
    · have := mem_cells hd; omega
    · rcases hc with hc | hc
      · omega
      · have := mem_cells hc; omega
  · simp only [Memory.writeBytes, List.mem_append, List.mem_filter] at hc
    rcases hc with (hc | hc) | hc
    · exact h.2 c hc.1
    · exact (mem_cells hc).2.2
    · exact h.2 c hc.1

/-- Where the entries of a storage after a write come from. -/
theorem mem_writeBytes {m : Memory} {a : Nat} {bs : List Byte} {c : Host.Cell} (h : c ∈ m.writeBytes a bs) :
    c ∈ m ∨ (a ≤ c.1 ∧ c.1 < a + bs.length) := by
  simp only [Memory.writeBytes, List.mem_append, List.mem_filter] at h
  rcases h with (h | h) | h
  · exact .inl h.1
  · have := mem_cells h; omega
  · exact .inl h.1

theorem lookup_append (xs ys : Memory) (a : Nat) :
    (xs ++ ys).lookup a = (xs.lookup a).or (ys.lookup a) := by
  induction xs with
  | nil => simp
  | cons c xs ih =>
    obtain ⟨k, v⟩ := c
    simp only [List.cons_append, List.lookup_cons]
    cases hk : (a == k) <;> simp [ih]

theorem lookup_none_of {xs : Memory} {a : Nat} (h : ∀ c ∈ xs, c.1 ≠ a) : xs.lookup a = none := by
  induction xs with
  | nil => rfl
  | cons c xs ih =>
    obtain ⟨k, v⟩ := c
    have hk : (a == k) = false := by
      have := h (k, v) (by simp)
      simpa using fun e => this e.symm
    simp only [List.lookup_cons, hk]
    exact ih fun c hc => h c (by simp [hc])

theorem lookup_filter (xs : Memory) (p : Nat → Bool) (a : Nat) (ha : p a = true) :
    (xs.filter fun c => p c.1).lookup a = xs.lookup a := by
  induction xs with
  | nil => rfl
  | cons c xs ih =>
    obtain ⟨k, v⟩ := c
    by_cases hk : a = k
    · subst hk; simp [ha]
    · have hk' : (a == k) = false := by simpa using hk
      cases hp : p k <;> simp [hp, List.lookup_cons, hk', ih]

theorem cells_lookup {a : Nat} {bs : List Byte} {i : Nat} (hi : i < bs.length) :
    ((Memory.cells a bs).lookup (a + i)).getD Memory.unlisted = bs[i] := by
  induction bs generalizing a i with
  | nil => simp at hi
  | cons b bs ih =>
    simp only [Memory.cells]
    cases i with
    | zero =>
      split
      · rename_i hb
        rw [Nat.add_zero, lookup_none_of fun c hc => by have := mem_cells hc; omega]
        simp [hb]
      · simp
    | succ i =>
      have hi' : i < bs.length := by simpa using hi
      have hne : (a + (i + 1) == a) = false := by simp
      have := ih (a := a + 1) hi'
      rw [show a + 1 + i = a + (i + 1) by omega] at this
      split
      · simpa using this
      · simpa [List.lookup_cons, hne] using this

/-- A byte inside the written range reads as the byte written. -/
theorem read_writeBytes_inside {m : Memory} {a : Nat} {bs : List Byte} {i : Nat} (hi : i < bs.length) :
    (m.writeBytes a bs).read (a + i) = bs[i] := by
  have h1 : (m.filter fun c => decide (c.1 < a)).lookup (a + i) = none :=
    lookup_none_of fun c hc => by simp only [List.mem_filter, decide_eq_true_eq] at hc; omega
  have h3 : (m.filter fun c => decide (a + bs.length ≤ c.1)).lookup (a + i) = none :=
    lookup_none_of fun c hc => by simp only [List.mem_filter, decide_eq_true_eq] at hc; omega
  simp only [Memory.read, Memory.writeBytes, lookup_append, h1, h3, Option.none_or, Option.or_none]
  exact cells_lookup hi

/-- A byte outside the written range reads as before. -/
theorem read_writeBytes_outside {m : Memory} {a : Nat} {bs : List Byte} {b : Nat}
    (hb : b < a ∨ a + bs.length ≤ b) : (m.writeBytes a bs).read b = m.read b := by
  have h2 : (Memory.cells a bs).lookup b = none :=
    lookup_none_of fun c hc => by have := mem_cells hc; omega
  simp only [Memory.read, Memory.writeBytes, lookup_append, h2, Option.or_none]
  rcases hb with hb | hb
  · rw [lookup_filter m (fun k => decide (k < a)) b (by simpa using hb),
      lookup_none_of (xs := m.filter _) fun c hc => by
        simp only [List.mem_filter, decide_eq_true_eq] at hc; omega]
    simp
  · rw [lookup_filter m (fun k => decide (a + bs.length ≤ k)) b (by simpa using hb),
      lookup_none_of (xs := m.filter _) fun c hc => by
        simp only [List.mem_filter, decide_eq_true_eq] at hc; omega]
    simp

/-- Reading a range of bytes back, all of them written. -/
theorem readBytes_writeBytes (m : Memory) (a : Nat) (bs : List Byte) (n : Nat) (hn : n ≤ bs.length) :
    (m.writeBytes a bs).readBytes a n = bs.take n := by
  apply List.ext_getElem
  · simp [hn]
  · intro i h1 h2
    have hi : i < bs.length := by simp at h1; omega
    simp [Memory.readBytes, read_writeBytes_inside hi]

end Sys2Proof.Machine
end

