-- ==== Sys2Proof/Laws/State.lean ====
section
/-! SUPPORT. One lemma per field per update of the state, each true by rfl. -/

namespace Sys2Proof.Machine
set_option Elab.async false

/-! ### setReg -/

@[simp] theorem setReg_r (s : State) (i : RegIx) (v : Nat) : (s.setReg i v).r = s.r.set i.val (BitVec.ofNat Config.opw v) i.isLt := rfl
@[simp] theorem setReg_pt (s : State) (i : RegIx) (v : Nat) : (s.setReg i v).pt = s.pt := rfl
@[simp] theorem setReg_mem (s : State) (i : RegIx) (v : Nat) : (s.setReg i v).mem = s.mem := rfl
@[simp] theorem setReg_blen (s : State) (i : RegIx) (v : Nat) : (s.setReg i v).blen = s.blen := rfl
@[simp] theorem setReg_ie (s : State) (i : RegIx) (v : Nat) : (s.setReg i v).ie = s.ie := rfl
@[simp] theorem setReg_busy (s : State) (i : RegIx) (v : Nat) : (s.setReg i v).busy = s.busy := rfl
@[simp] theorem setReg_done (s : State) (i : RegIx) (v : Nat) : (s.setReg i v).done = s.done := rfl
@[simp] theorem setReg_fault (s : State) (i : RegIx) (v : Nat) : (s.setReg i v).fault = s.fault := rfl
@[simp] theorem setReg_errcode (s : State) (i : RegIx) (v : Nat) : (s.setReg i v).errcode = s.errcode := rfl
@[simp] theorem setReg_cmd (s : State) (i : RegIx) (v : Nat) : (s.setReg i v).cmd = s.cmd := rfl
@[simp] theorem setReg_kbits (s : State) (i : RegIx) (v : Nat) : (s.setReg i v).kbits = s.kbits := rfl
@[simp] theorem setReg_rng (s : State) (i : RegIx) (v : Nat) : (s.setReg i v).rng = s.rng := rfl
@[simp] theorem setReg_agenda (s : State) (i : RegIx) (v : Nat) : (s.setReg i v).agenda = s.agenda := rfl
@[simp] theorem setReg_reads (s : State) (i : RegIx) (v : Nat) : (s.setReg i v).reads = s.reads := rfl

/-! ### setPoint -/

@[simp] theorem setPoint_r (s : State) (j : PtIx) (p : Point) : (s.setPoint j p).r = s.r := rfl
@[simp] theorem setPoint_pt (s : State) (j : PtIx) (p : Point) : (s.setPoint j p).pt = s.pt.set j.val (PointReg.ofPoint p) j.isLt := rfl
@[simp] theorem setPoint_mem (s : State) (j : PtIx) (p : Point) : (s.setPoint j p).mem = s.mem := rfl
@[simp] theorem setPoint_blen (s : State) (j : PtIx) (p : Point) : (s.setPoint j p).blen = s.blen := rfl
@[simp] theorem setPoint_ie (s : State) (j : PtIx) (p : Point) : (s.setPoint j p).ie = s.ie := rfl
@[simp] theorem setPoint_busy (s : State) (j : PtIx) (p : Point) : (s.setPoint j p).busy = s.busy := rfl
@[simp] theorem setPoint_done (s : State) (j : PtIx) (p : Point) : (s.setPoint j p).done = s.done := rfl
@[simp] theorem setPoint_fault (s : State) (j : PtIx) (p : Point) : (s.setPoint j p).fault = s.fault := rfl
@[simp] theorem setPoint_errcode (s : State) (j : PtIx) (p : Point) : (s.setPoint j p).errcode = s.errcode := rfl
@[simp] theorem setPoint_cmd (s : State) (j : PtIx) (p : Point) : (s.setPoint j p).cmd = s.cmd := rfl
@[simp] theorem setPoint_kbits (s : State) (j : PtIx) (p : Point) : (s.setPoint j p).kbits = s.kbits := rfl
@[simp] theorem setPoint_rng (s : State) (j : PtIx) (p : Point) : (s.setPoint j p).rng = s.rng := rfl
@[simp] theorem setPoint_agenda (s : State) (j : PtIx) (p : Point) : (s.setPoint j p).agenda = s.agenda := rfl
@[simp] theorem setPoint_reads (s : State) (j : PtIx) (p : Point) : (s.setPoint j p).reads = s.reads := rfl

/-! ### setBuf -/

@[simp] theorem setBuf_r (s : State) (k : BufIx) (bs : List Byte) : (s.setBuf k bs).r = s.r := rfl
@[simp] theorem setBuf_pt (s : State) (k : BufIx) (bs : List Byte) : (s.setBuf k bs).pt = s.pt := rfl
@[simp] theorem setBuf_mem (s : State) (k : BufIx) (bs : List Byte) : (s.setBuf k bs).mem = s.mem.writeBytes (bufBase k) (zeroFilled bs) := rfl
@[simp] theorem setBuf_blen (s : State) (k : BufIx) (bs : List Byte) : (s.setBuf k bs).blen = s.blen.set k.val (BitVec.ofNat 16 bs.length) k.isLt := rfl
@[simp] theorem setBuf_ie (s : State) (k : BufIx) (bs : List Byte) : (s.setBuf k bs).ie = s.ie := rfl
@[simp] theorem setBuf_busy (s : State) (k : BufIx) (bs : List Byte) : (s.setBuf k bs).busy = s.busy := rfl
@[simp] theorem setBuf_done (s : State) (k : BufIx) (bs : List Byte) : (s.setBuf k bs).done = s.done := rfl
@[simp] theorem setBuf_fault (s : State) (k : BufIx) (bs : List Byte) : (s.setBuf k bs).fault = s.fault := rfl
@[simp] theorem setBuf_errcode (s : State) (k : BufIx) (bs : List Byte) : (s.setBuf k bs).errcode = s.errcode := rfl
@[simp] theorem setBuf_cmd (s : State) (k : BufIx) (bs : List Byte) : (s.setBuf k bs).cmd = s.cmd := rfl
@[simp] theorem setBuf_kbits (s : State) (k : BufIx) (bs : List Byte) : (s.setBuf k bs).kbits = s.kbits := rfl
@[simp] theorem setBuf_rng (s : State) (k : BufIx) (bs : List Byte) : (s.setBuf k bs).rng = s.rng := rfl
@[simp] theorem setBuf_agenda (s : State) (k : BufIx) (bs : List Byte) : (s.setBuf k bs).agenda = s.agenda := rfl
@[simp] theorem setBuf_reads (s : State) (k : BufIx) (bs : List Byte) : (s.setBuf k bs).reads = s.reads := rfl

/-! ### accept -/

@[simp] theorem accept_r (s : State) (w : Word) : (s.accept w).r = s.r := rfl
@[simp] theorem accept_pt (s : State) (w : Word) : (s.accept w).pt = s.pt := rfl
@[simp] theorem accept_mem (s : State) (w : Word) : (s.accept w).mem = s.mem := rfl
@[simp] theorem accept_blen (s : State) (w : Word) : (s.accept w).blen = s.blen := rfl
@[simp] theorem accept_ie (s : State) (w : Word) : (s.accept w).ie = s.ie := rfl
@[simp] theorem accept_busy (s : State) (w : Word) : (s.accept w).busy = true := rfl
@[simp] theorem accept_done (s : State) (w : Word) : (s.accept w).done = false := rfl
@[simp] theorem accept_fault (s : State) (w : Word) : (s.accept w).fault = s.fault := rfl
@[simp] theorem accept_errcode (s : State) (w : Word) : (s.accept w).errcode = s.errcode := rfl
@[simp] theorem accept_cmd (s : State) (w : Word) : (s.accept w).cmd = w := rfl
@[simp] theorem accept_kbits (s : State) (w : Word) : (s.accept w).kbits = s.kbits := rfl
@[simp] theorem accept_rng (s : State) (w : Word) : (s.accept w).rng = s.rng := rfl
@[simp] theorem accept_agenda (s : State) (w : Word) : (s.accept w).agenda = s.agenda := rfl
@[simp] theorem accept_reads (s : State) (w : Word) : (s.accept w).reads = s.reads := rfl

/-! ### complete -/

@[simp] theorem complete_r (s : State) : (s.complete).r = s.r := rfl
@[simp] theorem complete_pt (s : State) : (s.complete).pt = s.pt := rfl
@[simp] theorem complete_mem (s : State) : (s.complete).mem = s.mem := rfl
@[simp] theorem complete_blen (s : State) : (s.complete).blen = s.blen := rfl
@[simp] theorem complete_ie (s : State) : (s.complete).ie = s.ie := rfl
@[simp] theorem complete_busy (s : State) : (s.complete).busy = false := rfl
@[simp] theorem complete_done (s : State) : (s.complete).done = true := rfl
@[simp] theorem complete_fault (s : State) : (s.complete).fault = s.fault := rfl
@[simp] theorem complete_errcode (s : State) : (s.complete).errcode = s.errcode := rfl
@[simp] theorem complete_cmd (s : State) : (s.complete).cmd = s.cmd := rfl
@[simp] theorem complete_kbits (s : State) : (s.complete).kbits = s.kbits := rfl
@[simp] theorem complete_rng (s : State) : (s.complete).rng = s.rng := rfl
@[simp] theorem complete_agenda (s : State) : (s.complete).agenda = s.agenda := rfl
@[simp] theorem complete_reads (s : State) : (s.complete).reads = s.reads := rfl

/-! ### raise -/

@[simp] theorem raise_r (s : State) (e : ErrCode) (g : Rng) : (s.raise e g).r = s.r := rfl
@[simp] theorem raise_pt (s : State) (e : ErrCode) (g : Rng) : (s.raise e g).pt = s.pt := rfl
@[simp] theorem raise_mem (s : State) (e : ErrCode) (g : Rng) : (s.raise e g).mem = s.mem := rfl
@[simp] theorem raise_blen (s : State) (e : ErrCode) (g : Rng) : (s.raise e g).blen = s.blen := rfl
@[simp] theorem raise_ie (s : State) (e : ErrCode) (g : Rng) : (s.raise e g).ie = s.ie := rfl
@[simp] theorem raise_busy (s : State) (e : ErrCode) (g : Rng) : (s.raise e g).busy = false := rfl
@[simp] theorem raise_done (s : State) (e : ErrCode) (g : Rng) : (s.raise e g).done = true := rfl
@[simp] theorem raise_fault (s : State) (e : ErrCode) (g : Rng) : (s.raise e g).fault = true := rfl
@[simp] theorem raise_errcode (s : State) (e : ErrCode) (g : Rng) : (s.raise e g).errcode = e.code := rfl
@[simp] theorem raise_cmd (s : State) (e : ErrCode) (g : Rng) : (s.raise e g).cmd = s.cmd := rfl
@[simp] theorem raise_kbits (s : State) (e : ErrCode) (g : Rng) : (s.raise e g).kbits = s.kbits := rfl
@[simp] theorem raise_rng (s : State) (e : ErrCode) (g : Rng) : (s.raise e g).rng = g := rfl
@[simp] theorem raise_agenda (s : State) (e : ErrCode) (g : Rng) : (s.raise e g).agenda = s.agenda := rfl
@[simp] theorem raise_reads (s : State) (e : ErrCode) (g : Rng) : (s.raise e g).reads = s.reads := rfl

/-! ### clearFault -/

@[simp] theorem clearFault_r (s : State) : (s.clearFault).r = s.r := rfl
@[simp] theorem clearFault_pt (s : State) : (s.clearFault).pt = s.pt := rfl
@[simp] theorem clearFault_mem (s : State) : (s.clearFault).mem = s.mem := rfl
@[simp] theorem clearFault_blen (s : State) : (s.clearFault).blen = s.blen := rfl
@[simp] theorem clearFault_ie (s : State) : (s.clearFault).ie = s.ie := rfl
@[simp] theorem clearFault_busy (s : State) : (s.clearFault).busy = s.busy := rfl
@[simp] theorem clearFault_done (s : State) : (s.clearFault).done = s.done := rfl
@[simp] theorem clearFault_fault (s : State) : (s.clearFault).fault = false := rfl
@[simp] theorem clearFault_errcode (s : State) : (s.clearFault).errcode = 0 := rfl
@[simp] theorem clearFault_cmd (s : State) : (s.clearFault).cmd = s.cmd := rfl
@[simp] theorem clearFault_kbits (s : State) : (s.clearFault).kbits = s.kbits := rfl
@[simp] theorem clearFault_rng (s : State) : (s.clearFault).rng = s.rng := rfl
@[simp] theorem clearFault_agenda (s : State) : (s.clearFault).agenda = s.agenda := rfl
@[simp] theorem clearFault_reads (s : State) : (s.clearFault).reads = s.reads := rfl

/-! ### softReset -/

@[simp] theorem softReset_r (s : State) : (s.softReset).r = State.reset.r := rfl
@[simp] theorem softReset_pt (s : State) : (s.softReset).pt = State.reset.pt := rfl
@[simp] theorem softReset_mem (s : State) : (s.softReset).mem = State.reset.mem := rfl
@[simp] theorem softReset_blen (s : State) : (s.softReset).blen = State.reset.blen := rfl
@[simp] theorem softReset_ie (s : State) : (s.softReset).ie = State.reset.ie := rfl
@[simp] theorem softReset_busy (s : State) : (s.softReset).busy = State.reset.busy := rfl
@[simp] theorem softReset_done (s : State) : (s.softReset).done = State.reset.done := rfl
@[simp] theorem softReset_fault (s : State) : (s.softReset).fault = State.reset.fault := rfl
@[simp] theorem softReset_errcode (s : State) : (s.softReset).errcode = State.reset.errcode := rfl
@[simp] theorem softReset_cmd (s : State) : (s.softReset).cmd = State.reset.cmd := rfl
@[simp] theorem softReset_kbits (s : State) : (s.softReset).kbits = State.reset.kbits := rfl
@[simp] theorem softReset_rng (s : State) : (s.softReset).rng = s.rngAtReset := rfl
@[simp] theorem softReset_agenda (s : State) : (s.softReset).agenda = s.agenda := rfl
@[simp] theorem softReset_reads (s : State) : (s.softReset).reads = s.reads := rfl

/-! ### presentWord -/

@[simp] theorem presentWord_r (s : State) (w : Word) : (s.presentWord w).r = s.r := rfl
@[simp] theorem presentWord_pt (s : State) (w : Word) : (s.presentWord w).pt = s.pt := rfl
@[simp] theorem presentWord_mem (s : State) (w : Word) : (s.presentWord w).mem = s.mem := rfl
@[simp] theorem presentWord_blen (s : State) (w : Word) : (s.presentWord w).blen = s.blen := rfl
@[simp] theorem presentWord_ie (s : State) (w : Word) : (s.presentWord w).ie = s.ie := rfl
@[simp] theorem presentWord_busy (s : State) (w : Word) : (s.presentWord w).busy = true := rfl
@[simp] theorem presentWord_done (s : State) (w : Word) : (s.presentWord w).done = false := rfl
@[simp] theorem presentWord_fault (s : State) (w : Word) : (s.presentWord w).fault = false := rfl
@[simp] theorem presentWord_errcode (s : State) (w : Word) : (s.presentWord w).errcode = 0 := rfl
@[simp] theorem presentWord_cmd (s : State) (w : Word) : (s.presentWord w).cmd = w := rfl
@[simp] theorem presentWord_kbits (s : State) (w : Word) : (s.presentWord w).kbits = s.kbits := rfl
@[simp] theorem presentWord_rng (s : State) (w : Word) : (s.presentWord w).rng = s.rng := rfl
@[simp] theorem presentWord_agenda (s : State) (w : Word) : (s.presentWord w).agenda = .core :: s.agenda := rfl
@[simp] theorem presentWord_reads (s : State) (w : Word) : (s.presentWord w).reads = s.reads := rfl

/-! ### the state after reset (rule R45) -/

@[simp] theorem reset_r : State.reset.r = Vector.replicate 8 0 := rfl
@[simp] theorem reset_pt : State.reset.pt = Vector.replicate 4 PointReg.infinity := rfl
@[simp] theorem reset_mem : State.reset.mem = [] := rfl
@[simp] theorem reset_blen : State.reset.blen = Vector.replicate 4 0 := rfl
@[simp] theorem reset_ie : State.reset.ie = false := rfl
@[simp] theorem reset_busy : State.reset.busy = false := rfl
@[simp] theorem reset_done : State.reset.done = false := rfl
@[simp] theorem reset_fault : State.reset.fault = false := rfl
@[simp] theorem reset_errcode : State.reset.errcode = 0 := rfl
@[simp] theorem reset_cmd : State.reset.cmd = 0 := rfl
@[simp] theorem reset_kbits : State.reset.kbits = 0 := rfl
@[simp] theorem reset_rng : State.reset.rng = ⟨[], 0, 0, 0⟩ := rfl
@[simp] theorem reset_agenda : State.reset.agenda = [] := rfl
@[simp] theorem reset_reads : State.reset.reads = [] := rfl

end Sys2Proof.Machine
end

