-- ==== Sys2Proof/Laws/Registers.lean ====
section
/-! SUPPORT. Registers, point registers and buffers: what reads back after a write, and what a write leaves alone. -/

namespace Sys2Proof.Machine
set_option Elab.async false

theorem bufCap_eq : Config.bufCap = 256 := rfl

theorem opw_eq : Config.opw = 2048 := rfl

theorem get_set {α : Type} {n : Nat} (v : Vector α n) (i j : Fin n) (x : α) :
    (v.set i.val x i.isLt).get j = if i = j then x else v.get j := by
  simp only [Vector.get_eq_getElem, Vector.getElem_set, Fin.ext_iff]

theorem reg_lt (s : State) (i : RegIx) : s.reg i < 2 ^ Config.opw := (s.r.get i).isLt

/-- A value that fits reads back (rule R24). -/
theorem reg_setReg_same {s : State} {i : RegIx} {v : Nat} (hv : v < 2 ^ Config.opw) : (s.setReg i v).reg i = v := by
  simp only [State.reg, setReg_r, get_set, if_true, BitVec.toNat_ofNat]
  exact Nat.mod_eq_of_lt hv

theorem get_setReg_ne {s : State} {i j : RegIx} {v : Nat} (h : j ≠ i) : (s.setReg i v).r.get j = s.r.get j := by
  simp only [setReg_r, get_set, if_neg (Ne.symm h)]

@[simp] theorem get_setPoint_same (s : State) (j : PtIx) (p : Point) :
    (s.setPoint j p).pt.get j = PointReg.ofPoint p := by
  simp only [setPoint_pt, get_set, if_true]

theorem get_setPoint_ne {s : State} {i j : PtIx} {p : Point} (h : j ≠ i) : (s.setPoint i p).pt.get j = s.pt.get j := by
  simp only [setPoint_pt, get_set, if_neg (Ne.symm h)]

/-- A point in range reads back (rule R27). -/
theorem point_setPoint_same {s : State} {c : Curve} {j : PtIx} {p : Point} (hp : p.inRange c) (hc : c.p ≤ 2 ^ 256) :
    (s.setPoint j p).point c j = .ok p := by
  cases p with
  | inf => simp only [State.point, get_setPoint_same, PointReg.ofPoint, PointReg.infinity, if_true]
  | affine x y =>
    have hx : x % 2 ^ 256 = x := Nat.mod_eq_of_lt (by have := hp.1; omega)
    have hy : y % 2 ^ 256 = y := Nat.mod_eq_of_lt (by have := hp.2; omega)
    have h : ¬ (c.p ≤ x ∨ c.p ≤ y) := by have := hp.1; have := hp.2; omega
    simp only [State.point, get_setPoint_same, PointReg.ofPoint, BitVec.toNat_ofNat, hx, hy, if_neg h]
    rfl

/-- What a point operand can be (rule R27): E_PARAM, or a point in range. -/
theorem point_cases (s : State) (c : Curve) (j : PtIx) :
    s.point c j = .error .param ∨ ∃ p, s.point c j = .ok p ∧ p.inRange c := by
  unfold State.point
  dsimp only
  split
  · exact .inr ⟨_, rfl, trivial⟩
  · split
    · exact .inl rfl
    · rename_i h
      exact .inr ⟨_, rfl, by constructor <;> omega⟩

@[simp] theorem zeroFilled_length (bs : List Byte) : (zeroFilled bs).length = max bs.length Config.bufCap := by
  simp [zeroFilled]; omega

theorem bufLen_setBuf_same {s : State} {k : BufIx} {bs : List Byte} (h : bs.length ≤ Config.bufCap) :
    (s.setBuf k bs).bufLen k = bs.length := by
  rw [bufCap_eq] at h
  simp only [State.bufLen, setBuf_blen, get_set, if_true, BitVec.toNat_ofNat]
  omega

/-- A sequence within the capacity reads back (rule R31). -/
theorem bufBytes_setBuf_same {s : State} {k : BufIx} {bs : List Byte} (h : bs.length ≤ Config.bufCap) :
    (s.setBuf k bs).bufBytes k = bs := by
  rw [State.bufBytes, bufLen_setBuf_same h, setBuf_mem, readBytes_writeBytes _ _ _ _ (by simp)]
  simp [zeroFilled]

/-- The storage beyond the sequence is zero after a command's write (rule R31). -/
theorem read_setBuf_rest {s : State} {k : BufIx} {bs : List Byte} {n : Nat} (h1 : bs.length ≤ n)
    (h2 : n < Config.bufCap) : (s.setBuf k bs).mem.read (bufBase k + n) = 0x00 := by
  have hn : n < (zeroFilled bs).length := by simp; omega
  rw [setBuf_mem, read_writeBytes_inside hn]
  simp [zeroFilled, List.getElem_append_right h1]

/-- A byte outside the buffer's storage is unchanged by a command's write. -/
theorem read_setBuf_outside {s : State} {k : BufIx} {bs : List Byte} {a : Nat} (hb : bs.length ≤ Config.bufCap)
    (ha : a < bufBase k ∨ bufBase k + Config.bufCap ≤ a) : (s.setBuf k bs).mem.read a = s.mem.read a := by
  rw [setBuf_mem, read_writeBytes_outside]
  simp only [zeroFilled_length]; omega

theorem blen_setBuf_ne {s : State} {k j : BufIx} {bs : List Byte} (h : j ≠ k) :
    (s.setBuf k bs).blen.get j = s.blen.get j := by
  simp only [setBuf_blen, get_set, if_neg (Ne.symm h)]

/-- The storages of two buffers do not overlap (rule R62). -/
theorem bufBase_disjoint {k j : BufIx} {a : Nat} (hk : bufBase k ≤ a ∧ a < bufBase k + Config.bufCap)
    (hj : bufBase j ≤ a ∧ a < bufBase j + Config.bufCap) : k = j := by
  simp only [bufBase, bufCap_eq] at hk hj
  ext; omega

/-- What a buffer operand can be (rule R31): E_PARAM, or a sequence of `BLEN` bytes within the capacity. -/
theorem buf_cases (s : State) (k : BufIx) :
    (Config.bufCap < s.bufLen k ∧ s.buf k = .error .param) ∨
      (s.bufLen k ≤ Config.bufCap ∧ s.buf k = .ok (s.bufBytes k) ∧ (s.bufBytes k).length = s.bufLen k) := by
  unfold State.buf
  split
  · exact .inl ⟨by assumption, rfl⟩
  · exact .inr ⟨by omega, rfl, by simp [State.bufBytes]⟩

end Sys2Proof.Machine
end

