-- ==== Sys2Proof/Laws/Commands.lean ====
section
/-! SUPPORT. The ends of a command, said once each: every command answers a next state, and it is the completion of its
destination writes or the fault completion; a draw of RandBelow is below its bound. -/

namespace Sys2Proof.Machine
set_option Elab.async false

@[simp] theorem finish_ok (s t : State) : s.finish (.ok t) = t.complete := rfl

@[simp] theorem finish_error (s : State) (e : ErrCode) (g : Rng) : s.finish (.error (e, g)) = s.raise e g := rfl

/-- The two ends of a command (rules R239, R240). -/
theorem finish_cases (s : State) (x : Effect) :
    (∃ t, x = .ok t ∧ s.finish x = t.complete) ∨ ∃ e g, x = .error (e, g) ∧ s.finish x = s.raise e g := by
  rcases x with ⟨e, g⟩ | t
  · exact .inr ⟨e, g, rfl, rfl⟩
  · exact .inl ⟨t, rfl, rfl⟩

@[simp] theorem putReg_ok (s : State) (rd : RegIx) (v : Nat) : s.putReg rd (.ok v) = .ok (s.setReg rd v) := rfl
@[simp] theorem putReg_error (s : State) (rd : RegIx) (e : ErrCode) : s.putReg rd (.error e) = .error (e, s.rng) := rfl
@[simp] theorem putPoint_ok (s : State) (pd : PtIx) (p : Point) : s.putPoint pd (.ok p) = .ok (s.setPoint pd p) := rfl
@[simp] theorem putPoint_error (s : State) (pd : PtIx) (e : ErrCode) : s.putPoint pd (.error e) = .error (e, s.rng) := rfl
@[simp] theorem putBuf_ok (s : State) (bd : BufIx) (bs : List Byte) : s.putBuf bd (.ok bs) = .ok (s.setBuf bd bs) := rfl
@[simp] theorem putBuf_error (s : State) (bd : BufIx) (e : ErrCode) : s.putBuf bd (.error e) = .error (e, s.rng) := rfl
@[simp] theorem putBufDrawn_ok (s : State) (bd : BufIx) (bs : List Byte) (g : Rng) :
    s.putBufDrawn bd (.ok (bs, g)) = .ok ({ s with rng := g }.setBuf bd bs) := rfl
@[simp] theorem putBufDrawn_error (s : State) (bd : BufIx) (e : ErrCode) (g : Rng) :
    s.putBufDrawn bd (.error (e, g)) = .error (e, g) := rfl

/-- A fault completion changes no destination (rule R240). -/
theorem raise_faulted (s : State) (e : ErrCode) (g : Rng) : faulted e s (s.raise e g) :=
  ⟨⟨fun _ _ => rfl, fun _ _ => rfl, fun _ _ => rfl, fun _ _ => rfl, rfl, rfl, rfl, rfl, rfl⟩, rfl, rfl, rfl, rfl⟩

theorem setReg_onlyChanges (s : State) (rd : RegIx) (v : Nat) : onlyChanges [rd] [] [] s (s.setReg rd v).complete := by
  refine ⟨fun i hi => ?_, fun _ _ => rfl, fun _ _ => rfl, fun _ _ => rfl, rfl, rfl, rfl, rfl, rfl⟩
  exact get_setReg_ne (by simpa using hi)

theorem setPoint_onlyChanges (s : State) (pd : PtIx) (p : Point) :
    onlyChanges [] [pd] [] s (s.setPoint pd p).complete := by
  refine ⟨fun _ _ => rfl, fun i hi => ?_, fun _ _ => rfl, fun _ _ => rfl, rfl, rfl, rfl, rfl, rfl⟩
  exact get_setPoint_ne (by simpa using hi)

/-- A buffer write within the capacity changes that buffer's bytes and length, and no others (rule R31). -/
theorem setBuf_onlyChanges (s : State) (bd : BufIx) (bs : List Byte) (h : bs.length ≤ Config.bufCap) :
    onlyChanges [] [] [bd] s (s.setBuf bd bs).complete := by
  refine ⟨fun _ _ => rfl, fun _ _ => rfl, fun k hk => ?_, fun a ha => ?_, rfl, rfl, rfl, rfl, rfl⟩
  · exact blen_setBuf_ne (by simpa using hk)
  · refine read_setBuf_outside h ?_
    have := ha bd (by simp)
    simp only [inStorage] at this
    omega

/-- After a buffer write within the capacity the buffer holds the sequence (rule R31). -/
theorem setBuf_holdsBytes (s : State) (bd : BufIx) (bs : List Byte) (h : bs.length ≤ Config.bufCap) :
    holdsBytes (s.setBuf bd bs) bd bs :=
  ⟨bufBytes_setBuf_same h, bufLen_setBuf_same h, fun _ h1 h2 => read_setBuf_rest h1 h2⟩

/-- Every command answers a next state: PCC's faults are fault completions, never a stop of the model. -/
theorem exec_next (i : Instr) (s : State) : ∃ t, exec i s = .next t := by
  cases i <;> exact ⟨_, rfl⟩

@[simp] theorem rngBytes_length (g : Rng) (n : Nat) : (g.bytes n).length = n := by simp [Rng.bytes]

/-- The one law of RandBelow (rule R133). -/
theorem randBelow_lt {m : Nat} (g : Rng) (hm : 0 < m) : randBelow m g < m := Nat.mod_lt _ hm

/-- The source only moves forward (rule R41). -/
theorem skip_pos (g : Rng) (n : Nat) : (g.skip n).pos = g.pos + n := rfl

/-- Two draws in a row take the bytes of one longer draw. -/
theorem skip_skip (g : Rng) (m n : Nat) : (g.skip m).skip n = g.skip (m + n) := by
  simp [Rng.skip, Nat.add_assoc]

/-! ### The command in flight and the source after a reset -/

/-- The word in `CMD` always runs to a next state, legal or not (rules R96, R239, R240). -/
theorem runCommand_next (s : State) : ∃ t, runCommand s = .next t := by
  unfold runCommand
  split
  · exact exec_next _ s
  · exact ⟨_, rfl⟩

/-- A legal word in flight: the source at its completion is the one `exec` leaves. -/
theorem rngAtCompletion_of_exec {s t : State} {i : Instr} (hd : decode s.cmd = .ok i) (he : exec i s = .next t) :
    s.rngAtCompletion = t.rng := by
  simp [State.rngAtCompletion, runCommand, hd, he]

/-- An illegal word in flight draws nothing. -/
theorem rngAtCompletion_of_illegal {s : State} {e : Illegal} (hd : decode s.cmd = .error e) :
    s.rngAtCompletion = s.rng := by
  simp [State.rngAtCompletion, runCommand, hd]

/-- An idle PCC's reset leaves the source where it is (rule R45). -/
theorem rngAtReset_idle {s : State} (h : s.busy = false) : s.rngAtReset = s.rng := by
  simp [State.rngAtReset, h]

/-- No reset changes the answers given to the source. -/
@[simp] theorem rngAtReset_given (s : State) : s.rngAtReset.given = s.rng.given := by
  unfold State.rngAtReset
  split <;> rfl

/-- Drawn bytes stay consumed (rule R270): a reset never moves the source back, nor past the place where the abandoned command
would have left it. -/
theorem rngAtReset_pos (s : State) (h : s.rng.pos ≤ s.rngAtCompletion.pos) :
    s.rng.pos ≤ s.rngAtReset.pos ∧ s.rngAtReset.pos ≤ s.rngAtCompletion.pos := by
  unfold State.rngAtReset
  split
  · have := Nat.mod_lt (Config.drawnAtReset s.rng.aborts) (Nat.succ_pos (s.rngAtCompletion.pos - s.rng.pos))
    simp only [Nat.succ_eq_add_one] at this
    dsimp only
    omega
  · exact ⟨le_refl _, h⟩

end Sys2Proof.Machine
end

