-- ==== Sys2Proof/Laws/CurveField.lean ====
section
/-! SUPPORT. The field operations of rule R193 as operations of `ZMod p`, when the division fails, and PointAdd case by case (rule R194). -/

namespace Sys2Proof.Machine
set_option Elab.async false

variable {c : Curve}

@[simp] theorem fadd_cast (u v : Nat) : ((fadd c u v : Nat) : ZMod c.p) = u + v := by
  simp [fadd]

@[simp] theorem fmul_cast (u v : Nat) : ((fmul c u v : Nat) : ZMod c.p) = u * v := by
  simp [fmul]

theorem toNat_emod_cast (z : Int) (hp : 0 < c.p) : (((z % (c.p : Int)).toNat : Nat) : ZMod c.p) = (z : ZMod c.p) := by
  have h := Int.emod_nonneg z (b := (c.p : Int)) (by omega)
  have : (((z % (c.p : Int)).toNat : Int) : ZMod c.p) = (z : ZMod c.p) := by
    rw [Int.toNat_of_nonneg h, ZMod.intCast_mod]
  exact_mod_cast this

theorem fsub_cast (u v : Nat) (hp : 0 < c.p) : ((fsub c u v : Nat) : ZMod c.p) = u - v := by
  rw [fsub, toNat_emod_cast _ hp]; push_cast; rfl

theorem fneg_cast (u : Nat) (hp : 0 < c.p) : ((fneg c u : Nat) : ZMod c.p) = -u := by
  rw [fneg, toNat_emod_cast _ hp]; push_cast; rfl

theorem fadd_lt (u v : Nat) (hp : 0 < c.p) : fadd c u v < c.p := Nat.mod_lt _ hp
theorem fmul_lt (u v : Nat) (hp : 0 < c.p) : fmul c u v < c.p := Nat.mod_lt _ hp

theorem fsub_lt (u v : Nat) (hp : 0 < c.p) : fsub c u v < c.p := by
  have := Int.emod_lt_of_pos ((u : Int) - v) (b := (c.p : Int)) (by omega)
  unfold fsub; omega

theorem fneg_lt (u : Nat) (hp : 0 < c.p) : fneg c u < c.p := by
  have := Int.emod_lt_of_pos (-(u : Int)) (b := (c.p : Int)) (by omega)
  unfold fneg; omega

/-- Equality of residues is equality in the field. -/
theorem eq_of_cast_eq {u v : Nat} (hu : u < c.p) (hv : v < c.p) (h : (u : ZMod c.p) = v) : u = v := by
  have := (ZMod.natCast_eq_natCast_iff u v c.p).1 h
  rwa [Nat.ModEq, Nat.mod_eq_of_lt hu, Nat.mod_eq_of_lt hv] at this

/-- The division of rule R193 for a prime modulus: E_NOINV on a zero divisor, else the quotient. -/
theorem fdiv_spec (hp : Nat.Prime c.p) (u v : Nat) :
    (v % c.p = 0 → fdiv c u v = .error .noinv) ∧
      (v % c.p ≠ 0 → ∃ w, fdiv c u v = .ok w ∧ w < c.p ∧ (w : ZMod c.p) * v = u) := by
  have hpos := hp.pos
  have hspec := modInv_spec v c.p hpos
  constructor
  · intro h
    have hg : Nat.gcd v c.p ≠ 1 := by
      have hd := Nat.dvd_of_mod_eq_zero h
      rw [Nat.gcd_eq_right hd]; exact hp.one_lt.ne'
    simp [fdiv, hspec.1 hg]
  · intro h
    have hg : Nat.gcd v c.p = 1 := by
      rw [Nat.gcd_comm]
      exact (Nat.Prime.coprime_iff_not_dvd hp).2 fun hd => h (Nat.mod_eq_zero_of_dvd hd)
    obtain ⟨w, hw, _, hinv⟩ := hspec.2 hg
    refine ⟨fmul c u w, by simp [fdiv, hw], fmul_lt _ _ hpos, ?_⟩
    have h1 : (v : ZMod c.p) * w = 1 := by
      have : v * w ≡ 1 [MOD c.p] := hinv
      have := (ZMod.natCast_eq_natCast_iff _ _ _).2 this
      simpa using this
    rw [fmul_cast, mul_assoc, mul_comm (w : ZMod c.p), h1, mul_one]

/-! ### PointAdd, case by case (rule R194) -/

/-- Additive inverses give `O`. -/
theorem pointAdd_opposite (px py : Nat) : pointAdd c (.affine px py) (.affine px (fneg c py)) = .ok .inf := by
  simp [pointAdd]

/-- Same x, neither equal nor opposite y: the chord divisor is 0 (rule R195). -/
theorem pointAdd_noinv (hp : Nat.Prime c.p) (px py qy : Nat) (h1 : qy ≠ fneg c py) (h2 : qy ≠ py) :
    pointAdd c (.affine px py) (.affine px qy) = .error .noinv := by
  have h : fdiv c (fsub c qy py) (fsub c px px) = .error .noinv := by
    apply (fdiv_spec hp _ _).1; simp [fsub]
  simp [pointAdd, h1, Ne.symm h2, h]

/-- Different x: the chord. -/
theorem pointAdd_chord (hp : Nat.Prime c.p) {px py qx qy : Nat} (hpx : px < c.p) (hqx : qx < c.p) (h : qx ≠ px) :
    ∃ lam : Nat, pointAdd c (.affine px py) (.affine qx qy) = .ok (linePoint c lam px py qx) ∧
      (lam : ZMod c.p) * (qx - px) = qy - py := by
  have hne : fsub c qx px % c.p ≠ 0 := by
    intro h0
    have h1 := (ZMod.natCast_eq_zero_iff _ _).2 (Nat.dvd_of_mod_eq_zero h0)
    rw [fsub_cast _ _ hp.pos, sub_eq_zero] at h1
    exact h (eq_of_cast_eq hqx hpx h1)
  obtain ⟨w, hw, _, hl⟩ := (fdiv_spec hp (fsub c qy py) (fsub c qx px)).2 hne
  rw [fsub_cast _ _ hp.pos, fsub_cast _ _ hp.pos] at hl
  exact ⟨w, by simp [pointAdd, h, Ne.symm h, hw], hl⟩

/-- Equal points with y not 0: the tangent. -/
theorem pointAdd_tangent (hp : Nat.Prime c.p) (h3 : 3 < c.p) {px py : Nat} (hpy : py < c.p) (h : py ≠ 0) :
    ∃ lam : Nat, pointAdd c (.affine px py) (.affine px py) = .ok (linePoint c lam px py px) ∧
      (lam : ZMod c.p) * (2 * py) = 3 * (px * px) + c.a := by
  have := Fact.mk hp
  have h2 : (2 : ZMod c.p) ≠ 0 := by
    intro h0
    have := (ZMod.natCast_eq_zero_iff 2 c.p).1 (by exact_mod_cast h0)
    exact absurd (Nat.le_of_dvd (by norm_num) this) (by omega)
  have hy : (py : ZMod c.p) ≠ 0 := by
    intro h0
    exact h (eq_of_cast_eq hpy hp.pos (by simpa using h0))
  have hneg : py ≠ fneg c py := by
    intro h0
    have h1 := congrArg (Nat.cast : Nat → ZMod c.p) h0
    rw [fneg_cast _ hp.pos, eq_neg_iff_add_eq_zero, ← two_mul] at h1
    exact (mul_ne_zero h2 hy) h1
  have hne : fmul c 2 py % c.p ≠ 0 := by
    intro h0
    have h1 := (ZMod.natCast_eq_zero_iff _ _).2 (Nat.dvd_of_mod_eq_zero h0)
    rw [fmul_cast] at h1
    exact mul_ne_zero h2 hy (by exact_mod_cast h1)
  obtain ⟨w, hw, _, hl⟩ := (fdiv_spec hp (fadd c (fmul c 3 (fmul c px px)) c.a) (fmul c 2 py)).2 hne
  refine ⟨w, by simp [pointAdd, hneg, hw], ?_⟩
  simpa using hl

/-- The coordinates of the third point, in the field. -/
theorem linePoint_eq (hp : Nat.Prime c.p) (lam px py qx : Nat) :
    ∃ rx ry : Nat, linePoint c lam px py qx = .affine rx ry ∧ rx < c.p ∧ ry < c.p ∧
      (rx : ZMod c.p) = lam * lam - px - qx ∧ (ry : ZMod c.p) = lam * (px - rx) - py :=
  ⟨_, _, rfl, fsub_lt _ _ hp.pos, fsub_lt _ _ hp.pos, by simp [fsub_cast _ _ hp.pos], by simp [fsub_cast _ _ hp.pos]⟩

end Sys2Proof.Machine
end

