-- ==== Sys2Proof/Laws/CurvePrime.lean ====
section
/-! SUPPORT. The field prime of rule R191 is prime (Lucas certificates, each checked by the kernel through ModPow), and G is
on the curve. Rule R191 says that both were checked while the spec was written; here they are proved. -/

namespace Sys2Proof.Machine
set_option Elab.async false

/-- A Lucas certificate: `fs` are the prime factors of `n - 1`, and `a` has order `n - 1`. -/
theorem prime_of_certificate (n a : Nat) (fs : List Nat) (hn : 1 < n) (hfs : ∀ f ∈ fs, Nat.Prime f)
    (hprod : fs.prod = n - 1) (h1 : modPow a (n - 1) n = 1) (h2 : ∀ f ∈ fs, modPow a ((n - 1) / f) n ≠ 1) :
    Nat.Prime n := by
  have key : ∀ k : Nat, ((a : ZMod n) ^ k = 1 ↔ modPow a k n = 1) := by
    intro k
    rw [modPow_eq, ← Nat.cast_pow, ← Nat.cast_one, ZMod.natCast_eq_natCast_iff, Nat.ModEq, Nat.mod_eq_of_lt hn]
  refine lucas_primality n (a : ZMod n) ((key _).2 h1) fun q hq hd hpow => ?_
  obtain ⟨f, hf, hqf⟩ := (Prime.dvd_prod_iff hq.prime).1 (hprod ▸ hd)
  obtain rfl := (Nat.prime_dvd_prime_iff_eq hq (hfs f hf)).1 hqf
  exact h2 q hf ((key _).1 hpow)

theorem prime_490463 : Nat.Prime 490463 := by
  refine prime_of_certificate 490463 14 [2, 7, 53, 661] (by decide +kernel) ?_ (by decide +kernel) (by decide +kernel) (by decide +kernel)
  intro f hf
  simp only [List.mem_cons, List.not_mem_nil, or_false] at hf
  rcases hf with rfl | rfl | rfl | rfl
  all_goals first | norm_num

theorem prime_1531 : Nat.Prime 1531 := by
  refine prime_of_certificate 1531 2 [2, 3, 3, 5, 17] (by decide +kernel) ?_ (by decide +kernel) (by decide +kernel) (by decide +kernel)
  intro f hf
  simp only [List.mem_cons, List.not_mem_nil, or_false] at hf
  rcases hf with rfl | rfl | rfl | rfl | rfl
  all_goals first | norm_num

theorem prime_3769 : Nat.Prime 3769 := by
  refine prime_of_certificate 3769 7 [2, 2, 2, 3, 157] (by decide +kernel) ?_ (by decide +kernel) (by decide +kernel) (by decide +kernel)
  intro f hf
  simp only [List.mem_cons, List.not_mem_nil, or_false] at hf
  rcases hf with rfl | rfl | rfl | rfl | rfl
  all_goals first | norm_num

theorem prime_204061199 : Nat.Prime 204061199 := by
  refine prime_of_certificate 204061199 11 [2, 11, 23, 107, 3769] (by decide +kernel) ?_ (by decide +kernel) (by decide +kernel) (by decide +kernel)
  intro f hf
  simp only [List.mem_cons, List.not_mem_nil, or_false] at hf
  rcases hf with rfl | rfl | rfl | rfl | rfl
  all_goals first | norm_num

theorem prime_34282281433 : Nat.Prime 34282281433 := by
  refine prime_of_certificate 34282281433 17 [2, 2, 2, 3, 7, 204061199] (by decide +kernel) ?_ (by decide +kernel) (by decide +kernel) (by decide +kernel)
  intro f hf
  simp only [List.mem_cons, List.not_mem_nil, or_false] at hf
  rcases hf with rfl | rfl | rfl | rfl | rfl | rfl
  all_goals first | exact prime_204061199 | norm_num

theorem prime_704251 : Nat.Prime 704251 := by
  refine prime_of_certificate 704251 2 [2, 3, 3, 5, 5, 5, 313] (by decide +kernel) ?_ (by decide +kernel) (by decide +kernel) (by decide +kernel)
  intro f hf
  simp only [List.mem_cons, List.not_mem_nil, or_false] at hf
  rcases hf with rfl | rfl | rfl | rfl | rfl | rfl | rfl
  all_goals first | norm_num

theorem prime_18169 : Nat.Prime 18169 := by
  refine prime_of_certificate 18169 11 [2, 2, 2, 3, 757] (by decide +kernel) ?_ (by decide +kernel) (by decide +kernel) (by decide +kernel)
  intro f hf
  simp only [List.mem_cons, List.not_mem_nil, or_false] at hf
  rcases hf with rfl | rfl | rfl | rfl | rfl
  all_goals first | norm_num

theorem prime_1087 : Nat.Prime 1087 := by
  refine prime_of_certificate 1087 3 [2, 3, 181] (by decide +kernel) ?_ (by decide +kernel) (by decide +kernel) (by decide +kernel)
  intro f hf
  simp only [List.mem_cons, List.not_mem_nil, or_false] at hf
  rcases hf with rfl | rfl | rfl
  all_goals first | norm_num

theorem prime_4349 : Nat.Prime 4349 := by
  refine prime_of_certificate 4349 2 [2, 2, 1087] (by decide +kernel) ?_ (by decide +kernel) (by decide +kernel) (by decide +kernel)
  intro f hf
  simp only [List.mem_cons, List.not_mem_nil, or_false] at hf
  rcases hf with rfl | rfl | rfl
  all_goals first | norm_num

theorem prime_78283 : Nat.Prime 78283 := by
  refine prime_of_certificate 78283 3 [2, 3, 3, 4349] (by decide +kernel) ?_ (by decide +kernel) (by decide +kernel) (by decide +kernel)
  intro f hf
  simp only [List.mem_cons, List.not_mem_nil, or_false] at hf
  rcases hf with rfl | rfl | rfl | rfl
  all_goals first | norm_num

theorem prime_46076956964474543 : Nat.Prime 46076956964474543 := by
  refine prime_of_certificate 46076956964474543 5 [2, 23, 18169, 78283, 704251] (by decide +kernel) ?_ (by decide +kernel) (by decide +kernel) (by decide +kernel)
  intro f hf
  simp only [List.mem_cons, List.not_mem_nil, or_false] at hf
  rcases hf with rfl | rfl | rfl | rfl | rfl
  all_goals first | exact prime_704251 | norm_num

theorem prime_3677 : Nat.Prime 3677 := by
  refine prime_of_certificate 3677 2 [2, 2, 919] (by decide +kernel) ?_ (by decide +kernel) (by decide +kernel) (by decide +kernel)
  intro f hf
  simp only [List.mem_cons, List.not_mem_nil, or_false] at hf
  rcases hf with rfl | rfl | rfl
  all_goals first | norm_num

theorem prime_66417393611 : Nat.Prime 66417393611 := by
  refine prime_of_certificate 66417393611 6 [2, 5, 53, 173, 197, 3677] (by decide +kernel) ?_ (by decide +kernel) (by decide +kernel) (by decide +kernel)
  intro f hf
  simp only [List.mem_cons, List.not_mem_nil, or_false] at hf
  rcases hf with rfl | rfl | rfl | rfl | rfl | rfl
  all_goals first | norm_num

theorem prime_11290956913871 : Nat.Prime 11290956913871 := by
  refine prime_of_certificate 11290956913871 13 [2, 5, 17, 66417393611] (by decide +kernel) ?_ (by decide +kernel) (by decide +kernel) (by decide +kernel)
  intro f hf
  simp only [List.mem_cons, List.not_mem_nil, or_false] at hf
  rcases hf with rfl | rfl | rfl | rfl
  all_goals first | exact prime_66417393611 | norm_num

theorem prime_2411 : Nat.Prime 2411 := by
  refine prime_of_certificate 2411 6 [2, 5, 241] (by decide +kernel) ?_ (by decide +kernel) (by decide +kernel) (by decide +kernel)
  intro f hf
  simp only [List.mem_cons, List.not_mem_nil, or_false] at hf
  rcases hf with rfl | rfl | rfl
  all_goals first | norm_num

theorem prime_774023187263532362759620327192479577272145303 : Nat.Prime 774023187263532362759620327192479577272145303 := by
  refine prime_of_certificate 774023187263532362759620327192479577272145303 3 [2, 3, 3, 2411, 34282281433, 11290956913871, 46076956964474543] (by decide +kernel) ?_ (by decide +kernel) (by decide +kernel) (by decide +kernel)
  intro f hf
  simp only [List.mem_cons, List.not_mem_nil, or_false] at hf
  rcases hf with rfl | rfl | rfl | rfl | rfl | rfl | rfl
  all_goals first | exact prime_34282281433 | exact prime_11290956913871 | exact prime_46076956964474543 | norm_num

theorem prime_835945042244614951780389953367877943453916927241 : Nat.Prime 835945042244614951780389953367877943453916927241 := by
  refine prime_of_certificate 835945042244614951780389953367877943453916927241 11 [2, 2, 2, 3, 3, 3, 5, 774023187263532362759620327192479577272145303] (by decide +kernel) ?_ (by decide +kernel) (by decide +kernel) (by decide +kernel)
  intro f hf
  simp only [List.mem_cons, List.not_mem_nil, or_false] at hf
  rcases hf with rfl | rfl | rfl | rfl | rfl | rfl | rfl | rfl
  all_goals first | exact prime_774023187263532362759620327192479577272145303 | norm_num

theorem prime_17449 : Nat.Prime 17449 := by
  refine prime_of_certificate 17449 14 [2, 2, 2, 3, 727] (by decide +kernel) ?_ (by decide +kernel) (by decide +kernel) (by decide +kernel)
  intro f hf
  simp only [List.mem_cons, List.not_mem_nil, or_false] at hf
  rcases hf with rfl | rfl | rfl | rfl | rfl
  all_goals first | norm_num

theorem prime_6700417 : Nat.Prime 6700417 := by
  refine prime_of_certificate 6700417 5 [2, 2, 2, 2, 2, 2, 2, 3, 17449] (by decide +kernel) ?_ (by decide +kernel) (by decide +kernel) (by decide +kernel)
  intro f hf
  simp only [List.mem_cons, List.not_mem_nil, or_false] at hf
  rcases hf with rfl | rfl | rfl | rfl | rfl | rfl | rfl | rfl | rfl
  all_goals first | norm_num

theorem prime_65537 : Nat.Prime 65537 := by
  refine prime_of_certificate 65537 3 [2, 2, 2, 2, 2, 2, 2, 2, 2, 2, 2, 2, 2, 2, 2, 2] (by decide +kernel) ?_ (by decide +kernel) (by decide +kernel) (by decide +kernel)
  intro f hf
  simp only [List.mem_cons, List.not_mem_nil, or_false] at hf
  rcases hf with rfl | rfl | rfl | rfl | rfl | rfl | rfl | rfl | rfl | rfl | rfl | rfl | rfl | rfl | rfl | rfl
  all_goals first | norm_num

theorem curve_prime : Nat.Prime Config.curve.p := by
  refine prime_of_certificate Config.curve.p 6 [2, 3, 5, 5, 17, 257, 641, 1531, 65537, 490463, 6700417, 835945042244614951780389953367877943453916927241] (by decide +kernel) ?_ (by decide +kernel) (by decide +kernel) (by decide +kernel)
  intro f hf
  simp only [List.mem_cons, List.not_mem_nil, or_false] at hf
  rcases hf with rfl | rfl | rfl | rfl | rfl | rfl | rfl | rfl | rfl | rfl | rfl | rfl
  all_goals first | exact prime_490463 | exact prime_6700417 | exact prime_835945042244614951780389953367877943453916927241 | norm_num

/-- G satisfies the curve equation (rules R190, R191). -/
theorem generator_onCurve : (generator Config.curve).onCurve Config.curve := by
  refine ⟨⟨?_, ?_⟩, ?_⟩ <;> decide +kernel

/-- The numbers of rule R191 meet the requirements of rule R190. -/
theorem curve_admissible : admissibleCurve Config.curve :=
  ⟨curve_prime, by decide +kernel, by decide +kernel, by decide +kernel, by decide +kernel, generator_onCurve⟩

end Sys2Proof.Machine
end

