-- ==== Sys2Proof/Laws/Keygen.lean ====
section
/-! SUPPORT. The retry budget of RSAKG (rules R168, R169), said once for each operation of Machine/Rsa.lean: how many candidates
were drawn when it answers, and that it fails only with the whole budget used up. -/

namespace Sys2Proof.Machine
set_option Elab.async false

/-- What is left of `GenPrime` after a rejected candidate (rule R168): each retry draws one candidate; it fails only when all
`left` retries are used up. -/
theorem retryPrime_draws (h e left : Nat) (g : Rng) :
    match retryPrime h e left g with
    | .error g' => g' = g.skip (left * bytesFor h)
    | .ok (c, left', g') => candidateOk h e c = true ∧ left' < left ∧ g' = g.skip ((left - left') * bytesFor h) := by
  induction left generalizing g with
  | zero => simp [retryPrime, Rng.skip]
  | succ n ih =>
    rw [retryPrime]
    by_cases hc : candidateOk h e (candidate h g) = true
    · simp only [hc, if_true, afterCandidate]
      refine ⟨trivial, Nat.lt_succ_self n, ?_⟩
      rw [Nat.add_sub_cancel_left, Nat.one_mul]
    · simp only [hc]
      have := ih (afterCandidate h g)
      revert this
      cases retryPrime h e n (afterCandidate h g) with
      | error g' =>
        rintro rfl
        simp only [afterCandidate, skip_skip]
        congr 1; ring
      | ok r =>
        obtain ⟨c, l, g'⟩ := r
        rintro ⟨h1, h2, rfl⟩
        refine ⟨h1, Nat.lt_succ_of_lt h2, ?_⟩
        simp only [afterCandidate, skip_skip]
        obtain ⟨d, rfl⟩ := Nat.exists_eq_add_of_lt h2
        congr 1
        rw [show l + d + 1 - l = d + 1 by omega, show l + d + 1 + 1 - l = d + 2 by omega]; ring

/-- `GenPrime` (rule R168): a suitable candidate after as many draws as retries it took and one more, or the failure after
`left + 1` candidates. -/
theorem genPrime_draws (h e left : Nat) (g : Rng) :
    match genPrime h e left g with
    | .error g' => g' = g.skip ((left + 1) * bytesFor h)
    | .ok (c, left', g') => candidateOk h e c = true ∧ left' ≤ left ∧ g' = g.skip ((left + 1 - left') * bytesFor h) := by
  have := retryPrime_draws h e (left + 1) g
  simpa [genPrime, retryPrime, Nat.lt_succ_iff] using this

/-- The loop that samples `q` again (rule R169): every retry draws one candidate, a `q` too near `p` being charged for as a
rejected one is; it fails only when all `left` retries are used up. -/
theorem spreadPrimes_draws (h e p n left q : Nat) (g : Rng) (hn : left < n) :
    match spreadPrimes h e p n left q g with
    | .error g' => g' = g.skip (left * bytesFor h)
    | .ok (q', g') => distOk p q' h = true ∧ ∃ k, k ≤ left ∧ g' = g.skip (k * bytesFor h) := by
  induction n generalizing left q g with
  | zero => omega
  | succ n ih =>
    rw [spreadPrimes.eq_def]
    by_cases hd : distOk p q h = true
    · simp only [hd, if_true]
      exact ⟨trivial, 0, Nat.zero_le _, by simp [Rng.skip]⟩
    · dsimp only
      rw [if_neg hd]
      cases left with
      | zero => simp [Rng.skip]
      | succ left =>
        have hg := genPrime_draws h e left g
        dsimp only
        revert hg
        cases genPrime h e left g with
        | error g' => exact id
        | ok r =>
          obtain ⟨c, l, g'⟩ := r
          rintro ⟨-, hl, rfl⟩
          dsimp only
          have hs := ih l c (g.skip ((left + 1 - l) * bytesFor h)) (by omega)
          revert hs
          cases spreadPrimes h e p n l c (g.skip ((left + 1 - l) * bytesFor h)) with
          | error g2 =>
            rintro rfl
            dsimp only
            rw [skip_skip, ← Nat.add_mul]
            congr 2; omega
          | ok r =>
            obtain ⟨q', g2⟩ := r
            rintro ⟨hq, k, hk, rfl⟩
            refine ⟨hq, left + 1 - l + k, by omega, ?_⟩
            rw [skip_skip, ← Nat.add_mul]

/-- The two primes of a key (rules R168, R169): at most `left + 2` candidates are drawn; the failure comes after `left + 1`
(no `p` was found) or `left + 2` (no `q`) and never earlier. -/
theorem keyPrimes_draws (h e left : Nat) (g : Rng) :
    match keyPrimes h e left g with
    | .error g' => g' = g.skip ((left + 1) * bytesFor h) ∨ g' = g.skip ((left + 2) * bytesFor h)
    | .ok (p, q, g') => candidateOk h e p = true ∧ distOk p q h = true ∧
        ∃ n, 2 ≤ n ∧ n ≤ left + 2 ∧ g' = g.skip (n * bytesFor h) := by
  have hp := genPrime_draws h e left g
  rw [keyPrimes]
  revert hp
  cases genPrime h e left g with
  | error g1 => exact .inl
  | ok r =>
    obtain ⟨p, l1, g1⟩ := r
    rintro ⟨hp, hl1, rfl⟩
    dsimp only
    have hq := genPrime_draws h e l1 (g.skip ((left + 1 - l1) * bytesFor h))
    revert hq
    cases genPrime h e l1 (g.skip ((left + 1 - l1) * bytesFor h)) with
    | error g2 =>
      rintro rfl
      refine .inr ?_
      rw [skip_skip, ← Nat.add_mul]
      congr 2; omega
    | ok r =>
      obtain ⟨q, l2, g2⟩ := r
      rintro ⟨-, hl2, rfl⟩
      dsimp only
      rw [skip_skip, ← Nat.add_mul]
      have hs := spreadPrimes_draws h e p (l2 + 1) l2 q
        (g.skip ((left + 1 - l1 + (l1 + 1 - l2)) * bytesFor h)) (Nat.lt_succ_self _)
      revert hs
      cases spreadPrimes h e p (l2 + 1) l2 q (g.skip ((left + 1 - l1 + (l1 + 1 - l2)) * bytesFor h)) with
      | error g3 =>
        rintro rfl
        refine .inr ?_
        rw [skip_skip, ← Nat.add_mul]
        congr 2; omega
      | ok r =>
        obtain ⟨q', g3⟩ := r
        rintro ⟨hd, k, hk, rfl⟩
        refine ⟨hp, hd, left + 1 - l1 + (l1 + 1 - l2) + k, by omega, by omega, ?_⟩
        rw [skip_skip, ← Nat.add_mul]

end Sys2Proof.Machine
end

