-- ==== Sys2Proof/Laws/PerInstr.lean ====
section
/-! SUPPORT. The per-instruction family EncodingMatchesRow: the word of every command, with every operand, matches the row
of its mnemonic in the opcode table (rules R93, R94). -/

namespace Sys2Proof.Laws
set_option Elab.async false

/-- The encoded command has the row's value at every bit of the row's mask (rule R93). -/
def EncodingMatchesRow.Statement (i : Instr) : Prop := i.row.holds (encode i) = true

theorem EncodingMatchesRow.madd (rd rs1 rs2 rm : RegIx) : EncodingMatchesRow.Statement (.madd rd rs1 rs2 rm) := by
  unfold EncodingMatchesRow.Statement
  decide +revert +kernel

theorem EncodingMatchesRow.msub (rd rs1 rs2 rm : RegIx) : EncodingMatchesRow.Statement (.msub rd rs1 rs2 rm) := by
  unfold EncodingMatchesRow.Statement
  decide +revert +kernel

theorem EncodingMatchesRow.mmul (rd rs1 rs2 rm : RegIx) : EncodingMatchesRow.Statement (.mmul rd rs1 rs2 rm) := by
  unfold EncodingMatchesRow.Statement
  decide +revert +kernel

theorem EncodingMatchesRow.mneg (rd rs1 rm : RegIx) : EncodingMatchesRow.Statement (.mneg rd rs1 rm) := by
  unfold EncodingMatchesRow.Statement
  decide +revert +kernel

theorem EncodingMatchesRow.mpow (rd rs1 rs2 rm : RegIx) : EncodingMatchesRow.Statement (.mpow rd rs1 rs2 rm) := by
  unfold EncodingMatchesRow.Statement
  decide +revert +kernel

theorem EncodingMatchesRow.minv (rd rs1 rm : RegIx) : EncodingMatchesRow.Statement (.minv rd rs1 rm) := by
  unfold EncodingMatchesRow.Statement
  decide +revert +kernel

theorem EncodingMatchesRow.minvf (rd rs1 rm : RegIx) : EncodingMatchesRow.Statement (.minvf rd rs1 rm) := by
  unfold EncodingMatchesRow.Statement
  decide +revert +kernel

theorem EncodingMatchesRow.mrand (rd rm : RegIx) : EncodingMatchesRow.Statement (.mrand rd rm) := by
  unfold EncodingMatchesRow.Statement
  decide +revert +kernel

theorem EncodingMatchesRow.pkpad (bd bs : BufIx) : EncodingMatchesRow.Statement (.pkpad bd bs) := by
  unfold EncodingMatchesRow.Statement
  decide +revert +kernel

theorem EncodingMatchesRow.pkunpad (bd bs : BufIx) : EncodingMatchesRow.Statement (.pkunpad bd bs) := by
  unfold EncodingMatchesRow.Statement
  decide +revert +kernel

theorem EncodingMatchesRow.rsakg (rdn rdd re : RegIx) : EncodingMatchesRow.Statement (.rsakg rdn rdd re) := by
  unfold EncodingMatchesRow.Statement
  decide +revert +kernel

theorem EncodingMatchesRow.rsaenc (bd bs : BufIx) (rx rn : RegIx) : EncodingMatchesRow.Statement (.rsaenc bd bs rx rn) := by
  unfold EncodingMatchesRow.Statement
  decide +revert +kernel

theorem EncodingMatchesRow.rsadec (bd bs : BufIx) (rx rn : RegIx) : EncodingMatchesRow.Statement (.rsadec bd bs rx rn) := by
  unfold EncodingMatchesRow.Statement
  decide +revert +kernel

theorem EncodingMatchesRow.padd (pd ps1 ps2 : PtIx) : EncodingMatchesRow.Statement (.padd pd ps1 ps2) := by
  unfold EncodingMatchesRow.Statement
  decide +revert +kernel

theorem EncodingMatchesRow.pdbl (pd ps : PtIx) : EncodingMatchesRow.Statement (.pdbl pd ps) := by
  unfold EncodingMatchesRow.Statement
  decide +revert +kernel

theorem EncodingMatchesRow.pneg (pd ps : PtIx) : EncodingMatchesRow.Statement (.pneg pd ps) := by
  unfold EncodingMatchesRow.Statement
  decide +revert +kernel

theorem EncodingMatchesRow.smul (pd ps : PtIx) (rk : RegIx) : EncodingMatchesRow.Statement (.smul pd ps rk) := by
  unfold EncodingMatchesRow.Statement
  decide +revert +kernel

theorem EncodingMatchesRow.smulm (pd ps : PtIx) (rk : RegIx) : EncodingMatchesRow.Statement (.smulm pd ps rk) := by
  unfold EncodingMatchesRow.Statement
  decide +revert +kernel

theorem EncodingMatchesRow.eckg (pd : PtIx) (rk : RegIx) : EncodingMatchesRow.Statement (.eckg pd rk) := by
  unfold EncodingMatchesRow.Statement
  decide +revert +kernel

theorem EncodingMatchesRow.ecdh (bd : BufIx) (ps : PtIx) (rk : RegIx) : EncodingMatchesRow.Statement (.ecdh bd ps rk) := by
  unfold EncodingMatchesRow.Statement
  decide +revert +kernel

end Sys2Proof.Laws
end

