-- ==== Sys2Proof/WellFormed.lean ====
section
/-! DEFINITION. Well-formed commands. The index ranges of rule R92 are in the operand types; the one condition rule R93
leaves outside the encoding is that RSAKG names two different destinations (rules R96, R169). -/

namespace Sys2Proof

/-- A command that is not illegal under rule R96: RSAKG needs `fa != fb`; nothing else is left to check. -/
def Instr.wellFormed : Instr → Bool
  | .madd _ _ _ _ => true
  | .msub _ _ _ _ => true
  | .mmul _ _ _ _ => true
  | .mneg _ _ _ => true
  | .mpow _ _ _ _ => true
  | .minv _ _ _ => true
  | .minvf _ _ _ => true
  | .mrand _ _ => true
  | .pkpad _ _ => true
  | .pkunpad _ _ => true
  | .rsakg rdn rdd _ => rdn != rdd
  | .rsaenc _ _ _ _ => true
  | .rsadec _ _ _ _ => true
  | .padd _ _ _ => true
  | .pdbl _ _ => true
  | .pneg _ _ => true
  | .smul _ _ _ => true
  | .smulm _ _ _ => true
  | .eckg _ _ => true
  | .ecdh _ _ _ => true

end Sys2Proof
end

