-- ==== Sys2Proof/Tests/Slice0.lean ====
section
/-! SUPPORT. The model's own tests. Expected values come from the spec's worked examples and vectors (spec/95 and the
examples of the command rules), the words from its encoding tables. Then, for every statement with hypotheses, a witness
that they can hold together, clause by clause. -/

namespace Sys2Proof.Tests
set_option Elab.async false
open Sys2Proof Sys2Proof.Machine

/-! ### Helpers -/

/-- The reset state with some integer registers loaded. -/
def ints (l : List (RegIx × Nat)) : State := l.foldl (fun s x => s.setReg x.1 x.2) State.reset

/-- The randomness source answers these bytes first. -/
def fed (bs : List Byte) (s : State) : State := { s with rng := ⟨bs, 0, 0, 0⟩ }

/-- `KBITS` loaded. -/
def keyBits (n : Nat) (s : State) : State := { s with kbits := BitVec.ofNat 16 n }

/-- `BLEN[k]` loaded, the storage as it is. -/
def lengthOf (k : BufIx) (n : Nat) (s : State) : State := { s with blen := s.blen.set k.val (BitVec.ofNat 16 n) k.isLt }

/-- A command word in flight, with events to come. -/
def busyWith (w : Word) (ev : List Event) : State := { State.reset with cmd := w, busy := true, agenda := ev }

/-- An idle PCC with events to come. -/
def idleWith (ev : List Event) : State := { State.reset with agenda := ev }

/-- The next state, and the reset state where there is none. -/
def nextOf : Host.Outcome State Fault Refusal → State
  | .next t => t
  | _ => State.reset

/-- What an instruction leaves. -/
def after (i : Instr) (s : State) : State := nextOf (exec i s)

/-- The command read from a word, if any. -/
def commandOf (w : Word) : Option Instr := (decode w).toOption

/-- The reason a word is illegal, if it is. -/
def reasonOf (w : Word) : Option Illegal :=
  match decode w with
  | .ok _ => none
  | .error e => some e

theorem decode_of_commandOf {w : Word} {i : Instr} (h : commandOf w = some i) : decode w = .ok i := by
  unfold commandOf at h
  cases hd : decode w with
  | error e => rw [hd] at h; cases h
  | ok j => rw [hd] at h; cases h; rfl

/-- The base point, and points of spec/95 section 2.4. -/
def gPoint : Point := generator Config.curve
@[inherit_doc gPoint] def g2 : Point := .affine
  0x7CF27B188D034F7E8A52380304B51AC3C08969E277F21B35A60B48FC47669978
  0x07775510DB8ED040293D9AC69F7430DBBA7DADE63CE982299E04B79D227873D1
@[inherit_doc gPoint] def g3 : Point := .affine
  0x5ECBE4D1A6330A44C8F7EF951D4BF165E6C6B721EFADA985FB41661BC6E7FD6C
  0x8734640C4998FF7E374B06CE1A64A2ECD82AB036384FB83D9A79B127A27D5032
@[inherit_doc gPoint] def g17 : Point := .affine
  0x47776904C0F1CC3A9C0984B66F75301A5FA68678F0D64AF8BA1ABCE34738A73E
  0xAA005EE6B5B957286231856577648E8381B2804428D5733F32F787FF71F1FCDC
@[inherit_doc gPoint] def gNeg : Point := .affine
  0x6B17D1F2E12C4247F8BCE6E563A440F277037D812DEB33A0F4A13945D898C296
  0xB01CBD1C01E58065711814B583F061E9D431CCA994CEA1313449BF97C840AE0A

/-- The reset state with some point registers loaded. -/
def points (l : List (PtIx × Point)) : State := l.foldl (fun s x => s.setPoint x.1 x.2) State.reset

/-! ### Well-formedness (the one check: rules R96, R169) -/

theorem test_wellFormed_refuses_equal_destinations : (Instr.rsakg 0 0 2).wellFormed = false := by decide
theorem test_wellFormed_admits_distinct_destinations : (Instr.rsakg 0 1 0).wellFormed = true := by decide

/-! ### Decoding: a word of every command, written out from rules R91 to R94 (many of them are the spec's own) -/

theorem test_decode_madd : commandOf 0x01201300 = some (.madd 2 0 1 3) := by decide
theorem test_decode_msub : commandOf 0x02765400 = some (.msub 7 6 5 4) := by decide
theorem test_decode_mmul : commandOf 0x03111200 = some (.mmul 1 1 1 2) := by decide
theorem test_decode_mneg : commandOf 0x04350700 = some (.mneg 3 5 7) := by decide
theorem test_decode_mpow : commandOf 0x05012300 = some (.mpow 0 1 2 3) := by decide
theorem test_decode_minv : commandOf 0x06100200 = some (.minv 1 0 2) := by decide
theorem test_decode_minvf : commandOf 0x07400200 = some (.minvf 4 0 2) := by decide
theorem test_decode_mrand : commandOf 0x08600700 = some (.mrand 6 7) := by decide
theorem test_decode_pkpad : commandOf 0x10100000 = some (.pkpad 1 0) := by decide
theorem test_decode_pkunpad : commandOf 0x11210000 = some (.pkunpad 2 1) := by decide
theorem test_decode_rsakg : commandOf 0x18012000 = some (.rsakg 0 1 2) := by decide
theorem test_decode_rsaenc : commandOf 0x19102000 = some (.rsaenc 1 0 2 0) := by decide
theorem test_decode_rsadec : commandOf 0x1A211000 = some (.rsadec 2 1 1 0) := by decide
theorem test_decode_padd : commandOf 0x20312000 = some (.padd 3 1 2) := by decide
theorem test_decode_pdbl : commandOf 0x21230000 = some (.pdbl 2 3) := by decide
theorem test_decode_pneg : commandOf 0x22120000 = some (.pneg 1 2) := by decide
theorem test_decode_smul : commandOf 0x23327000 = some (.smul 3 2 7) := by decide
theorem test_decode_smulm : commandOf 0x24104000 = some (.smulm 1 0 4) := by decide
theorem test_decode_eckg : commandOf 0x25101000 = some (.eckg 1 1) := by decide
theorem test_decode_ecdh : commandOf 0x26010000 = some (.ecdh 0 1 0) := by decide

/-- The illegal words of spec/95 section 2.5. -/
theorem test_decode_illegal_words :
    [0x00000000, 0x09000000, 0xFFFFFFFF, 0x01800000, 0x01201301, 0x04101200, 0x08101200, 0x20400000, 0x10140000,
      0x25010000, 0x26410000].map reasonOf =
    [some .unknownOpcode, some .unknownOpcode, some .lowByteNotZero, some .indexOutOfRange, some .lowByteNotZero,
      some .unusedNotZero, some .unusedNotZero, some .indexOutOfRange, some .indexOutOfRange, some .unusedNotZero,
      some .indexOutOfRange] := by decide

theorem test_decode_equal_destinations : commandOf 0x18002000 = some (.rsakg 0 0 2) := by decide

/-- Every opcode byte outside the table is illegal (rule R96). -/
theorem test_decode_opcode_bytes :
    ((List.range 256).filter fun n => (commandOf (BitVec.ofNat 32 (n * 0x1000000))).isSome) =
      [0x01, 0x02, 0x03, 0x04, 0x05, 0x06, 0x07, 0x08, 0x10, 0x11, 0x18, 0x19, 0x1A, 0x20, 0x21, 0x22, 0x23, 0x24, 0x25,
        0x26] := by decide +kernel

theorem test_encode_word : encode (.ecdh 0 1 0) = 0x26010000 := by decide
theorem test_table_word : decodeTableWord 32 0x1A211000 = some (.rsadec 2 1 1 0) := by decide

/-! ### Modular arithmetic (spec/95 section 2.1) -/

theorem test_madd_wraps : (after (.madd 3 0 1 2) (ints [(0, 40), (1, 10), (2, 43)])).reg 3 = 7 := by decide +kernel
theorem test_madd_exact_above_the_width :
    (after (.madd 0 0 0 1) (ints [(0, 2 ^ 2048 - 1), (1, 2 ^ 2048 - 3)])).reg 0 = 4 := by decide +kernel
theorem test_msub_below_zero : (after (.msub 3 0 1 2) (ints [(0, 3), (1, 10), (2, 43)])).reg 3 = 36 := by decide +kernel
theorem test_mmul_unreduced : (after (.mmul 3 0 1 2) (ints [(0, 60), (1, 38), (2, 43)])).reg 3 = 1 := by decide +kernel
theorem test_mmul_in_place : (after (.mmul 1 1 1 2) (ints [(1, 17), (2, 43)])).reg 1 = 31 := by decide +kernel
theorem test_mneg_unreduced : (after (.mneg 3 0 2) (ints [(0, 50), (2, 43)])).reg 3 = 36 := by decide +kernel
theorem test_mneg_of_the_modulus : (after (.mneg 3 0 2) (ints [(0, 43), (2, 43), (3, 9)])).reg 3 = 0 := by decide +kernel
theorem test_mpow : (after (.mpow 3 0 1 2) (ints [(0, 17), (1, 41), (2, 43)])).reg 3 = 38 := by decide +kernel
theorem test_mpow_modulus_one : (after (.mpow 3 0 1 2) (ints [(0, 5), (2, 1), (3, 9)])).reg 3 = 0 := by decide +kernel
theorem test_minv_unreduced : (after (.minv 3 0 2) (ints [(0, 60), (2, 43)])).reg 3 = 38 := by decide +kernel
/-- Program P2 of spec/95: gcd(6, 9) = 3, the destination keeps 0xAAAA, STATUS = 6, ERRCODE = 0x10. -/
theorem test_minv_no_inverse :
    (fun t => (t.reg 1, t.statusWord, t.errcodeWord)) (after (.minv 1 0 2) (ints [(0, 6), (1, 0xAAAA), (2, 9)])) =
      (0xAAAA, 0x6, 0x10) := by decide +kernel
theorem test_minvf_composite : (after (.minvf 3 0 2) (ints [(0, 2), (2, 15)])).reg 3 = 2 := by decide +kernel
theorem test_minvf_multiple :
    (after (.minvf 3 0 2) (ints [(0, 43), (2, 43)])).errcode = 0x10 := by decide +kernel
theorem test_mrand_modulus_zero : (after (.mrand 3 2) (ints [(3, 5)])).errcode = 0x02 := by decide +kernel
theorem test_mrand_modulus_one (s : State) (h : s.reg 2 = 1) : (after (.mrand 3 2) s).reg 3 = 0 := by
  have hr : randBelow 1 s.rng = 0 := Nat.mod_one _
  have hv : (0 : Nat) < 2 ^ Config.opw := Nat.pow_pos (by decide)
  simp only [after, exec, execMrand, randomEffect, h, hr]
  exact reg_setReg_same hv

/-! ### Padding (spec/95 section 2.2) -/

/-- The padded block of the first PKPAD row. -/
def block : List Byte :=
  [0x00, 0x02, 0xAA, 0x01, 0xBB, 0x01, 0x01, 0xFF, 0x10, 0x20, 0x30, 0x40, 0x50, 0x00, 0x48, 0x69]

theorem test_pkpad :
    (fun t => (t.bufBytes 1, t.rng.pos, t.statusWord)) (after (.pkpad 1 0) (keyBits 128
      (fed [0xAA, 0x00, 0xBB, 0x01, 0x00, 0xFF, 0x10, 0x20, 0x30, 0x40, 0x50] (State.reset.setBuf 0 [0x48, 0x69])))) =
      (block, 11, 0x2) := by decide +kernel
theorem test_pkpad_negative_capacity :
    (fun t => (t.errcode, t.rng.pos)) (after (.pkpad 1 0) (keyBits 80 State.reset)) = (0x11, 0) := by decide +kernel
theorem test_pkunpad_first_separator :
    (fun t => (t.bufBytes 2, t.mem.read 0x5802)) (after (.pkunpad 2 1)
      (State.reset.setBuf 1 [0x00, 0x02, 0xAA, 0x00, 0x00, 0x41])) = ([0x00, 0x41], 0x00) := by decide +kernel
theorem test_pkunpad_no_separator :
    (after (.pkunpad 2 1) (State.reset.setBuf 1 [0x00, 0x02, 0xAA, 0xBB])).errcode = 0x13 := by decide +kernel

/-! ### RSA (spec/95 section 2.3) -/

/-- The first small example: two rejected candidates, four bytes drawn. -/
theorem test_rsakg_small :
    ((keygenEffect 1000 (keyBits 16 (fed [0x0D, 0xB4, 0x5B, 0x02] (ints [(2, 3)]))) 0 1 2).toOption.map
      fun t => (t.reg 0, t.reg 1, t.rng.pos)) = some (19519, 3207, 4) := by decide +kernel
theorem test_rsakg_odd_size : (after (.rsakg 0 1 2) (keyBits 17 (ints [(2, 3)]))).errcode = 0x02 := by decide +kernel

/-- The 128-bit key of the vectors. -/
def key128 : State := ints [(0, 0x6D8EBDCC1AB5716D07320FBE0DA7ED6B), (1, 0x09EDD356B19EFB12033AA67A22A0C1BD), (2, 0x10001)]
@[inherit_doc key128] def cipher : List Byte :=
  [0x59, 0xD9, 0x75, 0xD3, 0xA7, 0xD7, 0xD1, 0x63, 0xD9, 0x67, 0xD8, 0x86, 0x50, 0xDC, 0x0A, 0xE1]

theorem test_rsaenc :
    (fun t => (t.bufBytes 1, t.rng.pos)) (after (.rsaenc 1 0 2 0)
      (fed [0x7D, 0x24, 0xCB, 0x72, 0x19, 0xC0, 0x67, 0x0E, 0xB5, 0x5C, 0x03] (key128.setBuf 0 [0x48, 0x69]))) =
      (cipher, 11) := by decide +kernel
theorem test_rsaenc_short_modulus : (after (.rsaenc 1 0 2 0) (ints [(0, 19519)])).errcode = 0x11 := by decide +kernel
theorem test_rsadec_leading_zeros :
    (after (.rsadec 2 1 1 0) (key128.setBuf 1 ([0x00, 0x00] ++ cipher))).bufBytes 2 = [0x48, 0x69] := by decide +kernel
/-- `m = 0x020041` is unpadded as `00 02 00 41`, not left-padded to 16 bytes (D24). -/
theorem test_rsadec_one_zero_byte :
    (after (.rsadec 2 1 1 0) (key128.setBuf 1 [0x5B, 0x8B, 0x67, 0xC1, 0x94, 0xD8, 0xB7, 0x92, 0x6D, 0x9F, 0x55, 0x89,
      0x2F, 0x26, 0x6C, 0xEA])).bufBytes 2 = [0x41] := by decide +kernel

/-! ### Elliptic curve (spec/95 section 2.4) -/

theorem test_padd_chord :
    (after (.padd 2 0 1) (points [(0, gPoint), (1, g2)])).pt.get 2 = PointReg.ofPoint g3 := by decide +kernel
theorem test_padd_no_inverse :
    (after (.padd 2 0 1) (points [(0, .affine 1 1), (1, .affine 1 2)])).errcode = 0x10 := by decide +kernel
theorem test_pdbl : (after (.pdbl 1 0) (points [(0, gPoint)])).pt.get 1 = PointReg.ofPoint g2 := by decide +kernel
theorem test_pdbl_off_curve : (after (.pdbl 1 0) (points [(0, .affine 1 1)])).pt.get 1 =
    PointReg.ofPoint (.affine (Config.curve.p - 2) (Config.curve.p - 1)) := by decide +kernel
theorem test_pneg : (after (.pneg 1 0) (points [(0, gPoint)])).pt.get 1 = PointReg.ofPoint gNeg := by decide +kernel
theorem test_smul : (after (.smul 1 0 4) ((points [(0, gPoint)]).setReg 4 17)).pt.get 1 = PointReg.ofPoint g17 := by
  decide +kernel
theorem test_smul_zero : (after (.smul 1 0 4) (points [(0, gPoint), (1, g2)])).pt.get 1 = ⟨true, 0, 0⟩ := by decide +kernel
theorem test_smulm : (after (.smulm 1 0 4) ((points [(0, gPoint)]).setReg 4 17)).pt.get 1 = PointReg.ofPoint g17 := by
  decide +kernel
theorem test_smulm_one : (after (.smulm 1 0 4) ((points [(0, g2)]).setReg 4 1)).pt.get 1 = PointReg.ofPoint g2 := by
  decide +kernel
/-- 31 zero bytes and 05, read big-endian: the scalar 5 and the point 5G. -/
theorem test_eckg :
    (fun t => (t.reg 0, t.pt.get 0, t.rng.pos)) (after (.eckg 0 0) (fed (List.replicate 31 0x00 ++ [0x05]) State.reset)) =
    (5, PointReg.ofPoint (.affine 0x51590B7A515140D2D784C85608668FDFEF8C82FD1F5BE52421554A0DC3D033ED
      0xE0C17DA8904A727D8AE1BF36BF8A79260D012F00D4D80888D1D0BB44FDA16DA4), 32) := by decide +kernel
theorem test_ecdh :
    (fun t => (t.bufBytes 0, t.statusWord)) (after (.ecdh 0 0 1) ((points [(0, gPoint)]).setReg 1 1)) =
    ([0x6B, 0x17, 0xD1, 0xF2, 0xE1, 0x2C, 0x42, 0x47, 0xF8, 0xBC, 0xE6, 0xE5, 0x63, 0xA4, 0x40, 0xF2, 0x77, 0x03, 0x7D,
      0x81, 0x2D, 0xEB, 0x33, 0xA0, 0xF4, 0xA1, 0x39, 0x45, 0xD8, 0x98, 0xC2, 0x96], 0x2) := by decide +kernel
theorem test_ecdh_infinity : (after (.ecdh 0 0 1) (points [(0, gPoint)])).errcode = 0x15 := by decide +kernel

/-! ### The window and the fault protocol (spec/95 section 2.6) -/

theorem test_reset_reads : [0x0000, 0x0008, 0x0018, 0x0014, 0x0010].map State.reset.windowRead =
    [0x50434301, 0, 0xF, 0, 0] := by decide +kernel
theorem test_integer_window : [0x10FC, 0x10F8, 0x1000].map (ints [(0, 43)]).windowRead = [0x0000002B, 0, 0] := by
  decide +kernel
theorem test_buffer_window :
    (nextOf (hostWrite State.reset 0x5000 4 0x48690000)).mem = [(0x5000, 0x48), (0x5001, 0x69)] := by decide +kernel
theorem test_unmapped_reads :
    [0x001C, 0x0030, 0x1100, 0x3000].map (ints [(0, 2 ^ 2048 - 1)]).windowRead = [0, 0, 0, 0] := by decide +kernel
theorem test_command_dropped_while_faulted :
    (nextOf (hostWrite (State.reset.raise .noinv State.reset.rng) 0x0010 4 0x01500200)).cmd = 0 := by decide +kernel
theorem test_ctrl_clears :
    (fun t => (t.statusWord, t.errcodeWord))
      (nextOf (hostWrite (State.reset.raise .noinv State.reset.rng) 0x0004 4 0x6)) = (0, 0) := by decide +kernel
theorem test_soft_reset_wins : (nextOf (hostWrite (ints [(0, 43)]) 0x0004 4 0x80000001)) = State.reset := by
  decide +kernel
/-- An access outside the window does not reach PCC (rule R68). -/
theorem test_access_outside_the_window : nextOf (step (idleWith [.write 0x6010 4 0x21000000])) = State.reset := by
  decide +kernel
theorem test_irq : (after (.pdbl 0 0) { State.reset with ie := true }).irq = true := by decide +kernel
theorem test_illegal_word_in_flight : (nextOf (step (busyWith 0x01201301 []))).errcode = 0x01 := by decide +kernel

/-! ### Witnesses: the hypotheses of every statement can hold together, clause by clause, at boundary values -/

theorem exec_after (i : Instr) (s : State) : exec i s = .next (after i s) := by
  obtain ⟨t, h⟩ := exec_next i s
  rw [after, h]
  rfl

theorem ok_sample : decode 0x01201300 = .ok (.madd 2 0 1 3) := decode_of_commandOf (by decide)

theorem witness_EncodeOfDecodedWordIsTheWord : decode 0x01201300 = .ok (.madd 2 0 1 3) := ok_sample

theorem witness_WordDecodesExactlyWhenARowHolds :
    (⟨0xFF8888FF, 0x01000000⟩ : OpRow) ∈ opTable ∧ (⟨0xFF8888FF, 0x01000000⟩ : OpRow).holds 0x01201300 = true ∧
      decode 0x01201300 = .ok (.madd 2 0 1 3) := ⟨by decide, by decide, ok_sample⟩

theorem witness_StepRunsTheCommandInFlight :
    (busyWith 0x01201300 []).busy = true ∧ decode (busyWith 0x01201300 []).cmd = .ok (.madd 2 0 1 3) ∧
      (busyWith 0x01201300 []).agenda = [] ∧ (busyWith 0x01201300 [.core, .wait]).agenda = .core :: [.wait] ∧
      (busyWith 0x01201300 [.wait]).agenda = .wait :: [] := ⟨rfl, ok_sample, rfl, rfl, rfl⟩

theorem witness_PresentedWordRunsNext : decode 0x01201300 = .ok (.madd 2 0 1 3) := ok_sample

theorem witness_CommandWriteThenWaitRunsTheCommand :
    let s := idleWith [.write 0x0010 4 0x01201300, .wait]
    s.busy = false ∧ s.fault = false ∧ s.agenda = .write 0x0010 4 (encode (.madd 2 0 1 3)) :: .wait :: [] := by decide

theorem witness_CommandWriteOutcomes :
    let w := Event.write 0x0010 4 0x01201300
    ((busyWith 0 [w]).agenda = w :: [] ∧ (busyWith 0 [w]).busy = true) ∧
      ((idleWith [w]).clearFault.agenda = w :: [] ∧ (idleWith [w]).clearFault.busy = false ∧
        (idleWith [w]).clearFault.fault = false) ∧
      (({ idleWith [w] with fault := true } : State).agenda = w :: [] ∧ ({ idleWith [w] with fault := true } : State).busy = false ∧
        ({ idleWith [w] with fault := true } : State).fault = true) := by decide

theorem witness_BusyWindowKeepsTheOperands :
    let s := busyWith 0x01201300 [.read 0x0008 4]
    let u := busyWith 0x01201300 [.write 0x0004 4 0x1]
    (s.busy = true ∧ s.agenda = .read 0x0008 4 :: [] ∧ step s = .next (nextOf (step s))) ∧
      (u.busy = true ∧ u.agenda = .write 0x0004 4 0x1 :: [] ∧ (0x1 : Word).getLsbD 31 = false ∧
        step u = .next (nextOf (step u))) := ⟨⟨rfl, rfl, rfl⟩, rfl, rfl, by decide, rfl⟩

/-- Both ends of the readable offsets, the first unreadable one, and the last word of the window. -/
theorem witness_BusyWindowAccesses :
    (busyWith 0 [.read 0x0000 4]).busy = true ∧ 0x0000 ∈ [0x0000, 0x0004, 0x0008, 0x000C, 0x0010] ∧
      0x0010 ∈ [0x0000, 0x0004, 0x0008, 0x000C, 0x0010] ∧ 0x0014 ∉ [0x0000, 0x0004, 0x0008, 0x000C, 0x0010] ∧
      0x5FFC ∉ [0x0000, 0x0004, 0x0008, 0x000C, 0x0010] ∧ 0x5FFC < 0x6000 ∧ 0x5FFC % 4 = 0 ∧
      ((0x1 : Word).getLsbD 1 = false ∧ (0x1 : Word).getLsbD 2 = false ∧ (0x1 : Word).getLsbD 31 = false) ∧
      ((0x80000001 : Word).getLsbD 1 = false ∧ (0x80000001 : Word).getLsbD 2 = false ∧
        (0x80000001 : Word).getLsbD 31 = true) ∧
      (0x2 : Word).getLsbD 1 = true ∧ (0x4 : Word).getLsbD 2 = true ∧ 0x5FFC ≠ 0x0004 ∧ 0x5FFC ≠ 0x0010 := by decide

theorem witness_UndefinedAndOutsideAccesses :
    (idleWith [.read 0x6000 4]).agenda = .read 0x6000 4 :: [] ∧ 0x6000 ≤ 0x6000 ∧
      (idleWith [.write 0x5FFF 4 0]).agenda = .write 0x5FFF 4 0 :: [] ∧ 0x5FFF < 0x6000 ∧ 0x5FFF % 4 ≠ 0 ∧
      (idleWith [.read 0x0000 2]).agenda = .read 0x0000 2 :: [] ∧ 2 ≠ 4 := by decide

theorem witness_IdleMachineWaits :
    State.reset.busy = false ∧ State.reset.agenda = [] ∧
      (idleWith [.wait]).busy = false ∧ (idleWith [.wait]).agenda = .wait :: [] ∧
      (idleWith [.core, .wait]).busy = false ∧ (idleWith [.core, .wait]).agenda = .core :: [.wait] := by decide

theorem witness_ResetGivesTheResetValues :
    (busyWith 0x01201300 [.hwReset]).agenda = .hwReset :: [] ∧
      (idleWith [.write 0x0004 4 0x80000006]).agenda = .write 0x0004 4 0x80000006 :: [] ∧
      (0x80000006 : Word).getLsbD 31 = true ∧ (idleWith [.write 0x0004 4 0x80000006]).busy = false ∧
      (busyWith 0 [.write 0x0004 4 0x80000001]).busy = true ∧ (0x80000001 : Word).getLsbD 31 = true ∧
      decode (busyWith 0 [.write 0x0004 4 0x80000001]).cmd = .error .unknownOpcode ∧
      decode (busyWith 0x01201300 [.hwReset]).cmd = .ok (.madd 2 0 1 3) ∧
      exec (.madd 2 0 1 3) (busyWith 0x01201300 [.hwReset]) =
        .next (after (.madd 2 0 1 3) (busyWith 0x01201300 [.hwReset])) :=
  ⟨by decide, by decide, by decide, by decide, by decide, by decide, by decide, ok_sample, exec_after _ _⟩

theorem witness_StepKeepsStateInv :
    stateInv { idleWith [.write 0x5400 4 0x00020000] with mem := [(0x5000, 0x48), (0x5CFF, 0x69)], busy := false } ∧
      step (idleWith [.write 0x5400 4 0x00020000]) = .next (nextOf (step (idleWith [.write 0x5400 4 0x00020000]))) := by
  refine ⟨⟨by decide, ?_, by decide, by decide, by decide, by decide⟩, rfl⟩
  intro c hc
  simp only [List.mem_cons, List.not_mem_nil, or_false] at hc
  rcases hc with rfl | rfl
  · exact ⟨0, by decide⟩
  · exact ⟨3, by decide⟩

theorem witness_IllegalWordFaults :
    (busyWith 0x09000000 []).busy = true ∧ (busyWith 0x09000000 []).agenda = [] ∧
      (busyWith 0x18002000 [.core, .read 0x000C 4]).agenda = .core :: [.read 0x000C 4] ∧
      (busyWith 0x09000000 [.wait, .read 0x000C 4]).agenda = .wait :: [.read 0x000C 4] ∧
      (∀ row ∈ opTable, row.holds (busyWith 0x09000000 []).cmd = false) ∧
      (busyWith 0x18002000 []).cmd = encode (.rsakg 0 0 2) := by decide

theorem witness_CtrlWriteActions :
    (idleWith [.write 0x0004 4 0x6]).agenda = .write 0x0004 4 0x6 :: [] ∧ (idleWith [.write 0x0004 4 0x6]).busy = false ∧
      (0x6 : Word).getLsbD 31 = false ∧ (0x80000001 : Word).getLsbD 31 = true ∧
      (busyWith 0 [.write 0x0004 4 0x6]).busy = true ∧ (0x6 : Word).getLsbD 1 = true := by decide

theorem witness_FaultLatchDropsCommands :
    let w := Event.write 0x0010 4 0x01500200
    let s : State := { idleWith [w] with fault := true, errcode := 0x10 }
    let u : State := { idleWith [.write 0x0004 4 0x00000004, w] with fault := true, errcode := 0x10 }
    (s.busy = false ∧ s.fault = true ∧ s.agenda = w :: []) ∧
      (u.busy = false ∧ u.fault = true ∧ u.agenda = .write 0x0004 4 0x00000004 :: w :: []) := by decide

theorem witness_IrqFollowsCompletion :
    exec (.pdbl 0 0) State.reset = .next (nextOf (exec (.pdbl 0 0) State.reset)) ∧
      (idleWith [.write 0x0010 4 1]).busy = false ∧ (idleWith [.write 0x0010 4 1]).fault = false ∧
      (idleWith [.write 0x0010 4 1]).agenda = .write 0x0010 4 1 :: [] ∧ (0x3 : Word).getLsbD 31 = false ∧
      (idleWith [.write 0x0004 4 0x3]).agenda = .write 0x0004 4 0x3 :: [] ∧
      (idleWith [.hwReset]).agenda = .hwReset :: [] := ⟨exec_after _ _, by decide⟩

/-- The first and the last word of a register. -/
theorem witness_IntegerWindowIsBigEndian :
    State.reset.busy = false ∧ 0 < Config.opw / 32 ∧ 63 < Config.opw / 32 ∧
      (idleWith [.read 0x2CFC 4]).agenda = .read (0x1000 + 0x400 * (7 : RegIx).val + 4 * 63) 4 :: [] ∧
      (idleWith [.write 0x1000 4 43]).agenda = .write (0x1000 + 0x400 * (0 : RegIx).val + 4 * 0) 4 43 :: [] := by decide

theorem witness_CoordinateWindowIsBigEndian :
    State.reset.busy = false ∧ 0 < 8 ∧ 7 < 8 ∧
      (idleWith [.write 0x40DC 4 43]).agenda = .write (0x4000 + 0x40 * (3 : PtIx).val + 4 * 7) 4 43 :: [] ∧
      (idleWith [.write 0x40FC 4 43]).agenda = .write (0x4000 + 0x40 * (3 : PtIx).val + 0x20 + 4 * 7) 4 43 :: [] := by
  decide

theorem witness_BufferWindowCarriesFourBytes :
    State.reset.busy = false ∧ 0 < Config.bufCap ∧ 252 < Config.bufCap ∧ 252 % 4 = 0 ∧
      (idleWith [.write 0x5CFC 4 43]).agenda = .write (bufBase 3 + 252) 4 43 :: [] := by decide

theorem witness_NarrowRegistersKeepTheirBits :
    State.reset.busy = false ∧ (idleWith [.write 0x0014 4 0xFFFFFFFF]).agenda = .write 0x0014 4 0xFFFFFFFF :: [] ∧
      (idleWith [.write 0x002C 4 0xFFFFFFFF]).agenda = .write (0x0020 + 4 * (3 : BufIx).val) 4 0xFFFFFFFF :: [] ∧
      (idleWith [.write 0x0018 4 0xFFFFFFFF]).agenda = .write 0x0018 4 0xFFFFFFFF :: [] := by decide

/-- The first and last offsets of every unmapped range. -/
theorem witness_UnmappedAndReadOnlyOffsets :
    State.reset.busy = false ∧ (∀ off ∈ [0x001C, 0x0030, 0x0FFC, 0x1100, 0x13FC, 0x2FFC, 0x3000, 0x3FFC, 0x4100, 0x4FFC,
        0x5100, 0x5FFC], off < 0x6000 ∧ off % 4 = 0 ∧
      (off = 0x001C ∨ (0x0030 ≤ off ∧ off < 0x1000) ∨
        (0x1000 ≤ off ∧ off < 0x3000 ∧ Config.bufCap ≤ (off - 0x1000) % 0x400) ∨ (0x3000 ≤ off ∧ off < 0x4000) ∨
        (0x4100 ≤ off ∧ off < 0x5000) ∨ (0x5000 ≤ off ∧ Config.bufCap ≤ (off - 0x5000) % 0x400))) ∧
      (idleWith [.write 0x0008 4 7]).agenda = .write 0x0008 4 7 :: [] := by decide +kernel

theorem witness_ReadsHaveNoSideEffect :
    (idleWith [.read 0x5FFC 4]).busy = false ∧ 0x5FFC < 0x6000 ∧ 0x5FFC % 4 = 0 ∧
      (idleWith [.read 0x5FFC 4]).agenda = .read 0x5FFC 4 :: [] ∧
      step (idleWith [.read 0x5FFC 4]) = .next (nextOf (step (idleWith [.read 0x5FFC 4]))) :=
  ⟨rfl, by decide, by decide, rfl, rfl⟩

/-- Modulus 0, the least positive modulus, and the greatest; for the five ring and power commands and MRAND. -/
theorem witness_modulus_clauses :
    State.reset.reg 3 = 0 ∧ 0 < (ints [(3, 1)]).reg 3 ∧ 0 < (ints [(3, 2 ^ 2048 - 1)]).reg 3 := by decide +kernel
theorem witness_AddWritesTheResidueOfTheSum : State.reset.reg 3 = 0 ∧ 0 < (ints [(3, 1)]).reg 3 := by decide +kernel
theorem witness_SubWritesTheResidueOfTheDifference : State.reset.reg 3 = 0 ∧ 0 < (ints [(3, 1)]).reg 3 := by decide +kernel
theorem witness_MulWritesTheResidueOfTheProduct : State.reset.reg 3 = 0 ∧ 0 < (ints [(3, 1)]).reg 3 := by decide +kernel
theorem witness_NegWritesTheAdditiveInverse : State.reset.reg 3 = 0 ∧ 0 < (ints [(3, 1)]).reg 3 := by decide +kernel
theorem witness_PowWritesTheResidueOfThePower : State.reset.reg 3 = 0 ∧ 0 < (ints [(3, 1)]).reg 3 := by decide +kernel
theorem witness_RandomElementIsBelowTheModulus : State.reset.reg 3 = 0 ∧ 0 < (ints [(3, 1)]).reg 3 := by decide +kernel

theorem witness_InverseIsWrittenExactlyWhenItExists :
    State.reset.reg 3 = 0 ∧ (0 < (ints [(0, 6), (3, 9)]).reg 3 ∧ Nat.gcd ((ints [(0, 6), (3, 9)]).reg 0) 9 ≠ 1) ∧
      (0 < (ints [(3, 1)]).reg 3 ∧ Nat.gcd ((ints [(3, 1)]).reg 0) ((ints [(3, 1)]).reg 3) = 1) ∧
      Nat.gcd ((ints [(0, 17), (3, 43)]).reg 0) ((ints [(0, 17), (3, 43)]).reg 3) = 1 := by decide +kernel

theorem witness_FermatInverseIsThePower :
    (ints [(3, 1)]).reg 3 < 2 ∧ (2 ≤ (ints [(3, 2)]).reg 3 ∧ (ints [(3, 2)]).reg 0 % (ints [(3, 2)]).reg 3 = 0) ∧
      (2 ≤ (ints [(0, 3), (3, 2)]).reg 3 ∧ (ints [(0, 3), (3, 2)]).reg 0 % (ints [(0, 3), (3, 2)]).reg 3 ≠ 0) := by
  decide +kernel

theorem witness_InversesAgreeOnPrimeModuli : Nat.Prime ((ints [(0, 17), (3, 43)]).reg 3) := by
  have h : (ints [(0, 17), (3, 43)]).reg 3 = 43 := by decide +kernel
  rw [h]; norm_num

theorem witness_ModularResultsAreBelowTheModulus :
    exec (.madd 3 0 1 2) (ints [(0, 40), (1, 10), (2, 43)]) = .next (after (.madd 3 0 1 2) (ints [(0, 40), (1, 10), (2, 43)])) ∧
      completed (ints [(0, 40), (1, 10), (2, 43)]) (after (.madd 3 0 1 2) (ints [(0, 40), (1, 10), (2, 43)])) ∧
      (ints [(0, 40), (1, 10), (2, 43)]).fault = false :=
  ⟨exec_after _ _, ⟨by decide +kernel, by decide +kernel, by decide +kernel, by decide +kernel⟩, by decide +kernel⟩

theorem witness_ModulusZeroFaultsAndModulusOneGivesZero :
    State.reset.reg 3 = 0 ∧ (ints [(3, 1)]).reg 3 = 1 := by decide +kernel

/-- E_PARAM: a size that is no multiple of 8, one byte above the capacity, a length above it. E_MSGLONG: one byte over at 88
bits. Success: nothing at 88 bits, 245 bytes at 2048. -/
theorem witness_PadWritesThePaddedBlock :
    (keyBits 100 State.reset).kbits.toNat % 8 ≠ 0 ∧ Config.bufCap < (keyBits 2056 State.reset).kbits.toNat / 8 ∧
      lengthTooLarge (lengthOf 0 257 State.reset) 0 ∧
      (let s := keyBits 88 (State.reset.setBuf 0 [0x41]);
        s.kbits.toNat % 8 = 0 ∧ s.kbits.toNat / 8 ≤ Config.bufCap ∧ ¬ lengthTooLarge s 0 ∧
          s.kbits.toNat / 8 < s.bufLen 0 + 11) ∧
      (let s := keyBits 88 State.reset;
        s.kbits.toNat % 8 = 0 ∧ s.kbits.toNat / 8 ≤ Config.bufCap ∧ s.bufLen 0 + 11 ≤ s.kbits.toNat / 8) ∧
      (let s := keyBits 2048 (lengthOf 0 245 State.reset);
        s.kbits.toNat % 8 = 0 ∧ s.kbits.toNat / 8 ≤ Config.bufCap ∧ s.bufLen 0 + 11 ≤ s.kbits.toNat / 8) := by
  decide +kernel

/-- The separator at its least offset, a later one, and none (an empty sequence). -/
theorem witness_UnpadWritesWhatFollowsTheSeparator :
    lengthTooLarge (lengthOf 0 257 State.reset) 0 ∧
      (¬ lengthTooLarge (State.reset.setBuf 0 [0x00, 0x02, 0x00]) 0 ∧
        separatorAt ((State.reset.setBuf 0 [0x00, 0x02, 0x00]).bufBytes 0) 2) ∧
      separatorAt ((State.reset.setBuf 0 [0x00, 0x02, 0xAA, 0x00, 0x00, 0x41]).bufBytes 0) 3 ∧
      (¬ lengthTooLarge State.reset 0 ∧ ∀ i, ¬ separatorAt (State.reset.bufBytes 0) i) := by
  refine ⟨by decide +kernel, ⟨by decide +kernel, by decide +kernel, by decide +kernel, le_refl _, by decide +kernel,
    fun j h1 h2 => absurd h2 (by omega)⟩, ⟨by decide +kernel, by decide +kernel, by decide, by decide +kernel, ?_⟩,
    by decide +kernel, fun i h => ?_⟩
  · intro j h1 h2
    obtain rfl : j = 2 := by omega
    decide +kernel
  · have h0 := h.1
    revert h0
    decide +kernel

theorem witness_PadThenUnpadRestoresTheMessage :
    (let s := keyBits 88 State.reset;
      s.kbits.toNat % 8 = 0 ∧ s.kbits.toNat / 8 ≤ Config.bufCap ∧ s.bufLen 0 + 11 ≤ s.kbits.toNat / 8) ∧
      (let s := keyBits 88 (State.reset.setBuf 0 [0x41]);
        s.kbits.toNat / 8 < s.bufLen 0 + 11 ∧ ¬ lengthTooLarge s 0) := by decide +kernel

/-- The least and the greatest key size. -/
theorem witness_KeygenWritesAValidKeyOrExhausts :
    (0 : RegIx) ≠ 1 ∧ (∀ n ∈ [4, 2048], (keyBits n State.reset).kbits.toNat % 2 = 0 ∧
      4 ≤ (keyBits n State.reset).kbits.toNat ∧ (keyBits n State.reset).kbits.toNat ≤ Config.opw) ∧
      (2 ≤ 2 ∧ Nat.gcd 65537 (2 - 1) = 1) ∧ 2 ≤ 149 ∧ Nat.gcd 3 (149 - 1) = 1 := by decide +kernel

/-- Draws 0D and 02 with `e = 3` at 16 bits: the primes 149 and 131. -/
theorem witness_KeygenCompletesOnTwoGoodDraws :
    let s := keyBits 16 (fed [0x0D, 0x02] (ints [(2, 3)]))
    (0 : RegIx) ≠ 1 ∧ s.kbits.toNat % 2 = 0 ∧ 4 ≤ s.kbits.toNat ∧ s.kbits.toNat ≤ Config.opw ∧
      149 = candidate (s.kbits.toNat / 2) s.rng ∧
      131 = candidate (s.kbits.toNat / 2) (afterCandidate (s.kbits.toNat / 2) s.rng) ∧
      bitlen 149 = s.kbits.toNat / 2 ∧ bitlen 131 = s.kbits.toNat / 2 ∧ Nat.gcd (s.reg 2) (149 - 1) = 1 ∧
      Nat.gcd (s.reg 2) (131 - 1) = 1 ∧ 2 ^ (s.kbits.toNat / 2) ≤ distance 149 131 * 2 ^ 100 := by decide +kernel

theorem witness_KeygenRejectsItsOperands :
    (0 : RegIx) = 0 ∧ (0 : RegIx) ≠ 1 ∧ (keyBits 17 State.reset).kbits.toNat % 2 ≠ 0 ∧
      (keyBits 2 State.reset).kbits.toNat < 4 ∧ Config.opw < (keyBits 2050 State.reset).kbits.toNat := by decide +kernel

theorem witness_KeygenExhaustsOnEvenExponents :
    (0 : RegIx) ≠ 1 ∧ (let s := keyBits 2048 State.reset;
      s.kbits.toNat % 2 = 0 ∧ 4 ≤ s.kbits.toNat ∧ s.kbits.toNat ≤ Config.opw ∧ s.reg 2 % 2 = 0) ∧
      (let s := keyBits 4 (ints [(2, 3)]);
        s.kbits.toNat % 2 = 0 ∧ 4 ≤ s.kbits.toNat ∧ s.kbits.toNat ≤ Config.opw ∧ s.reg 2 % 2 = 1 ∧
          s.kbits.toNat = 4) := by decide +kernel

/-- E_PARAM on a zero modulus and on a length; E_MSGLONG on ten modulus bytes; success on eleven. -/
theorem witness_EncryptWritesTheMinimalCiphertext :
    State.reset.reg 0 = 0 ∧ lengthTooLarge (lengthOf 0 257 State.reset) 0 ∧
      (let s := ints [(0, 2 ^ 80 - 1)];
        0 < s.reg 0 ∧ ¬ lengthTooLarge s 0 ∧ (bitlen (s.reg 0) + 7) / 8 < s.bufLen 0 + 11) ∧
      (let s := ints [(0, 2 ^ 80)];
        0 < s.reg 0 ∧ s.bufLen 0 + 11 ≤ (bitlen (s.reg 0) + 7) / 8) := by decide +kernel

/-- `d = 1` and the ciphertext `02 00 41`: the block `00 02 00 41`; and an empty ciphertext: the block `00`. -/
theorem witness_DecryptUnpadsThePower :
    (let s := (ints [(0, 2 ^ 88), (1, 1)]).setBuf 0 [0x02, 0x00, 0x41];
      0 < s.reg 0 ∧ ¬ lengthTooLarge s 0 ∧
        [0x00, 0x02, 0x00, 0x41] = 0x00 :: i2beMin (be (s.bufBytes 0) ^ s.reg 1 % s.reg 0)) ∧
      separatorAt [0x00, 0x02, 0x00, 0x41] 2 ∧
      (let s := ints [(0, 1), (1, 1)];
        0 < s.reg 0 ∧ ¬ lengthTooLarge s 0 ∧ [0x00] = 0x00 :: i2beMin (be (s.bufBytes 0) ^ s.reg 1 % s.reg 0)) ∧
      (∀ i, ¬ separatorAt [0x00] i) ∧ State.reset.reg 0 = 0 ∧ lengthTooLarge (lengthOf 0 257 State.reset) 0 :=
  ⟨by decide +kernel, ⟨rfl, rfl, le_refl _, rfl, fun j h1 h2 => absurd h2 (by omega)⟩, by decide +kernel,
    fun _ h => absurd h.2.1 (by decide), by decide +kernel, by decide +kernel⟩

/-- Two primes of 160 and 150 bits (Laws/CurvePrime.lean), `e = 65537`, and its inverse modulo the lcm. -/
theorem witness_DecryptOfEncryptRestoresTheMessage :
    let p := 835945042244614951780389953367877943453916927241
    let q := 774023187263532362759620327192479577272145303
    let s := (ints [(0, p * q), (1, 65537),
      (2, 18438754799369061159015930612112760634783917190345451101474059601607999081926029931948126233)]).setBuf 0 [0x48, 0x69]
    Nat.Prime p ∧ Nat.Prime q ∧ p ≠ q ∧ s.reg 0 = p * q ∧
      s.reg 1 * s.reg 2 % Nat.lcm (p - 1) (q - 1) = 1 % Nat.lcm (p - 1) (q - 1) ∧
      s.bufLen 0 + 11 ≤ (bitlen (s.reg 0) + 7) / 8 :=
  ⟨prime_835945042244614951780389953367877943453916927241, prime_774023187263532362759620327192479577272145303,
    by decide +kernel, by decide +kernel, by decide +kernel, by decide +kernel⟩

/-- G in `pt[0]`, `O` in `pt[1]`, -G in `pt[2]`, and an x-coordinate equal to p in `pt[3]`. -/
def curvePoints : State := points [(0, gPoint), (2, gNeg), (3, .affine Config.curve.p 1)]

theorem pointIs_base : pointIs Config.curve curvePoints 0 gPoint := by
  show _ ∧ _
  decide +kernel

theorem witness_PointAdditionFollowsTheCases :
    pointOutOfRange Config.curve curvePoints 3 ∧ pointIs Config.curve curvePoints 0 gPoint ∧
      pointIs Config.curve curvePoints 1 .inf ∧ pointIs Config.curve curvePoints 2 gNeg ∧
      pointIs Config.curve (points [(0, .affine 1 1), (1, .affine 1 2)]) 0 (.affine 1 1) ∧
      pointIs Config.curve (points [(0, .affine 1 1), (1, .affine 1 2)]) 1 (.affine 1 2) := by
  refine ⟨?_, pointIs_base, ?_, ?_, ?_, ?_⟩
  · show _ ∧ (_ ∨ _); decide +kernel
  · show _ = true; decide +kernel
  all_goals (show _ ∧ _; decide +kernel)

theorem witness_DoublingRaisesNothingButParam :
    pointOutOfRange Config.curve curvePoints 3 ∧ pointIs Config.curve curvePoints 0 gPoint ∧
      pointIs Config.curve (points [(0, .affine 5 0)]) 0 (.affine 5 0) ∧ pointIs Config.curve curvePoints 1 .inf :=
  ⟨witness_PointAdditionFollowsTheCases.1, pointIs_base, by show _ ∧ _; decide +kernel,
    witness_PointAdditionFollowsTheCases.2.2.1⟩

theorem witness_NegationMirrorsThePoint :
    pointOutOfRange Config.curve curvePoints 3 ∧ pointIs Config.curve curvePoints 0 gPoint ∧
      pointIs Config.curve curvePoints 1 .inf :=
  ⟨witness_PointAdditionFollowsTheCases.1, pointIs_base, witness_PointAdditionFollowsTheCases.2.2.1⟩

theorem witness_OperationsStayOnTheCurve :
    admissibleCurve Config.curve ∧ gPoint.onCurve Config.curve ∧ Point.inf.onCurve Config.curve :=
  ⟨curve_admissible, generator_onCurve, trivial⟩

theorem witness_PointAdditionHasIdentityInverseAndCommutes :
    admissibleCurve Config.curve ∧ gPoint.inRange Config.curve ∧ (Point.affine 1 1).inRange Config.curve :=
  ⟨curve_admissible, generator_onCurve.1, by show _ ∧ _; decide +kernel⟩

theorem witness_ScalarMultiplicationsComplete :
    Instr.smulm 1 0 4 ∈ [Instr.smul 1 0 4, .smulm 1 0 4] ∧ pointOutOfRange Config.curve curvePoints 3 ∧
      pointIs Config.curve curvePoints 0 gPoint ∧ gPoint.onCurve Config.curve ∧ curvePoints.reg 4 = 0 ∧
      pointIs Config.curve curvePoints 1 .inf :=
  ⟨by decide, witness_PointAdditionFollowsTheCases.1, pointIs_base, generator_onCurve, by decide +kernel,
    witness_PointAdditionFollowsTheCases.2.2.1⟩

theorem witness_ScalarMultiplicationsAgree :
    pointIs Config.curve curvePoints 0 gPoint ∧ gPoint.onCurve Config.curve := ⟨pointIs_base, generator_onCurve⟩

theorem witness_SharedSecretIsTheXCoordinate :
    pointOutOfRange Config.curve curvePoints 3 ∧ pointIs Config.curve curvePoints 0 gPoint ∧ curvePoints.reg 1 = 0 ∧
      pointIs Config.curve curvePoints 1 .inf :=
  ⟨witness_PointAdditionFollowsTheCases.1, pointIs_base, by decide +kernel, witness_PointAdditionFollowsTheCases.2.2.1⟩

theorem witness_KeyAgreementGivesTheSameSecret : (0 : PtIx) ≠ 1 ∧ (0 : RegIx) ≠ 1 := by decide

theorem witness_CommandsChangeOnlyTheirDestinations :
    exec (.minv 1 0 2) State.reset = .next (after (.minv 1 0 2) State.reset) ∧ draws (.minv 1 0 2) = false := ⟨exec_after _ _, rfl⟩

theorem witness_CommandsRaiseOnlyTheirCodes : exec (.eckg 0 0) State.reset = .next (after (.eckg 0 0) State.reset) := exec_after _ _

end Sys2Proof.Tests
end

/-! The host's accesses as steps, and what they leave of a command in flight (rules R14, R61, R68, R238, R280). The
idea: a defined access while BUSY other than the soft reset changes nothing but the agenda, the host's read values and
`IE`, and none of the three is an operand or part of the record of the command. -/

namespace Sys2Proof.Machine

/-! ### One host access as one step -/

theorem step_of_read {s : State} {off width : Nat} {rest : List Event} (h : s.agenda = .read off width :: rest) :
    step s = hostRead { s with agenda := rest } off width := by
  simp only [step, advance, h]

theorem step_of_write {s : State} {off width : Nat} {v : Word} {rest : List Event}
    (h : s.agenda = .write off width v :: rest) : step s = hostWrite { s with agenda := rest } off width v := by
  simp only [step, advance, h]

/-! ### When an access is defined, and the state it answers -/

theorem hostRead_next_cases {s t : State} {off width : Nat} (h : hostRead s off width = .next t) :
    (windowSize ≤ off ∧ t = s) ∨
      (off < windowSize ∧ width = 4 ∧ off % 4 = 0 ∧ (s.busy = true → readableWhileBusy off = true) ∧
        t = { s with reads := s.reads ++ [s.windowRead off] }) := by
  unfold hostRead at h
  split at h
  case isTrue houtside => cases h; exact .inl ⟨houtside, rfl⟩
  case isFalse hinside =>
    split at h
    case isTrue => cases h
    case isFalse haligned =>
      split at h
      case isTrue => cases h
      case isFalse hdefined =>
        cases h
        exact .inr ⟨by omega, by omega, by omega, fun hb => by simpa [hb] using hdefined, rfl⟩

theorem hostWrite_next_cases {s t : State} {off width : Nat} {v : Word} (h : hostWrite s off width v = .next t) :
    (windowSize ≤ off ∧ t = s) ∨
      (off < windowSize ∧ width = 4 ∧ off % 4 = 0 ∧ (s.busy = true → writableWhileBusy off v = true) ∧
        t = s.windowWrite off v) := by
  unfold hostWrite at h
  split at h
  case isTrue houtside => cases h; exact .inl ⟨houtside, rfl⟩
  case isFalse hinside =>
    split at h
    case isTrue => cases h
    case isFalse haligned =>
      split at h
      case isTrue => split at h <;> cases h
      case isFalse hdefined =>
        cases h
        exact .inr ⟨by omega, by omega, by omega, fun hb => by simpa [hb] using hdefined, rfl⟩

/-! ### The one register a busy PCC lets the host write -/

theorem writableWhileBusy_iff {off : Nat} {v : Word} :
    writableWhileBusy off v = true ↔ winReg off = .ctrl ∧ v.getLsbD 1 = false ∧ v.getLsbD 2 = false := by
  unfold writableWhileBusy
  split <;> simp_all

/-- `IE` is all a `CTRL` write sets when it carries no action bit (rule R34). -/
theorem writeCtrl_of_no_action {v : Word} (s : State) (hclrd : v.getLsbD 1 = false) (hclrf : v.getLsbD 2 = false)
    (hsrst : v.getLsbD 31 = false) : s.writeCtrl v = { s with ie := v.getLsbD 0 } := by
  simp only [State.writeCtrl, hclrd, hclrf, hsrst, Bool.false_eq_true, if_false]

theorem windowWrite_of_writableWhileBusy {off : Nat} {v : Word} (s : State) (hw : writableWhileBusy off v = true)
    (hsrst : v.getLsbD 31 = false) : s.windowWrite off v = { s with ie := v.getLsbD 0 } := by
  obtain ⟨hctrl, hclrd, hclrf⟩ := writableWhileBusy_iff.mp hw
  simp only [State.windowWrite, hctrl]
  exact writeCtrl_of_no_action s hclrd hclrf hsrst

/-! ### A busy PCC under the host's accesses -/

theorem step_read_frame {s t : State} {off width : Nat} {rest : List Event}
    (ha : s.agenda = .read off width :: rest) (ht : step s = .next t) :
    ∃ rs, t = { s with agenda := rest, reads := rs } := by
  rw [step_of_read ha] at ht
  obtain ⟨-, rfl⟩ | ⟨-, -, -, -, rfl⟩ := hostRead_next_cases ht
  · exact ⟨s.reads, rfl⟩
  · exact ⟨_, rfl⟩

theorem step_write_frame_of_busy {s t : State} {off width : Nat} {v : Word} {rest : List Event} (hb : s.busy = true)
    (ha : s.agenda = .write off width v :: rest) (hsrst : v.getLsbD 31 = false) (ht : step s = .next t) :
    ∃ b, t = { s with agenda := rest, ie := b } := by
  rw [step_of_write ha] at ht
  obtain ⟨-, rfl⟩ | ⟨-, -, -, hw, rfl⟩ := hostWrite_next_cases ht
  · exact ⟨s.ie, rfl⟩
  · exact ⟨_, windowWrite_of_writableWhileBusy _ (hw hb) hsrst⟩

/-- Settles O9: the two frames above name every field an access can change, and none of them is an operand or the record
of the command. -/
theorem busyWindowKeepsTheOperands : Obligations.BusyWindowKeepsTheOperands := by
  intro s t e rest hb ha he ht
  obtain ⟨off, width, rfl⟩ | ⟨off, width, v, rfl, hsrst⟩ := he
  · obtain ⟨rs, rfl⟩ := step_read_frame ha ht
    exact ⟨rfl, rfl, rfl, rfl, rfl, rfl, rfl, hb, rfl, rfl, rfl⟩
  · obtain ⟨b, rfl⟩ := step_write_frame_of_busy hb ha hsrst ht
    exact ⟨rfl, rfl, rfl, rfl, rfl, rfl, rfl, hb, rfl, rfl, rfl⟩

end Sys2Proof.Machine

/-! What one command may write. The idea: every command's effect is a chain of destination writes on the state with its
source moved forward, so a frame or an invariant of all 20 commands is an induction over that chain (rules R20, R22, R31,
R41, R239, R240). -/

namespace Sys2Proof.Machine

/-! ### The effect of a command -/

/-- What a command comes to, before its end is recorded; `exec_eq_finish` ties it to `exec`. -/
def effectOf (i : Instr) (s : State) : Effect :=
  match i with
  | .madd rd rs1 rs2 rm => s.putReg rd (modAdd (s.reg rs1) (s.reg rs2) (s.reg rm))
  | .msub rd rs1 rs2 rm => s.putReg rd (modSub (s.reg rs1) (s.reg rs2) (s.reg rm))
  | .mmul rd rs1 rs2 rm => s.putReg rd (modMul (s.reg rs1) (s.reg rs2) (s.reg rm))
  | .mneg rd rs1 rm => s.putReg rd (modNeg (s.reg rs1) (s.reg rm))
  | .mpow rd rs1 rs2 rm => s.putReg rd (modPowChecked (s.reg rs1) (s.reg rs2) (s.reg rm))
  | .minv rd rs1 rm => s.putReg rd (modInvChecked (s.reg rs1) (s.reg rm))
  | .minvf rd rs1 rm => s.putReg rd (modInvFermat (s.reg rs1) (s.reg rm))
  | .mrand rd rm => randomEffect s rd (s.reg rm)
  | .pkpad bd bs => padEffect s bd bs
  | .pkunpad bd bs => s.putBuf bd ((s.buf bs).bind unpad)
  | .rsakg rdn rdd re => keygenEffect Config.keygenRetryMax s rdn rdd re
  | .rsaenc bd bs rx rn => encryptEffect s bd bs (s.reg rx) (s.reg rn)
  | .rsadec bd bs rx rn => s.putBuf bd (decryptValue s bs (s.reg rx) (s.reg rn))
  | .padd pd ps1 ps2 => s.putPoint pd (addValue s Config.curve ps1 ps2)
  | .pdbl pd ps => s.putPoint pd ((s.point Config.curve ps).bind (pointDouble Config.curve))
  | .pneg pd ps => s.putPoint pd ((s.point Config.curve ps).map (pointNeg Config.curve))
  | .smul pd ps rk => s.putPoint pd ((s.point Config.curve ps).bind (scalarMulDA Config.curve (s.reg rk)))
  | .smulm pd ps rk => s.putPoint pd ((s.point Config.curve ps).bind (scalarMulML Config.curve (s.reg rk)))
  | .eckg pd rk => eckgEffect s Config.curve pd rk
  | .ecdh bd ps rk => s.putBuf bd
      (((s.point Config.curve ps).bind (scalarMulDA Config.curve (s.reg rk))).bind secretOf)

theorem exec_eq_finish (i : Instr) (s : State) : exec i s = .next (s.finish (effectOf i s)) := by
  cases i <;> rfl

/-! ### The source and the destinations of a command -/

/-- How a command may leave the source (rule R41): forward only, its answers as they were, and in place unless it draws. -/
def sourceMoves (i : Instr) (g g' : Rng) : Prop :=
  (draws i = false → g' = g) ∧ g'.given = g.given ∧ g.pos ≤ g'.pos

theorem sourceMoves_refl (i : Instr) (g : Rng) : sourceMoves i g g := ⟨fun _ => rfl, rfl, le_rfl⟩

theorem sourceMoves_skip {i : Instr} (hd : draws i = true) (g : Rng) (n : Nat) : sourceMoves i g (g.skip n) :=
  ⟨fun h => by simp [hd] at h, rfl, Nat.le_add_right _ _⟩

theorem sourceMoves_randBelowRest {i : Instr} (hd : draws i = true) (m : Nat) (g : Rng) :
    sourceMoves i g (randBelowRest m g) :=
  ⟨fun h => by simp [hd] at h, rfl, Nat.le_add_right _ _⟩

/-- The states command `i` can have written from `s`: the source moved, then writes to its own destinations, each sequence
within the capacity of its buffer. -/
inductive Writes (i : Instr) (s : State) : State → Prop
  | source {g : Rng} : sourceMoves i s.rng g → Writes i s { s with rng := g }
  | reg {t : State} {rd : RegIx} (v : Nat) : Writes i s t → rd ∈ destRegs i → Writes i s (t.setReg rd v)
  | point {t : State} {pd : PtIx} (p : Point) : Writes i s t → pd ∈ destPoints i → Writes i s (t.setPoint pd p)
  | buf {t : State} {bd : BufIx} {bs : List Byte} : Writes i s t → bd ∈ destBufs i → bs.length ≤ Config.bufCap →
      Writes i s (t.setBuf bd bs)

theorem Writes.refl (i : Instr) (s : State) : Writes i s s := .source (sourceMoves_refl i s.rng)

/-- The effect writes destinations of `i` only, or is a fault that leaves the source where `i` may leave it. -/
inductive EffectWithin (i : Instr) (s : State) : Effect → Prop
  | completes {t : State} : Writes i s t → EffectWithin i s (.ok t)
  | faults {e : ErrCode} {g : Rng} : sourceMoves i s.rng g → EffectWithin i s (.error (e, g))

theorem EffectWithin.faults_undrawn (i : Instr) (s : State) (e : ErrCode) : EffectWithin i s (.error (e, s.rng)) :=
  .faults (sourceMoves_refl i s.rng)

theorem putReg_within {i : Instr} {rd : RegIx} (s : State) (x : Except ErrCode Nat) (h : rd ∈ destRegs i) :
    EffectWithin i s (s.putReg rd x) := by
  cases x with
  | error e => exact .faults_undrawn i s e
  | ok v => exact .completes ((Writes.refl i s).reg v h)

theorem putPoint_within {i : Instr} {pd : PtIx} (s : State) (x : Except ErrCode Point) (h : pd ∈ destPoints i) :
    EffectWithin i s (s.putPoint pd x) := by
  cases x with
  | error e => exact .faults_undrawn i s e
  | ok p => exact .completes ((Writes.refl i s).point p h)

theorem putBuf_within {i : Instr} {bd : BufIx} (s : State) {x : Except ErrCode (List Byte)} (h : bd ∈ destBufs i)
    (hlen : ∀ bs, x = .ok bs → bs.length ≤ Config.bufCap) : EffectWithin i s (s.putBuf bd x) := by
  cases x with
  | error e => exact .faults_undrawn i s e
  | ok bs => exact .completes ((Writes.refl i s).buf h (hlen bs rfl))

/-- What `putBufDrawn` may be given: a sequence within the capacity, and a source moved as `i` may move it. -/
inductive DrawnWithin (i : Instr) (g : Rng) : Except (ErrCode × Rng) (List Byte × Rng) → Prop
  | bytes {bs : List Byte} {g' : Rng} : bs.length ≤ Config.bufCap → sourceMoves i g g' → DrawnWithin i g (.ok (bs, g'))
  | faults {e : ErrCode} {g' : Rng} : sourceMoves i g g' → DrawnWithin i g (.error (e, g'))

theorem putBufDrawn_within {i : Instr} {bd : BufIx} (s : State) {x : Except (ErrCode × Rng) (List Byte × Rng)}
    (h : bd ∈ destBufs i) (hx : DrawnWithin i s.rng x) : EffectWithin i s (s.putBufDrawn bd x) := by
  cases hx with
  | bytes hlen hsrc => exact .completes ((Writes.source hsrc).buf h hlen)
  | faults hsrc => exact .faults hsrc

/-! ### The sequences commands write are within the capacity of a buffer -/

theorem bufBytes_le_bufCap {s : State} {k : BufIx} {bs : List Byte} (h : s.buf k = .ok bs) :
    bs.length ≤ Config.bufCap := by
  obtain ⟨-, he⟩ | ⟨hle, hok, hlen⟩ := buf_cases s k
  · rw [he] at h; cases h
  · rw [hok] at h; cases h; omega

theorem afterSeparator_length {bs msg : List Byte} (h : afterSeparator bs = some msg) : msg.length ≤ bs.length := by
  induction bs with
  | nil => cases h
  | cons b bs ih =>
    rw [afterSeparator] at h
    split at h
    case isTrue => cases h; simp
    case isFalse => exact (ih h).trans (Nat.le_succ _)

/-- Unpad drops the two leading bytes at least (rule R153). -/
theorem unpad_length {bs msg : List Byte} (h : unpad bs = .ok msg) : msg.length + 2 ≤ bs.length := by
  match bs with
  | [] | [_] => cases h
  | b0 :: b1 :: rest =>
    rw [unpad] at h
    split at h
    case isFalse => cases h
    case isTrue =>
      split at h
      case h_1 hsep => cases h; simpa using afterSeparator_length hsep
      case h_2 => cases h

/-- Pad fails before any draw, or fills its block exactly (rule R151). -/
theorem pad_cases (msg : List Byte) (kbits : Nat) (g : Rng) :
    pad msg kbits g = .error (.msglong, g) ∨
      ∃ bs n, pad msg kbits g = .ok (bs, g.skip n) ∧ bs.length = kbits / 8 := by
  unfold pad
  dsimp only
  split
  · exact .inl rfl
  · refine .inr ⟨_, _, rfl, ?_⟩
    simp only [paddedBlock, List.length_append, List.length_cons, List.length_nil, List.length_map, rngBytes_length]
    omega

theorem i2beMin_length_le {v n : Nat} (h : v < 2 ^ (8 * n)) : (i2beMin v).length ≤ n := by
  have := (bitlen_le_iff v (8 * n)).2 h
  rw [i2beMin_length, bytesFor]
  omega

/-- A residue modulo a register's value fits a buffer: both are `OPW` bits wide (rule R11). -/
theorem i2beMin_modPow_reg_length (s : State) (x y : Nat) {rn : RegIx} (h : s.reg rn ≠ 0) :
    (i2beMin (modPow x y (s.reg rn))).length ≤ Config.bufCap := by
  have hwidth : 8 * Config.bufCap = Config.opw := rfl
  refine i2beMin_length_le ?_
  rw [hwidth, modPow_eq]
  exact (Nat.mod_lt _ (Nat.pos_of_ne_zero h)).trans (reg_lt s rn)

theorem secretOf_length {p : Point} {bs : List Byte} (h : secretOf p = .ok bs) : bs.length = 32 := by
  cases p with
  | inf => cases h
  | affine x y => cases h; exact i2be_length x 32

theorem bind_eq_ok {ε α β : Type} {x : Except ε α} {f : α → Except ε β} {b : β} (h : x.bind f = .ok b) :
    ∃ a, x = .ok a ∧ f a = .ok b := by
  cases x with
  | error e => cases h
  | ok a => exact ⟨a, rfl, h⟩

theorem decryptValue_length {s : State} {bs : BufIx} {d : Nat} {rn : RegIx} {msg : List Byte}
    (h : decryptValue s bs d (s.reg rn) = .ok msg) : msg.length ≤ Config.bufCap := by
  unfold decryptValue at h
  split at h
  case isTrue => cases h
  case isFalse hm =>
    obtain ⟨ct, -, hdec⟩ := bind_eq_ok h
    have hblock := unpad_length hdec
    have hpow := i2beMin_modPow_reg_length s (be ct) d hm
    simp only [List.length_cons] at hblock
    omega

/-! ### The effects that draw -/

theorem randomEffect_within (s : State) (rd rm : RegIx) :
    EffectWithin (.mrand rd rm) s (randomEffect s rd (s.reg rm)) := by
  unfold randomEffect
  split
  · exact .faults_undrawn _ s _
  · exact .completes ((Writes.source (sourceMoves_randBelowRest rfl _ _)).reg _ (by simp [destRegs]))

theorem padEffect_within (s : State) (bd bs : BufIx) : EffectWithin (.pkpad bd bs) s (padEffect s bd bs) := by
  unfold padEffect
  split
  case isTrue => exact .faults_undrawn _ s _
  case isFalse hkbits =>
    split
    case h_1 => exact .faults_undrawn _ s _
    case h_2 msg _ =>
      refine putBufDrawn_within s (by simp [destBufs]) ?_
      obtain h | ⟨block, n, h, hlen⟩ := pad_cases msg s.kbits.toNat s.rng
      · rw [h]; exact .faults (sourceMoves_refl _ _)
      · rw [h]; exact .bytes (by omega) (sourceMoves_skip rfl _ _)

theorem keygenEffect_within (retryMax : Nat) (s : State) (rdn rdd re : RegIx) :
    EffectWithin (.rsakg rdn rdd re) s (keygenEffect retryMax s rdn rdd re) := by
  unfold keygenEffect
  split
  · exact .faults_undrawn _ s _
  · split
    · exact .faults_undrawn _ s _
    · have hdraws := keyPrimes_draws (s.kbits.toNat / 2) (s.reg re) retryMax s.rng
      split
      case h_1 g hg =>
        rw [hg] at hdraws
        obtain rfl | rfl := hdraws <;> exact .faults (sourceMoves_skip rfl _ _)
      case h_2 p q g hg =>
        rw [hg] at hdraws
        obtain ⟨-, -, n, -, -, rfl⟩ := hdraws
        have hsrc : sourceMoves (.rsakg rdn rdd re) s.rng (s.rng.skip (n * bytesFor (s.kbits.toNat / 2))) :=
          sourceMoves_skip rfl _ _
        split
        · exact .faults hsrc
        · exact .completes (((Writes.source hsrc).reg _ (by simp [destRegs])).reg _ (by simp [destRegs]))

theorem rsaEncrypt_drawnWithin {i : Instr} (hd : draws i = true) (s : State) (msg : List Byte) (e : Nat) {rn : RegIx}
    (hm : s.reg rn ≠ 0) : DrawnWithin i s.rng (rsaEncrypt msg e (s.reg rn) s.rng) := by
  unfold rsaEncrypt
  obtain h | ⟨block, n, h, -⟩ := pad_cases msg (8 * bytesFor (bitlen (s.reg rn))) s.rng
  · rw [h]; exact .faults (sourceMoves_refl _ _)
  · rw [h]
    dsimp only
    split
    · exact .faults (sourceMoves_skip hd _ _)
    · exact .bytes (i2beMin_modPow_reg_length s _ _ hm) (sourceMoves_skip hd _ _)

theorem encryptEffect_within (s : State) (bd bs : BufIx) (rx rn : RegIx) :
    EffectWithin (.rsaenc bd bs rx rn) s (encryptEffect s bd bs (s.reg rx) (s.reg rn)) := by
  unfold encryptEffect
  split
  case isTrue => exact .faults_undrawn _ s _
  case isFalse hm =>
    split
    · exact .faults_undrawn _ s _
    · exact putBufDrawn_within s (by simp [destBufs]) (rsaEncrypt_drawnWithin rfl s _ _ hm)

/-- ECKG when its multiplication faults (rule R208). The definition is unfolded before it is applied: the equation of an
applied `eckgEffect` makes the kernel evaluate the ladder on a symbolic scalar. -/
theorem eckgEffect_of_error {s : State} {c : Curve} {e : ErrCode} (pd : PtIx) (rk : RegIx)
    (h : scalarMulML c (ecScalar c (s.rng.bytes 32)) (generator c) = .error e) :
    eckgEffect s c pd rk = .error (e, s.rng.skip 32) := by
  generalize hf : @eckgEffect = f
  delta eckgEffect at hf
  subst hf
  beta_reduce
  rw [h]

/-- ECKG when its multiplication answers; unfolded as in `eckgEffect_of_error`. -/
theorem eckgEffect_of_ok {s : State} {c : Curve} {p : Point} (pd : PtIx) (rk : RegIx)
    (h : scalarMulML c (ecScalar c (s.rng.bytes 32)) (generator c) = .ok p) :
    eckgEffect s c pd rk =
      .ok (({ s with rng := s.rng.skip 32 }.setReg rk (ecScalar c (s.rng.bytes 32))).setPoint pd p) := by
  generalize hf : @eckgEffect = f
  delta eckgEffect at hf
  subst hf
  beta_reduce
  rw [h]

theorem eckgEffect_within (s : State) (c : Curve) (pd : PtIx) (rk : RegIx) :
    EffectWithin (.eckg pd rk) s (eckgEffect s c pd rk) := by
  have hsrc : sourceMoves (.eckg pd rk) s.rng (s.rng.skip 32) := sourceMoves_skip rfl _ _
  cases hmul : scalarMulML c (ecScalar c (s.rng.bytes 32)) (generator c) with
  | error e =>
    rw [eckgEffect_of_error pd rk hmul]
    exact .faults hsrc
  | ok p =>
    rw [eckgEffect_of_ok pd rk hmul]
    exact .completes (((Writes.source hsrc).reg _ (by simp [destRegs])).point _ (by simp [destPoints]))

/-! ### All commands -/

/-- Every command stays within its destinations and its way with the source. -/
theorem effectOf_within (i : Instr) (s : State) : EffectWithin i s (effectOf i s) := by
  cases i with
  | madd | msub | mmul | mneg | mpow | minv | minvf => exact putReg_within s _ (by simp [destRegs])
  | padd | pdbl | pneg | smul | smulm => exact putPoint_within s _ (by simp [destPoints])
  | mrand rd rm => exact randomEffect_within s rd rm
  | pkpad bd bs => exact padEffect_within s bd bs
  | pkunpad bd bs =>
    refine putBuf_within s (by simp [destBufs]) fun msg h => ?_
    obtain ⟨block, hblock, hmsg⟩ := bind_eq_ok h
    have := bufBytes_le_bufCap hblock
    have := unpad_length hmsg
    omega
  | rsakg rdn rdd re => exact keygenEffect_within _ s rdn rdd re
  | rsaenc bd bs rx rn => exact encryptEffect_within s bd bs rx rn
  | rsadec bd bs rx rn => exact putBuf_within s (by simp [destBufs]) fun msg h => decryptValue_length h
  | eckg pd rk =>
    rw [effectOf]
    exact eckgEffect_within s Config.curve pd rk
  | ecdh bd ps rk =>
    rw [effectOf]
    refine putBuf_within s (by simp [destBufs]) fun bs h => ?_
    obtain ⟨p, -, hp⟩ := bind_eq_ok h
    rw [secretOf_length hp, bufCap_eq]
    omega

/-- The two ends of a command, with what it has written. -/
theorem exec_next_cases {i : Instr} {s t : State} (h : exec i s = .next t) :
    (∃ u, Writes i s u ∧ t = u.complete) ∨ ∃ e g, sourceMoves i s.rng g ∧ t = s.raise e g := by
  rw [exec_eq_finish] at h
  cases h
  have hwithin := effectOf_within i s
  generalize effectOf i s = x at hwithin ⊢
  cases hwithin with
  | completes hw => exact .inl ⟨_, hw, rfl⟩
  | faults hsrc => exact .inr ⟨_, _, hsrc, rfl⟩

/-! ### The frame of every command -/

theorem onlyChanges_mono {rs rs' : List RegIx} {ps ps' : List PtIx} {bs bs' : List BufIx} {s t : State}
    (h : onlyChanges rs ps bs s t) (hr : rs ⊆ rs') (hp : ps ⊆ ps') (hb : bs ⊆ bs') : onlyChanges rs' ps' bs' s t := by
  obtain ⟨hreg, hpt, hlen, hmem, hrest⟩ := h
  exact ⟨fun i hi => hreg i fun h => hi (hr h), fun j hj => hpt j fun h => hj (hp h),
    fun k hk => hlen k fun h => hk (hb h), fun a ha => hmem a fun k hk => ha k (hb hk), hrest⟩

theorem onlyChanges_trans {rs : List RegIx} {ps : List PtIx} {bs : List BufIx} {s t u : State}
    (h : onlyChanges rs ps bs s t) (h' : onlyChanges rs ps bs t u) : onlyChanges rs ps bs s u := by
  obtain ⟨hreg, hpt, hlen, hmem, hie, hcmd, hkbits, hagenda, hreads⟩ := h
  obtain ⟨hreg', hpt', hlen', hmem', hie', hcmd', hkbits', hagenda', hreads'⟩ := h'
  exact ⟨fun i hi => (hreg' i hi).trans (hreg i hi), fun j hj => (hpt' j hj).trans (hpt j hj),
    fun k hk => (hlen' k hk).trans (hlen k hk), fun a ha => (hmem' a ha).trans (hmem a ha), hie'.trans hie,
    hcmd'.trans hcmd, hkbits'.trans hkbits, hagenda'.trans hagenda, hreads'.trans hreads⟩

theorem Writes.onlyChanges_complete {i : Instr} {s t : State} (h : Writes i s t) :
    onlyChanges (destRegs i) (destPoints i) (destBufs i) s t.complete := by
  induction h with
  | source _ =>
    exact ⟨fun _ _ => rfl, fun _ _ => rfl, fun _ _ => rfl, fun _ _ => rfl, rfl, rfl, rfl, rfl, rfl⟩
  | reg v _ hd ih =>
    exact onlyChanges_trans ih (onlyChanges_mono (setReg_onlyChanges _ _ v) (by simpa using hd) (by simp) (by simp))
  | point p _ hd ih =>
    exact onlyChanges_trans ih (onlyChanges_mono (setPoint_onlyChanges _ _ p) (by simp) (by simpa using hd) (by simp))
  | buf _ hd hlen ih =>
    exact onlyChanges_trans ih (onlyChanges_mono (setBuf_onlyChanges _ _ _ hlen) (by simp) (by simp) (by simpa using hd))

theorem Writes.sourceMoves {i : Instr} {s t : State} (h : Writes i s t) : sourceMoves i s.rng t.rng := by
  induction h with
  | source h => exact h
  | reg _ _ _ ih | point _ _ _ ih | buf _ _ _ ih => exact ih

theorem exec_sourceMoves {i : Instr} {s t : State} (h : exec i s = .next t) : sourceMoves i s.rng t.rng := by
  obtain ⟨u, hu, rfl⟩ | ⟨e, g, hg, rfl⟩ := exec_next_cases h
  · exact hu.sourceMoves
  · exact hg

/-- Settles O57: the completion's frame is that of the chain of writes, the fault completion's is empty. -/
theorem commandsChangeOnlyTheirDestinations : Obligations.CommandsChangeOnlyTheirDestinations := by
  intro i s t h
  refine ⟨?_, exec_sourceMoves h⟩
  obtain ⟨u, hu, rfl⟩ | ⟨e, g, -, rfl⟩ := exec_next_cases h
  · exact hu.onlyChanges_complete
  · obtain ⟨hframe, -⟩ := raise_faulted s e g
    exact onlyChanges_mono hframe (by simp) (by simp) (by simp)

end Sys2Proof.Machine

/-! The host window on an idle PCC: where each offset of the address map leads, what a write leaves of the registers that
keep only some of their bits, and what the host reads of the control registers (rules R26, R30, R32 to R39, R62, R66). -/

namespace Sys2Proof.Machine

/-! ### The address map (rule R62) -/

theorem winReg_blen (k : BufIx) : winReg (0x0020 + 4 * k.val) = .blen k := by
  revert k
  decide

/-- A buffer word is where the map puts it, inside the storage of some buffer. -/
theorem winReg_eq_bufWord {off a : Nat} (h : winReg off = .bufWord a) :
    a = off ∧ 0x5000 ≤ off ∧ off < 0x6000 ∧ (off - 0x5000) % 0x400 < Config.bufCap := by
  unfold winReg at h
  iterate 8 (obtain ⟨-, h⟩ | ⟨-, h⟩ := ite_eq_iff.mp h; · cases h)
  iterate 2 (obtain ⟨-, h⟩ | ⟨-, h⟩ := ite_eq_iff.mp h; · obtain ⟨-, h⟩ | ⟨-, h⟩ := ite_eq_iff.mp h <;> cases h)
  obtain ⟨⟨hlo, hhi⟩, h⟩ | ⟨-, h⟩ := ite_eq_iff.mp h
  · obtain ⟨hcap, h⟩ | ⟨-, h⟩ := ite_eq_iff.mp h <;> cases h
    exact ⟨rfl, hlo, hhi, hcap⟩
  · cases h

/-- The offsets with nothing behind them. -/
theorem winReg_unmapped {off : Nat}
    (h : off = 0x001C ∨ (0x0030 ≤ off ∧ off < 0x1000) ∨
      (0x1000 ≤ off ∧ off < 0x3000 ∧ Config.bufCap ≤ (off - 0x1000) % 0x400) ∨ (0x3000 ≤ off ∧ off < 0x4000) ∨
      (0x4100 ≤ off ∧ off < 0x5000) ∨ (0x5000 ≤ off ∧ Config.bufCap ≤ (off - 0x5000) % 0x400)) :
    winReg off = .unmapped := by
  unfold winReg
  dsimp only
  iterate 8 rw [if_neg (by omega)]
  split
  case isTrue => rw [if_neg (by omega)]
  case isFalse =>
    rw [if_neg (by omega)]
    split
    case isTrue => rw [if_neg (by omega)]
    case isFalse => rfl

/-! ### A defined write as one step -/

/-- A write the host may make: to any register while PCC is idle, and to those of rule R280 while a command runs. -/
theorem step_defined_write {s : State} {off : Nat} {v : Word} {rest : List Event}
    (ha : s.agenda = .write off 4 v :: rest) (hoff : off < 0x6000) (halign : off % 4 = 0)
    (hbusy : s.busy = true → writableWhileBusy off v = true) :
    step s = .next ({ s with agenda := rest }.windowWrite off v) := by
  rw [step_of_write ha, hostWrite, if_neg (by rw [windowSize]; omega), if_neg (by omega), if_neg]
  cases hb : s.busy <;> simp [hb, hbusy]

theorem step_idle_write {s : State} {off : Nat} {v : Word} {rest : List Event} (hb : s.busy = false)
    (ha : s.agenda = .write off 4 v :: rest) (hoff : off < 0x6000) (halign : off % 4 = 0) :
    step s = .next ({ s with agenda := rest }.windowWrite off v) :=
  step_defined_write ha hoff halign fun h => by simp [hb] at h

/-- Settles O24: every offset named is mapped to nothing, or to a register that ignores writes. -/
theorem unmappedAndReadOnlyOffsets : Obligations.UnmappedAndReadOnlyOffsets := by
  intro s off v rest hb hoff halign
  refine ⟨fun h => ⟨?_, fun ha => ?_⟩, fun h ha => ?_⟩
  · simp only [State.windowRead, winReg_unmapped h]
  · rw [step_idle_write hb ha hoff halign, State.windowWrite, winReg_unmapped h]
  · rw [step_idle_write hb ha hoff halign]
    obtain rfl | rfl | rfl := h <;> rfl

/-! ### The flags of the control registers, bit by bit (rule R66) -/

theorem flagBit_getLsbD (b : Bool) {n m : Nat} (hm : m < 32) : (flagBit b n).getLsbD m = (b && decide (m = n)) := by
  cases b with
  | false => simp [flagBit]
  | true =>
    have hbit : (!decide (m < n) && decide (m - n = 0)) = decide (m = n) := by
      rw [← decide_not, ← Bool.decide_and, decide_eq_decide]
      omega
    simpa [flagBit, hm] using hbit

/-- Bit `n` of `PTINF` is the infinity flag of `pt[n]`; the bits above are 0 (rule R26). -/
theorem ptinfWord_getLsbD (s : State) (n : Nat) :
    s.ptinfWord.getLsbD n = if h : n < 4 then (s.pt.get ⟨n, h⟩).inf else false := by
  by_cases hn : n < 32
  · simp only [State.ptinfWord, BitVec.getLsbD_or, flagBit_getLsbD _ hn]
    split
    case isTrue h => interval_cases n <;> simp
    case isFalse h => simp; omega
  · rw [BitVec.getLsbD_of_ge _ _ (by omega), dif_neg (by omega)]

theorem statusWord_toNat (s : State) :
    s.statusWord.toNat =
      (if s.busy = true then 1 else 0) + (if s.done = true then 2 else 0) + (if s.fault = true then 4 else 0) := by
  unfold State.statusWord
  cases s.busy <;> cases s.done <;> cases s.fault <;> rfl

theorem ctrlWord_toNat (s : State) : s.ctrlWord.toNat = if s.ie = true then 1 else 0 := by
  unfold State.ctrlWord
  cases s.ie <;> rfl

theorem windowRead_blen (s : State) (k : BufIx) :
    s.windowRead (0x0020 + 4 * k.val) = (s.blen.get k).setWidth 32 := by
  simp only [State.windowRead, winReg_blen]

theorem setWidth_word_toNat {n : Nat} (x : BitVec n) (h : n ≤ 32) : (x.setWidth 32).toNat = x.toNat := by
  rw [BitVec.toNat_setWidth]
  exact Nat.mod_eq_of_lt (x.isLt.trans_le (Nat.pow_le_pow_right (by omega) h))

/-- Settles O60: each control register is read as the word of its fields. -/
theorem controlRegistersReadTheirFields : Obligations.ControlRegistersReadTheirFields := by
  intro s
  refine ⟨rfl, ctrlWord_toNat s, statusWord_toNat s, setWidth_word_toNat s.errcode (by omega), rfl,
    setWidth_word_toNat s.kbits (by omega), ptinfWord_getLsbD s, fun k => ?_⟩
  rw [windowRead_blen, setWidth_word_toNat _ (by omega)]
  rfl

/-! ### Registers that store only some of the bits written -/

theorem setPtinf_pt_get (s : State) (v : Word) (j : PtIx) :
    (s.setPtinf v).pt.get j = { s.pt.get j with inf := v.getLsbD j.val } := by
  simp [State.setPtinf, Vector.get_eq_getElem]

theorem setPtinf_ptinfWord_toNat (s : State) (v : Word) : (s.setPtinf v).ptinfWord.toNat = v.toNat % 2 ^ 4 := by
  refine Nat.eq_of_testBit_eq fun n => ?_
  rw [BitVec.testBit_toNat, ptinfWord_getLsbD, Nat.testBit_mod_two_pow, BitVec.testBit_toNat]
  by_cases h : n < 4 <;> simp [h, setPtinf_pt_get]

/-- Settles O23: each of the three writes is a step that stores its own bits, and what is read back is what is stored. -/
theorem narrowRegistersKeepTheirBits : Obligations.NarrowRegistersKeepTheirBits := by
  intro s k v rest hb
  refine ⟨fun ha => ?kbits, fun ha => ?blen, fun ha => ?ptinf⟩
  case kbits =>
    refine ⟨_, step_idle_write hb ha (by omega) (by omega), rfl, BitVec.toNat_setWidth 16 v, ?_⟩
    exact (setWidth_word_toNat (v.setWidth 16) (by omega)).trans (BitVec.toNat_setWidth 16 v)
  case blen =>
    have hlen : (v.setWidth 16).toNat = v.toNat % 2 ^ 16 := BitVec.toNat_setWidth 16 v
    refine ⟨_, step_idle_write hb ha (by omega) (by omega), ?_⟩
    simp only [State.windowWrite, windowRead_blen, winReg_blen, State.bufLen, get_set]
    refine ⟨trivial, fun j hj => by rw [if_neg (Ne.symm hj)], hlen, ?_⟩
    exact (setWidth_word_toNat (v.setWidth 16) (by omega)).trans hlen
  case ptinf =>
    refine ⟨_, step_idle_write hb ha (by omega) (by omega), rfl, fun j => ?_, setPtinf_ptinfWord_toNat _ v⟩
    have hj : ({ s with agenda := rest }.windowWrite 0x0018 v).pt.get j = { s.pt.get j with inf := v.getLsbD j.val } :=
      setPtinf_pt_get _ v j
    rw [hj]
    exact ⟨rfl, rfl, rfl⟩

end Sys2Proof.Machine

/-! What each event of the agenda does, the reset, the CTRL write, and the invariant of the state along every step (rules
R34 to R37, R45, R230, R238 to R242, R270). -/

namespace Sys2Proof.Machine

/-! ### The core's turn and the resets as one step -/

theorem step_of_nil {s : State} (h : s.agenda = []) : step s = coreTurn s := by
  simp only [step, advance, h]

theorem step_of_core {s : State} {rest : List Event} (h : s.agenda = .core :: rest) :
    step s = coreTurn { s with agenda := rest } := by
  simp only [step, advance, h]

theorem step_of_wait {s : State} {rest : List Event} (h : s.agenda = .wait :: rest) : step s = hostWait s rest := by
  simp only [step, advance, h]

theorem step_of_hwReset {s : State} {rest : List Event} (h : s.agenda = .hwReset :: rest) :
    step s = .next { s with agenda := rest }.softReset := by
  simp only [step, advance, h]

theorem coreTurn_busy {s : State} (h : s.busy = true) : coreTurn s = runCommand s := by
  rw [coreTurn, if_pos h]

theorem hostWait_busy {s : State} (rest : List Event) (h : s.busy = true) : hostWait s rest = runCommand s := by
  rw [hostWait, if_pos h]

theorem runCommand_of_decode {s : State} {i : Instr} (h : decode s.cmd = .ok i) : runCommand s = exec i s := by
  simp only [runCommand, h]

theorem coreTurn_eq_exec {s : State} {i : Instr} (hb : s.busy = true) (hd : decode s.cmd = .ok i) :
    coreTurn s = exec i s := (coreTurn_busy hb).trans (runCommand_of_decode hd)

/-- Settles O5: each of the three events gives the core its turn on the word in `CMD`. -/
theorem stepRunsTheCommandInFlight : Obligations.StepRunsTheCommandInFlight := by
  intro s i rest hb hd
  refine ⟨fun ha => ?_, fun ha => ?_, fun ha => ?_⟩
  · rw [step_of_nil ha, coreTurn_eq_exec hb hd]
  · rw [step_of_core ha, coreTurn_eq_exec (s := { s with agenda := rest }) hb hd]
  · rw [step_of_wait ha, hostWait_busy rest hb, runCommand_of_decode hd]

theorem withFetchWord_toNat (s : State) (w : Word) : s.withFetchWord 32 w.toNat = s.presentWord w := by
  rw [State.withFetchWord, Nat.mod_eq_of_lt w.isLt, BitVec.ofNat_toNat, BitVec.setWidth_eq]

/-- Settles O6: the presented state is busy with `w`, and its first event is the core's turn. -/
theorem presentedWordRunsNext : Obligations.PresentedWordRunsNext := by
  intro s w i hd
  rw [withFetchWord_toNat, step_of_core (presentWord_agenda s w), coreTurn_eq_exec rfl hd]
  rfl

/-! ### The CTRL write (rule R34) -/

theorem writeCtrl_of_srst {v : Word} (s : State) (h : v.getLsbD 31 = true) : s.writeCtrl v = s.softReset := by
  rw [State.writeCtrl, if_pos h]

/-- Without SRST a `CTRL` write stores `IE` and clears what CLRD and CLRF name. -/
theorem writeCtrl_of_no_srst {v : Word} (s : State) (h : v.getLsbD 31 = false) :
    s.writeCtrl v = { s with
      ie := v.getLsbD 0
      done := s.done && !v.getLsbD 1
      fault := s.fault && !v.getLsbD 2
      errcode := if v.getLsbD 2 = true then 0 else s.errcode } := by
  rw [State.writeCtrl, if_neg (by rw [h]; exact Bool.false_ne_true)]
  cases v.getLsbD 1 <;> cases v.getLsbD 2 <;>
    simp only [Bool.false_eq_true, if_false, if_true, Bool.not_false, Bool.not_true, Bool.and_true, Bool.and_false,
      State.clearFault]

theorem softReset_idle {s : State} (h : s.busy = false) :
    s.softReset = { State.reset with rng := s.rng, agenda := s.agenda, reads := s.reads } := by
  rw [State.softReset, rngAtReset_idle h]

/-- Settles O17: the write is `writeCtrl`, with SRST or without, and refused where rule R280 does not list it. -/
theorem ctrlWriteActions : Obligations.CtrlWriteActions := by
  intro s v rest ha
  refine ⟨fun hb hsrst => ?_, fun hb hsrst => ?_, fun hb _ hclr => ?_, ?_⟩
  · rw [step_idle_write hb ha (by omega) (by omega)]
    exact congrArg _ ((writeCtrl_of_srst _ hsrst).trans (softReset_idle hb))
  · rw [step_idle_write hb ha (by omega) (by omega)]
    exact congrArg _ (writeCtrl_of_no_srst _ hsrst)
  · have hundefined : writableWhileBusy 0x0004 v = false := by
      rw [Bool.eq_false_iff, Ne, writableWhileBusy_iff]
      rintro ⟨-, hclrd, hclrf⟩
      simp only [hclrd, hclrf, Bool.false_eq_true, or_self] at hclr
    rw [step_of_write ha, hostWrite, if_neg (by decide), if_neg (by decide), if_pos (by simp [hb, hundefined]),
      if_neg (by decide)]
  · change s.ctrlWord = _
    unfold State.ctrlWord
    cases s.ie <;> rfl

/-! ### The invariant -/

/-- The part of `stateInv` about the storage: canonical, and listing storage bytes only. -/
def storageInv (m : Memory) : Prop := m.wf ∧ ∀ c ∈ m, ∃ k, inStorage k c.1

theorem storageInv_writeBytes {m : Memory} (h : storageInv m) {k : BufIx} {a : Nat} {bs : List Byte}
    (hlo : bufBase k ≤ a) (hhi : a + bs.length ≤ bufBase k + Config.bufCap) : storageInv (m.writeBytes a bs) := by
  obtain ⟨hwf, hstorage⟩ := h
  refine ⟨writeBytes_wf hwf a bs, fun c hc => ?_⟩
  obtain hold | hnew := mem_writeBytes hc
  · exact hstorage c hold
  · exact ⟨k, by omega, by omega⟩

/-- Settles O14: no storage byte is listed, and every flag is 0. -/
theorem stateInvHoldsAtReset : Obligations.StateInvHoldsAtReset := by
  refine ⟨⟨List.Pairwise.nil, ?_⟩, ?_, by decide, by decide, by decide, by decide⟩ <;> simp

theorem stateInv_storageInv {s : State} (h : stateInv s) : storageInv s.mem := by
  obtain ⟨hwf, hstorage, -⟩ := h
  exact ⟨hwf, hstorage⟩

/-- The storage may change under the invariant as long as it keeps its own part of it. -/
theorem stateInv_of_storage {s t : State} (h : stateInv s) (hm : storageInv t.mem) (herr : t.errcode = s.errcode)
    (hfault : t.fault = s.fault) (hdone : t.done = s.done) (hbusy : t.busy = s.busy) : stateInv t := by
  obtain ⟨hwf, hstorage⟩ := hm
  obtain ⟨-, -, hflags⟩ := h
  refine ⟨hwf, hstorage, ?_⟩
  rw [herr, hfault, hdone, hbusy]
  exact hflags

theorem errCode_code_legal (e : ErrCode) : e.code ∈ legalCodes := by cases e <;> decide

theorem errCode_code_ne_zero (e : ErrCode) : e.code ≠ 0 := by cases e <;> decide

theorem stateInv_raise {s : State} (h : stateInv s) (e : ErrCode) (g : Rng) : stateInv (s.raise e g) := by
  obtain ⟨hwf, hstorage, -⟩ := h
  exact ⟨hwf, hstorage, errCode_code_legal e, iff_of_false (errCode_code_ne_zero e) Bool.true_eq_false_eq_False, by simp,
    by simp⟩

theorem stateInv_complete {s : State} (h : stateInv s) : stateInv s.complete := by
  obtain ⟨hwf, hstorage, hcode, hzero, -, -⟩ := h
  exact ⟨hwf, hstorage, hcode, hzero, by simp, by simp⟩

/-- A sequence within the capacity, filled up with zeros, covers the storage of its buffer exactly (rule R31). -/
theorem storageInv_setBuf {s : State} (h : storageInv s.mem) (bd : BufIx) {bs : List Byte}
    (hlen : bs.length ≤ Config.bufCap) : storageInv (s.setBuf bd bs).mem :=
  storageInv_writeBytes h le_rfl (by rw [zeroFilled_length, max_eq_right hlen])

/-- The writes of a command keep the invariant: no destination is a flag, and a buffer write stays in its storage. -/
theorem Writes.stateInv {i : Instr} {s t : State} (h : Writes i s t) (hs : stateInv s) : stateInv t := by
  induction h with
  | source _ => exact hs
  | reg _ _ _ ih | point _ _ _ ih => exact ih
  | buf _ _ hlen ih => exact stateInv_of_storage ih (storageInv_setBuf (stateInv_storageInv ih) _ hlen) rfl rfl rfl rfl

theorem stateInv_exec {i : Instr} {s t : State} (hs : stateInv s) (h : exec i s = .next t) : stateInv t := by
  obtain ⟨u, hu, rfl⟩ | ⟨e, g, -, rfl⟩ := exec_next_cases h
  · exact stateInv_complete (hu.stateInv hs)
  · exact stateInv_raise hs e g

theorem stateInv_runCommand {s t : State} (hs : stateInv s) (h : runCommand s = .next t) : stateInv t := by
  unfold runCommand at h
  split at h
  case h_1 => exact stateInv_exec hs h
  case h_2 => cases h; exact stateInv_raise hs _ _

theorem stateInv_coreTurn {s t : State} (hs : stateInv s) (h : coreTurn s = .next t) : stateInv t := by
  unfold coreTurn at h
  split at h
  case isTrue => exact stateInv_runCommand hs h
  case isFalse => cases h; exact hs

theorem stateInv_hostWait {s t : State} {rest : List Event} (hs : stateInv s) (h : hostWait s rest = .next t) :
    stateInv t := by
  unfold hostWait at h
  split at h
  case isTrue => exact stateInv_runCommand hs h
  case isFalse => cases h; exact hs

theorem stateInv_softReset (s : State) : stateInv s.softReset := stateInvHoldsAtReset

theorem stateInv_writeCtrl {s : State} (hs : stateInv s) (v : Word) : stateInv (s.writeCtrl v) := by
  cases hsrst : v.getLsbD 31 with
  | true =>
    rw [writeCtrl_of_srst s hsrst]
    exact stateInv_softReset s
  | false =>
    obtain ⟨hwf, hstorage, hcode, hzero, hdone, hfault⟩ := hs
    rw [writeCtrl_of_no_srst s hsrst]
    refine ⟨hwf, hstorage, ?_, ?_, fun hb => by simp [hdone hb], fun hb => by simp [hfault hb]⟩
    · exact ite_mem.mpr ⟨fun _ => by decide, fun _ => hcode⟩
    · cases v.getLsbD 2 with
      | false => simpa using hzero
      | true => simp

/-- Acceptance needs FAULT 0 (rule R238), so a running command has neither flag. -/
theorem stateInv_issue {s : State} (hs : stateInv s) (w : Word) : stateInv (s.issue w) := by
  unfold State.issue
  split
  case isTrue => exact hs
  case isFalse hfault =>
    obtain ⟨hwf, hstorage, hcode, hzero, -, -⟩ := hs
    exact ⟨hwf, hstorage, hcode, hzero, fun _ => rfl, fun _ => by simpa using hfault⟩

/-- An aligned word of a buffer lies whole in the storage of that buffer. -/
theorem storageInv_bufWord {m : Memory} (h : storageInv m) {off a : Nat} (halign : off % 4 = 0)
    (hw : winReg off = .bufWord a) (v : Word) : storageInv (m.writeBytes a (bytesOfWord v)) := by
  obtain ⟨rfl, hlo, hhi, hcap⟩ := winReg_eq_bufWord hw
  rw [bufCap_eq] at hcap
  have hk : (a - 0x5000) / 0x400 < 4 := by omega
  refine storageInv_writeBytes (k := ⟨(a - 0x5000) / 0x400, hk⟩) h ?_ ?_ <;>
    simp only [bufBase, bufCap_eq, bytesOfWord, List.length_cons, List.length_nil] <;> omega

theorem stateInv_windowWrite {s : State} (hs : stateInv s) {off : Nat} (halign : off % 4 = 0) (v : Word) :
    stateInv (s.windowWrite off v) := by
  unfold State.windowWrite
  cases hw : winReg off with
  | id | status | errcode | unmapped => exact hs
  | kbits | ptinf | blen | regWord | xWord | yWord => exact hs
  | ctrl => exact stateInv_writeCtrl hs v
  | cmd => exact stateInv_issue hs v
  | bufWord a =>
    exact stateInv_of_storage hs (storageInv_bufWord (stateInv_storageInv hs) halign hw v) rfl rfl rfl rfl

/-- Settles O15: by the first event of the agenda; taking it off the list changes nothing the invariant speaks of. -/
theorem stepKeepsStateInv : Obligations.StepKeepsStateInv := by
  intro s t hs ht
  match ha : s.agenda with
  | [] => exact stateInv_coreTurn hs (step_of_nil ha ▸ ht)
  | .read off width :: rest =>
    obtain ⟨rs, rfl⟩ := step_read_frame ha ht
    exact hs
  | .write off width v :: rest =>
    rw [step_of_write ha] at ht
    obtain ⟨-, rfl⟩ | ⟨-, -, halign, -, rfl⟩ := hostWrite_next_cases ht
    · exact hs
    · exact stateInv_windowWrite (s := { s with agenda := rest }) hs halign v
  | .wait :: rest => exact stateInv_hostWait hs (step_of_wait ha ▸ ht)
  | .hwReset :: rest =>
    rw [step_of_hwReset ha] at ht
    cases ht
    exact stateInv_softReset _
  | .core :: rest => exact stateInv_coreTurn (s := { s with agenda := rest }) hs (step_of_core ha ▸ ht)

/-! ### The agenda is not an operand -/

/-- The state with another list of events; every event is taken off the list this way (`advance`). -/
def State.withAgenda (s : State) (rest : List Event) : State := { s with agenda := rest }

theorem finish_withAgenda (s : State) (x : Effect) (rest : List Event) :
    (s.withAgenda rest).finish (x.map fun t => t.withAgenda rest) = (s.finish x).withAgenda rest := by
  rcases x with ⟨e, g⟩ | t <;> rfl

theorem putReg_withAgenda (s : State) (rd : RegIx) (x : Except ErrCode Nat) (rest : List Event) :
    (s.withAgenda rest).putReg rd x = (s.putReg rd x).map fun t => t.withAgenda rest := by
  cases x <;> rfl

theorem putPoint_withAgenda (s : State) (pd : PtIx) (x : Except ErrCode Point) (rest : List Event) :
    (s.withAgenda rest).putPoint pd x = (s.putPoint pd x).map fun t => t.withAgenda rest := by
  cases x <;> rfl

theorem putBuf_withAgenda (s : State) (bd : BufIx) (x : Except ErrCode (List Byte)) (rest : List Event) :
    (s.withAgenda rest).putBuf bd x = (s.putBuf bd x).map fun t => t.withAgenda rest := by
  cases x <;> rfl

theorem putBufDrawn_withAgenda (s : State) (bd : BufIx) (x : Except (ErrCode × Rng) (List Byte × Rng))
    (rest : List Event) :
    (s.withAgenda rest).putBufDrawn bd x = (s.putBufDrawn bd x).map fun t => t.withAgenda rest := by
  rcases x with ⟨e, g⟩ | ⟨bs, g⟩ <;> rfl

theorem randomEffect_withAgenda (s : State) (rd : RegIx) (m : Nat) (rest : List Event) :
    randomEffect (s.withAgenda rest) rd m = (randomEffect s rd m).map fun t => t.withAgenda rest := by
  unfold randomEffect
  split <;> rfl

theorem padEffect_withAgenda (s : State) (bd bs : BufIx) (rest : List Event) :
    padEffect (s.withAgenda rest) bd bs = (padEffect s bd bs).map fun t => t.withAgenda rest := by
  have hbuf : (s.withAgenda rest).buf bs = s.buf bs := rfl
  have hkbits : (s.withAgenda rest).kbits = s.kbits := rfl
  unfold padEffect
  rw [hbuf, hkbits]
  split
  · rfl
  · cases s.buf bs with
    | error e => rfl
    | ok msg => exact putBufDrawn_withAgenda s bd _ rest

theorem encryptEffect_withAgenda (s : State) (bd bs : BufIx) (e modulus : Nat) (rest : List Event) :
    encryptEffect (s.withAgenda rest) bd bs e modulus =
      (encryptEffect s bd bs e modulus).map fun t => t.withAgenda rest := by
  have hbuf : (s.withAgenda rest).buf bs = s.buf bs := rfl
  unfold encryptEffect
  rw [hbuf]
  split
  · rfl
  · cases s.buf bs with
    | error e => rfl
    | ok msg => exact putBufDrawn_withAgenda s bd _ rest

theorem keygenEffect_withAgenda (retryMax : Nat) (s : State) (rdn rdd re : RegIx) (rest : List Event) :
    keygenEffect retryMax (s.withAgenda rest) rdn rdd re =
      (keygenEffect retryMax s rdn rdd re).map fun t => t.withAgenda rest := by
  have hreg : (s.withAgenda rest).reg re = s.reg re := rfl
  have hkbits : (s.withAgenda rest).kbits = s.kbits := rfl
  have hrng : (s.withAgenda rest).rng = s.rng := rfl
  unfold keygenEffect
  rw [hreg, hkbits, hrng]
  split
  · rfl
  · split
    · rfl
    · cases keyPrimes (s.kbits.toNat / 2) (s.reg re) retryMax s.rng with
      | error g => rfl
      | ok r =>
        obtain ⟨p, q, g⟩ := r
        dsimp only
        cases modInv (s.reg re) (carmichael p q) <;> rfl

theorem eckgEffect_withAgenda (s : State) (c : Curve) (pd : PtIx) (rk : RegIx) (rest : List Event) :
    eckgEffect (s.withAgenda rest) c pd rk = (eckgEffect s c pd rk).map fun t => t.withAgenda rest := by
  cases hmul : scalarMulML c (ecScalar c (s.rng.bytes 32)) (generator c) with
  | error e =>
    rw [eckgEffect_of_error pd rk hmul, eckgEffect_of_error (s := s.withAgenda rest) pd rk hmul]
    rfl
  | ok p =>
    rw [eckgEffect_of_ok pd rk hmul, eckgEffect_of_ok (s := s.withAgenda rest) pd rk hmul]
    rfl

theorem effectOf_withAgenda (i : Instr) (s : State) (rest : List Event) :
    effectOf i (s.withAgenda rest) = (effectOf i s).map fun t => t.withAgenda rest := by
  cases i with
  | madd | msub | mmul | mneg | mpow | minv | minvf => exact putReg_withAgenda s _ _ rest
  | padd | pdbl | pneg | smul | smulm => exact putPoint_withAgenda s _ _ rest
  | pkunpad | rsadec | ecdh => exact putBuf_withAgenda s _ _ rest
  | mrand rd rm => exact randomEffect_withAgenda s rd (s.reg rm) rest
  | pkpad bd bs => exact padEffect_withAgenda s bd bs rest
  | rsakg rdn rdd re => exact keygenEffect_withAgenda _ s rdn rdd re rest
  | rsaenc bd bs rx rn => exact encryptEffect_withAgenda s bd bs (s.reg rx) (s.reg rn) rest
  | eckg pd rk =>
    rw [effectOf, effectOf]
    exact eckgEffect_withAgenda s Config.curve pd rk rest

/-- A command does not see the agenda: it runs to the same end whatever the events to come. -/
theorem exec_withAgenda {i : Instr} {s t : State} (h : exec i s = .next t) (rest : List Event) :
    exec i (s.withAgenda rest) = .next (t.withAgenda rest) := by
  rw [exec_eq_finish] at h ⊢
  cases h
  rw [effectOf_withAgenda, finish_withAgenda]

theorem runCommand_withAgenda {s t : State} (h : runCommand s = .next t) (rest : List Event) :
    runCommand (s.withAgenda rest) = .next (t.withAgenda rest) := by
  unfold runCommand at h
  split at h
  case h_1 i hd => rw [runCommand_of_decode (s := s.withAgenda rest) hd, exec_withAgenda h]
  case h_2 e hd =>
    cases h
    simp only [runCommand, State.withAgenda, hd]
    rfl

theorem rngAtCompletion_of_next {s t : State} (h : runCommand s = .next t) : s.rngAtCompletion = t.rng := by
  simp only [State.rngAtCompletion, h]

theorem rngAtCompletion_withAgenda (s : State) (rest : List Event) :
    (s.withAgenda rest).rngAtCompletion = s.rngAtCompletion := by
  obtain ⟨t, h⟩ := runCommand_next s
  rw [rngAtCompletion_of_next h, rngAtCompletion_of_next (runCommand_withAgenda h rest)]
  rfl

theorem rngAtReset_withAgenda (s : State) (rest : List Event) : (s.withAgenda rest).rngAtReset = s.rngAtReset := by
  simp only [State.rngAtReset, rngAtCompletion_withAgenda]
  rfl

/-! ### The reset -/

theorem rng_pos_le_rngAtCompletion_pos (s : State) : s.rng.pos ≤ s.rngAtCompletion.pos := by
  cases hd : decode s.cmd with
  | error e => rw [rngAtCompletion_of_illegal hd]
  | ok i =>
    obtain ⟨t, ht⟩ := exec_next i s
    obtain ⟨-, -, hpos⟩ := exec_sourceMoves ht
    rw [rngAtCompletion_of_exec hd ht]
    exact hpos

theorem reset_reg (i : RegIx) : State.reset.reg i = 0 := by
  simp only [State.reg, reset_r, Vector.get_eq_getElem, Vector.getElem_replicate]
  exact BitVec.toNat_zero

theorem reset_pt_get (j : PtIx) : State.reset.pt.get j = ⟨true, 0, 0⟩ := by revert j; decide

theorem reset_ptinfWord : State.reset.ptinfWord = 0xF := by decide

theorem reset_bufLen (k : BufIx) : State.reset.bufLen k = 0 := by revert k; decide

/-- Both resets are the soft reset after the event is taken off the agenda. -/
theorem step_reset {s : State} {v : Word} {rest : List Event}
    (h : s.agenda = .hwReset :: rest ∨
      (s.agenda = .write 0x0004 4 v :: rest ∧ v.getLsbD 31 = true ∧
        (s.busy = true → v = 0x80000000 ∨ v = 0x80000001))) :
    step s = .next (s.withAgenda rest).softReset := by
  obtain ha | ⟨ha, hsrst, hbusy⟩ := h
  · exact step_of_hwReset ha
  · rw [step_defined_write ha (by omega) (by omega) fun hb => by obtain rfl | rfl := hbusy hb <;> decide]
    exact congrArg _ (writeCtrl_of_srst _ hsrst)

/-- Settles O13: the registers are those of `State.reset`, and the source is at `rngAtReset`, between its place and the one
at the completion of the abandoned command. -/
theorem resetGivesTheResetValues : Obligations.ResetGivesTheResetValues := by
  intro s v rest h
  obtain ⟨hlo, hhi⟩ := rngAtReset_pos s (rng_pos_le_rngAtCompletion_pos s)
  have hrng : (s.withAgenda rest).softReset.rng = s.rngAtReset := rngAtReset_withAgenda s rest
  refine ⟨_, step_reset h, reset_reg, reset_pt_get, reset_ptinfWord, fun _ => rfl, reset_bufLen, rfl, rfl, rfl, rfl, rfl, rfl,
    rfl, rfl, rfl, ?_⟩
  rw [hrng]
  refine ⟨rngAtReset_given s, hlo, rngAtReset_idle, fun i u hd hu => ?_, fun e hd => ?_⟩
  · rw [← rngAtCompletion_of_exec hd hu]
    exact hhi
  · rw [rngAtCompletion_of_illegal hd] at hhi
    exact le_antisymm hhi hlo

end Sys2Proof.Machine

/-! The window word by word: where the address map puts a word of each slot, the 32 bits or four bytes a write replaces,
reads, the accesses the window does not define, and a command write with the wait after it (rules R61 to R69, R72, R91 to
R94, R238). -/

namespace Sys2Proof.Machine

/-! ### A defined read as one step -/

theorem step_idle_read {s : State} {off : Nat} {rest : List Event} (hb : s.busy = false)
    (ha : s.agenda = .read off 4 :: rest) (hoff : off < 0x6000) (halign : off % 4 = 0) :
    step s = .next { s with agenda := rest, reads := s.reads ++ [s.windowRead off] } := by
  rw [step_of_read ha, hostRead, if_neg (by rw [windowSize]; omega), if_neg (by omega), if_neg (by simp [hb])]
  rfl

/-- No word of the window shows the event list or the values read so far. -/
theorem windowRead_of_agenda_reads (s : State) (rest : List Event) (rs : List Word) (off : Nat) :
    { s with agenda := rest, reads := rs }.windowRead off = s.windowRead off := rfl

/-- Settles O25: a read inside the window that answers a state appends the value to the host's list, and that list stands
behind no word of the window. -/
theorem readsHaveNoSideEffect : Obligations.ReadsHaveNoSideEffect := by
  refine ⟨fun s off rest hb hoff halign ha => step_idle_read hb ha hoff halign, fun s t off width rest hoff ha ht => ?_⟩
  rw [step_of_read ha] at ht
  obtain ⟨houtside, -⟩ | ⟨-, -, -, -, rfl⟩ := hostRead_next_cases ht
  · exact absurd houtside (Nat.not_le.2 hoff)
  · exact ⟨rfl, windowRead_of_agenda_reads s rest _⟩

/-! ### Accesses the window does not define (rule R68) -/

theorem step_access_outside {s : State} {off width : Nat} {v : Word} {rest : List Event}
    (ha : s.agenda = .read off width :: rest ∨ s.agenda = .write off width v :: rest) (hoff : windowSize ≤ off) :
    step s = .next { s with agenda := rest } := by
  obtain ha | ha := ha
  · rw [step_of_read ha, hostRead, if_pos hoff]
  · rw [step_of_write ha, hostWrite, if_pos hoff]

theorem step_access_not_aligned_word {s : State} {off width : Nat} {v : Word} {rest : List Event}
    (ha : s.agenda = .read off width :: rest ∨ s.agenda = .write off width v :: rest) (hoff : ¬ windowSize ≤ off)
    (hbad : width ≠ 4 ∨ off % 4 ≠ 0) : step s = .refused .accessNotDefined := by
  obtain ha | ha := ha
  · rw [step_of_read ha, hostRead, if_neg hoff, if_pos hbad]
  · rw [step_of_write ha, hostWrite, if_neg hoff, if_pos hbad]

/-- Settles O11: both accesses look at the offset first, then at width and alignment, and only then at BUSY. -/
theorem undefinedAndOutsideAccesses : Obligations.UndefinedAndOutsideAccesses := fun _ _ _ _ _ ha =>
  ⟨step_access_outside ha, fun hoff => step_access_not_aligned_word ha (Nat.not_le.2 hoff)⟩

/-! ### Where the address map puts a word of each slot (rule R62) -/

theorem winReg_regWord (i : RegIx) {w : Nat} (hw : w < Config.opw / 32) :
    winReg (0x1000 + 0x400 * i.val + 4 * w) = .regWord i (Config.opw - 32 - 32 * w) := by
  rw [opw_eq] at hw
  have hslot : (0x1000 + 0x400 * i.val + 4 * w - 0x1000) / 0x400 = i.val := by omega
  have hin : (0x1000 + 0x400 * i.val + 4 * w - 0x1000) % 0x400 = 4 * w := by omega
  have hix : Fin.ofNat 8 i.val = i := Fin.ext (Nat.mod_eq_of_lt i.isLt)
  have hlo : 8 * (4 * w) = 32 * w := by omega
  unfold winReg
  dsimp only
  iterate 8 rw [if_neg (by omega)]
  rw [if_pos (by omega), hslot, hin, if_pos (by rw [bufCap_eq]; omega), hix, hlo]

theorem winReg_xWord (j : PtIx) {w : Nat} (hw : w < 8) :
    winReg (0x4000 + 0x40 * j.val + 4 * w) = .xWord j (224 - 32 * w) := by
  revert j w
  decide

theorem winReg_yWord (j : PtIx) {w : Nat} (hw : w < 8) :
    winReg (0x4000 + 0x40 * j.val + 0x20 + 4 * w) = .yWord j (224 - 32 * w) := by
  revert j w
  decide

theorem winReg_bufWord (k : BufIx) {n : Nat} (hn : n < Config.bufCap) :
    winReg (bufBase k + n) = .bufWord (bufBase k + n) := by
  rw [bufCap_eq] at hn
  have hk := k.isLt
  unfold winReg bufBase
  dsimp only
  iterate 10 rw [if_neg (by omega)]
  rw [if_pos (by omega), if_pos (by rw [bufCap_eq]; omega)]

/-! ### The 32 bits a word write replaces (rules R63, R64) -/

theorem wordMask_getLsbD (b : Nat) : (0xFFFFFFFF#32).getLsbD b = decide (b < 32) := BitVec.getLsbD_allOnes

/-- A bit of the register after a word write: the word's where the word stands, the register's elsewhere. -/
theorem getLsbD_putWord {n lo : Nat} (h : lo + 32 ≤ n) (x : BitVec n) (v : Word) (b : Nat) :
    (putWord x lo v).getLsbD b = if lo ≤ b ∧ b < lo + 32 then v.getLsbD (b - lo) else x.getLsbD b := by
  simp only [putWord, BitVec.getLsbD_or, BitVec.getLsbD_and, BitVec.getLsbD_not, BitVec.getLsbD_shiftLeft,
    BitVec.getLsbD_setWidth, wordMask_getLsbD]
  split
  case isTrue hin =>
    simp [show b < n by omega, show ¬ b < lo by omega, show b - lo < 32 by omega, show b - lo < n by omega]
  case isFalse hout =>
    rcases Nat.lt_or_ge b lo with hbelow | habove
    · simp [hbelow, show b < n by omega]
    · have hv : v.getLsbD (b - lo) = false := BitVec.getLsbD_of_ge v _ (by omega)
      simpa [hv, show ¬ b - lo < 32 by omega] using BitVec.lt_of_getLsbD

/-- A word write replaces the 32 bits below `hi` and no others. -/
theorem putWord_replaces {n lo hi : Nat} (hlo : lo + 32 = hi) (hn : hi ≤ n) (x : BitVec n) (v : Word) :
    (putWord x lo v).extractLsb' lo 32 = v ∧
      ∀ b, b < lo ∨ hi ≤ b → (putWord x lo v).getLsbD b = x.getLsbD b := by
  subst hlo
  refine ⟨BitVec.eq_of_getLsbD_eq fun b hb => ?_, fun b hb => ?_⟩
  · rw [BitVec.getLsbD_extractLsb', getLsbD_putWord hn, if_pos (by omega), Nat.add_sub_cancel_left]
    simp [hb]
  · rw [getLsbD_putWord hn, if_neg (by omega)]

theorem get_set_ne {α : Type} {n : Nat} (v : Vector α n) {i j : Fin n} (h : j ≠ i) (x : α) :
    (v.set i.val x i.isLt).get j = v.get j := by
  rw [get_set, if_neg (Ne.symm h)]

theorem get_set_same {α : Type} {n : Nat} (v : Vector α n) (i : Fin n) (x : α) :
    (v.set i.val x i.isLt).get i = x := by
  rw [get_set, if_pos rfl]

/-! ### Big-endian bytes, four at a time (rules R16, R63, R65) -/

theorem drop_i2be (v m k : Nat) : (i2be v (m + k)).drop m = i2be v k := by
  induction m with
  | zero => rw [Nat.zero_add, List.drop_zero]
  | succ m ih => rw [Nat.add_right_comm, i2be, List.drop_succ_cons, ih]

theorem take_i2be (v n k : Nat) : (i2be v (n + k)).take n = i2be (v / 256 ^ k) n := by
  induction n with
  | zero => rfl
  | succ n ih =>
    rw [Nat.add_right_comm, i2be, List.take_succ_cons, ih, i2be, Nat.div_div_eq_div_mul, ← pow_add, Nat.add_comm k n]

theorem i2be_mod (v n : Nat) : i2be (v % 256 ^ n) n = i2be v n := by
  conv_rhs => rw [← Nat.mod_add_div' v (256 ^ n)]
  exact (i2be_add_mul _ _ n).symm

theorem bytesOfWord_eq_i2be (w : Word) : bytesOfWord w = i2be w.toNat 4 := by
  simp [bytesOfWord, i2be, BitVec.extractLsb', Nat.shiftRight_eq_div_pow]

/-- The word that has `k` bytes of the register below it carries the bytes of the number shifted down by them. -/
theorem bytesOfWord_extractLsb' {n : Nat} (x : BitVec n) (k : Nat) :
    bytesOfWord (x.extractLsb' (8 * k) 32) = i2be (x.toNat / 256 ^ k) 4 := by
  rw [bytesOfWord_eq_i2be, BitVec.extractLsb'_toNat, Nat.shiftRight_eq_div_pow, pow_mul]
  exact i2be_mod _ 4

/-- Bytes `4w` to `4w + 3` of the big-endian encoding are those of word `w`, the most significant word being word 0. -/
theorem bytesOfWord_extractLsb'_eq_i2be_slice (x : BitVec Config.opw) {w : Nat} (hw : w < Config.opw / 32) :
    bytesOfWord (x.extractLsb' (Config.opw - 32 - 32 * w) 32) =
      ((i2be x.toNat Config.bufCap).drop (4 * w)).take 4 := by
  rw [opw_eq] at hw
  have hcap : Config.bufCap = 4 * w + (4 + (252 - 4 * w)) := by rw [bufCap_eq]; omega
  have hlo : Config.opw - 32 - 32 * w = 8 * (252 - 4 * w) := by rw [opw_eq]; omega
  rw [hcap, drop_i2be, take_i2be, hlo, bytesOfWord_extractLsb']

theorem bytesOfWord_wordOfBytes (b0 b1 b2 b3 : Byte) : bytesOfWord (wordOfBytes b0 b1 b2 b3) = [b0, b1, b2, b3] := by
  change [(b0 ++ b1 ++ b2 ++ b3).extractLsb' 24 8, (b0 ++ b1 ++ b2 ++ b3).extractLsb' 16 8,
    (b0 ++ b1 ++ b2 ++ b3).extractLsb' 8 8, (b0 ++ b1 ++ b2 ++ b3).extractLsb' 0 8] = _
  simp (disch := omega) only [BitVec.extractLsb'_append_eq_of_le, BitVec.extractLsb'_append_eq_of_add_le,
    Nat.reduceSub, BitVec.extractLsb'_eq_self]

/-! ### One word of each slot -/

/-- Settles O20: the map gives word `w` of the slot, whose bytes are a slice of the encoding, and the write is
`putWord` on that register alone. -/
theorem integerWindowIsBigEndian : Obligations.IntegerWindowIsBigEndian := by
  intro s i w v rest hb hw
  have hmap := winReg_regWord i hw
  have hread : s.windowRead (0x1000 + 0x400 * i.val + 4 * w) =
      (s.r.get i).extractLsb' (Config.opw - 32 - 32 * w) 32 := by
    simp only [State.windowRead, hmap, getWord]
  have hoff : 0x1000 + 0x400 * i.val + 4 * w < 0x6000 := by rw [opw_eq] at hw; omega
  refine ⟨hread, ?_, fun ha => ?_, fun ha => ?_⟩
  · rw [hread]
    exact bytesOfWord_extractLsb'_eq_i2be_slice (s.r.get i) hw
  · rw [step_idle_read hb ha hoff (by omega), hread]
  · refine ⟨_, step_idle_write hb ha hoff (by omega), ?_⟩
    simp only [State.windowWrite, hmap]
    refine ⟨trivial, fun j hj => get_set_ne s.r hj _, ?_⟩
    rw [get_set_same]
    exact putWord_replaces (by omega) (by omega) (s.r.get i) v

/-- Settles O21: either coordinate's write is `putWord` on that coordinate of that register alone. -/
theorem coordinateWindowIsBigEndian : Obligations.CoordinateWindowIsBigEndian := by
  intro s j w v rest hb hw
  have hx := winReg_xWord j hw
  have hy := winReg_yWord j hw
  refine ⟨?_, ?_, fun ha => ?_, fun ha => ?_⟩
  · simp only [State.windowRead, hx, getWord]
  · simp only [State.windowRead, hy, getWord]
  · refine ⟨_, step_idle_write hb ha (by omega) (by omega), ?_⟩
    simp only [State.windowWrite, hx, get_set_same]
    refine ⟨trivial, fun k hk => get_set_ne s.pt hk _, trivial, trivial, ?_⟩
    exact putWord_replaces (by omega) (by omega) (s.pt.get j).x v
  · refine ⟨_, step_idle_write hb ha (by omega) (by omega), ?_⟩
    simp only [State.windowWrite, hy, get_set_same]
    refine ⟨trivial, fun k hk => get_set_ne s.pt hk _, trivial, trivial, ?_⟩
    exact putWord_replaces (by omega) (by omega) (s.pt.get j).y v

/-- Settles O22: a buffer word is its four storage bytes, and the write is `writeBytes` of the word's bytes. -/
theorem bufferWindowCarriesFourBytes : Obligations.BufferWindowCarriesFourBytes := by
  intro s k n v rest hb hn halign
  have hmap := winReg_bufWord k hn
  obtain ⟨-, -, hoff, -⟩ := winReg_eq_bufWord hmap
  refine ⟨?_, fun ha => ?_⟩
  · simp only [State.windowRead, hmap, bytesOfWord_wordOfBytes]
    rfl
  · refine ⟨_, step_idle_write hb ha hoff (by unfold bufBase; omega), ?_⟩
    simp only [State.windowWrite, hmap]
    exact ⟨trivial, readBytes_writeBytes _ _ (bytesOfWord v) 4 le_rfl, fun _ h => read_writeBytes_outside h⟩

/-! ### The decoder on an encoded command (rules R91 to R94) -/

/-- The fields of a packed word are the ones packed. -/
theorem fields_packFields (op : BitVec 8) (fa fb fc fd : BitVec 4) :
    opField (packFields op fa fb fc fd) = op ∧ faField (packFields op fa fb fc fd) = fa ∧
      fbField (packFields op fa fb fc fd) = fb ∧ fcField (packFields op fa fb fc fd) = fc ∧
      fdField (packFields op fa fb fc fd) = fd ∧ zField (packFields op fa fb fc fd) = 0 := by
  have hcat : ∀ lo len, (packFields op fa fb fc fd).extractLsb' lo len =
      (op ++ fa ++ fb ++ fc ++ fd ++ (0 : BitVec 8)).extractLsb' lo len := fun _ _ => rfl
  unfold opField faField fbField fcField fdField zField
  simp (disch := omega) only [hcat, BitVec.extractLsb'_append_eq_of_le, BitVec.extractLsb'_append_eq_of_add_le,
    Nat.reduceSub, BitVec.extractLsb'_eq_self, and_self]

/-- An index packed into a field is read back from it. -/
theorem indexIn_ixField {n : Nat} (hn : n ≤ 16) (i : Fin n) : indexIn n (ixField i) = .ok i := by
  have hval : (ixField i).toNat = i.val := Nat.mod_eq_of_lt (show i.val < 2 ^ 4 by omega)
  simp only [indexIn, hval, i.isLt, dif_pos]

theorem regField_ixField (i : RegIx) : regField (ixField i) = .ok i := indexIn_ixField (by omega) i

theorem ptField_ixField (i : PtIx) : ptField (ixField i) = .ok i := indexIn_ixField (by omega) i

theorem bufField_ixField (i : BufIx) : bufField (ixField i) = .ok i := indexIn_ixField (by omega) i

theorem unusedField_zero : unusedField 0 = .ok () := rfl

theorem decode_packFields (op : BitVec 8) (fa fb fc fd : BitVec 4) :
    decode (packFields op fa fb fc fd) = decodeOp (packFields op fa fb fc fd) := by
  obtain ⟨-, -, -, -, -, hz⟩ := fields_packFields op fa fb fc fd
  rw [decode, if_pos hz]

/-- Each format reads back the operands its commands pack. -/
theorem decode_encode (i : Instr) : decode (encode i) = .ok i := by
  cases i <;> simp only [encode, decode_packFields, decodeOp, fields_packFields]
  case madd | msub | mmul | mpow => simp only [formatM4, fields_packFields, regField_ixField]; rfl
  case mneg | minv | minvf => simp only [formatM3, fields_packFields, regField_ixField, unusedField_zero]; rfl
  case mrand => simp only [formatM2, fields_packFields, regField_ixField, unusedField_zero]; rfl
  case pkpad | pkunpad => simp only [formatB2, fields_packFields, bufField_ixField, unusedField_zero]; rfl
  case rsakg => simp only [formatRK, fields_packFields, regField_ixField, unusedField_zero]; rfl
  case rsaenc | rsadec => simp only [formatRC, fields_packFields, regField_ixField, bufField_ixField]; rfl
  case padd => simp only [formatP3, fields_packFields, ptField_ixField, unusedField_zero]; rfl
  case pdbl | pneg => simp only [formatP2, fields_packFields, ptField_ixField, unusedField_zero]; rfl
  case smul | smulm => simp only [formatPS, fields_packFields, regField_ixField, ptField_ixField, unusedField_zero]; rfl
  case eckg => simp only [formatEK, fields_packFields, regField_ixField, ptField_ixField, unusedField_zero]; rfl
  case ecdh =>
    simp only [formatEH, fields_packFields, regField_ixField, ptField_ixField, bufField_ixField, unusedField_zero]; rfl

/-! ### A command write and the wait after it -/

theorem issue_of_no_fault {s : State} (w : Word) (h : s.fault = false) : s.issue w = s.accept w := by
  rw [State.issue, h]
  rfl

/-- Settles O7: the write is the acceptance of the word, which decodes to `i`, and the wait gives the core its turn. -/
theorem commandWriteThenWaitRunsTheCommand : Obligations.CommandWriteThenWaitRunsTheCommand := by
  intro s i rest hb hf ha
  have haccept : { s with agenda := .wait :: rest }.windowWrite 0x0010 (encode i) =
      { s with agenda := .wait :: rest }.accept (encode i) := issue_of_no_fault _ hf
  refine ⟨_, step_idle_write hb ha (by omega) (by omega), haccept, ?_⟩
  rw [haccept, step_of_wait rfl, hostWait_busy rest rfl, runCommand_of_decode (decode_encode i)]

end Sys2Proof.Machine

/-! The encoding. The idea: every format of rule R93 is four slots, and a slot reads its field, writes it back, and has its
own mask in the opcode table, so decoder, encoder and table agree as soon as each slot does (rules R91 to R96, R101). Then
the steps and faults that need no operand: an idle PCC, an illegal word in flight, and RSAKG's two rejections (rules R96,
R99, R169, R231, R232, R240, R255). -/

namespace Sys2Proof.Machine

/-! ### A word and its fields (rules R91, R92) -/

/-- Every bit of a word whose low byte is 0 lies in one of the five fields packed. -/
theorem packFields_fields {w : Word} (hz : zField w = 0) :
    packFields (opField w) (faField w) (fbField w) (fcField w) (fdField w) = w := by
  rw [packFields, ← hz]
  refine BitVec.eq_of_getLsbD_eq fun n hn => ?_
  simp only [opField, faField, fbField, fcField, fdField, zField, BitVec.getLsbD_append, BitVec.getLsbD_extractLsb']
  grind

theorem packFields_eq_of_fields {w : Word} {op : BitVec 8} {fa fb fc fd : BitVec 4} (hz : zField w = 0)
    (hop : opField w = op) (ha : fa = faField w) (hb : fb = fbField w) (hc : fc = fcField w) (hd : fd = fdField w) :
    packFields op fa fb fc fd = w := by
  subst hop ha hb hc hd
  exact packFields_fields hz

theorem ixField_toNat {n : Nat} {f : BitVec 4} (h : f.toNat < n) : ixField (⟨f.toNat, h⟩ : Fin n) = f := by
  rw [ixField, BitVec.ofNat_toNat, BitVec.setWidth_eq]

theorem ixField_of_indexIn {n : Nat} {f : BitVec 4} {i : Fin n} (h : indexIn n f = .ok i) : ixField i = f := by
  unfold indexIn at h
  split at h
  case isTrue hlt =>
    cases h
    exact ixField_toNat hlt
  case isFalse => cases h

theorem eq_zero_of_unusedField {f : BitVec 4} {u : Unit} (h : unusedField f = .ok u) : 0 = f := by
  unfold unusedField at h
  split at h
  case isTrue hzero => exact hzero.symm
  case isFalse => cases h

/-- A row that holds for a word holds field by field. -/
theorem fields_of_holds {row : OpRow} {w : Word} (h : row.holds w = true) :
    opField w &&& opField row.mask = opField row.pattern ∧ faField w &&& faField row.mask = faField row.pattern ∧
      fbField w &&& fbField row.mask = fbField row.pattern ∧ fcField w &&& fcField row.mask = fcField row.pattern ∧
      fdField w &&& fdField row.mask = fdField row.pattern ∧ zField w &&& zField row.mask = zField row.pattern := by
  have hbits (lo len : Nat) :
      w.extractLsb' lo len &&& row.mask.extractLsb' lo len = row.pattern.extractLsb' lo len := by
    rw [← BitVec.extractLsb'_and, eq_of_beq h]
  exact ⟨hbits 24 8, hbits 20 4, hbits 16 4, hbits 12 4, hbits 8 4, hbits 0 8⟩

theorem fields_or (v w : Word) :
    opField (v ||| w) = opField v ||| opField w ∧ faField (v ||| w) = faField v ||| faField w ∧
      fbField (v ||| w) = fbField v ||| fbField w ∧ fcField (v ||| w) = fcField v ||| fcField w ∧
      fdField (v ||| w) = fdField v ||| fdField w ∧ zField (v ||| w) = zField v ||| zField w :=
  ⟨BitVec.extractLsb'_or, BitVec.extractLsb'_or, BitVec.extractLsb'_or, BitVec.extractLsb'_or, BitVec.extractLsb'_or,
    BitVec.extractLsb'_or⟩

theorem fields_lowByte :
    opField 0xFF = 0 ∧ faField 0xFF = 0 ∧ fbField 0xFF = 0 ∧ fcField 0xFF = 0 ∧ fdField 0xFF = 0 ∧
      zField 0xFF = BitVec.allOnes 8 := by decide

/-! ### The slots of a format (rules R92, R93) -/

/-- One field of a format: how the decoder reads it, what the encoder writes, and the mask its bits have in the opcode
table. A value read is written back as the field it came from, and the mask admits only fields that are written. -/
structure Slot (α : Type) where
  read : BitVec 4 → Except Illegal α
  write : α → BitVec 4
  mask : BitVec 4
  write_of_read : ∀ {f a}, read f = .ok a → write a = f
  exists_write : ∀ {f}, f &&& mask = 0 → ∃ a, write a = f

/-- An index slot: every field its mask admits is below `n`. -/
def Slot.index (n : Nat) (mask : BitVec 4) (hmask : ∀ f : BitVec 4, f &&& mask = 0 → f.toNat < n) :
    Slot (Fin n) where
  read := indexIn n
  write := ixField
  mask := mask
  write_of_read := ixField_of_indexIn
  exists_write h := ⟨_, ixField_toNat (hmask _ h)⟩

def Slot.reg : Slot RegIx := .index 8 0x8 (by decide)

/-- The `P` and the `B` fields have the same indices. -/
def Slot.ptOrBuf : Slot (Fin 4) := .index 4 0xC (by decide)

def Slot.unused : Slot Unit where
  read := unusedField
  write _ := 0
  mask := 0xF
  write_of_read := eq_zero_of_unusedField
  exists_write {f} h := ⟨(), by revert f; decide⟩

section
variable {A B C D : Type} (a : Slot A) (b : Slot B) (c : Slot C) (d : Slot D) (mk : A → B → C → D → Instr)

/-- A format: its four slots are read in order. Every format of rule R93 unfolds to this form (`encode_of_decodeOp`). -/
def readSlots (w : Word) : Except Illegal Instr := do
  let x ← a.read (faField w)
  let y ← b.read (fbField w)
  let z ← c.read (fcField w)
  let u ← d.read (fdField w)
  return mk x y z u

/-- The row four slots give: `op` and `z` are compared whole, each field under its slot's mask. Every row of the opcode
table unfolds to this form (`exists_encode_of_row_holds`). -/
def slotRow (op : BitVec 8) : OpRow :=
  ⟨packFields (BitVec.allOnes 8) a.mask b.mask c.mask d.mask ||| 0xFF, packFields op 0 0 0 0⟩

variable {op : BitVec 8} {w : Word}

theorem fields_of_slotRow_holds (h : (slotRow a b c d op).holds w = true) :
    opField w = op ∧ faField w &&& a.mask = 0 ∧ fbField w &&& b.mask = 0 ∧ fcField w &&& c.mask = 0 ∧
      fdField w &&& d.mask = 0 ∧ zField w = 0 := by
  have hfields := fields_of_holds h
  simp only [slotRow, fields_or, fields_lowByte, fields_packFields] at hfields
  simpa only [BitVec.ofNat_eq_ofNat, BitVec.or_zero, BitVec.zero_or, BitVec.and_allOnes] using hfields

/-- A format that answers a command has read every field, so the fields the encoder writes are those of the word. -/
theorem encode_of_readSlots {i : Instr} (h : readSlots a b c d mk w = .ok i)
    (hmk : ∀ x y z u, encode (mk x y z u) = packFields op (a.write x) (b.write y) (c.write z) (d.write u))
    (hz : zField w = 0) (hop : (opField w).toNat = op.toNat) : encode i = w := by
  obtain ⟨x, hx, h⟩ := bind_eq_ok h
  obtain ⟨y, hy, h⟩ := bind_eq_ok h
  obtain ⟨z, hz', h⟩ := bind_eq_ok h
  obtain ⟨u, hu, h⟩ := bind_eq_ok h
  cases h
  exact (hmk x y z u).trans (packFields_eq_of_fields hz (BitVec.eq_of_toNat_eq hop) (a.write_of_read hx)
    (b.write_of_read hy) (c.write_of_read hz') (d.write_of_read hu))

/-- A word the row holds for is the encoding of a command with the values its fields come from. -/
theorem exists_encode_of_slotRow
    (hmk : ∀ x y z u, encode (mk x y z u) = packFields op (a.write x) (b.write y) (c.write z) (d.write u))
    (h : (slotRow a b c d op).holds w = true) : ∃ i, encode i = w := by
  obtain ⟨hop, hfa, hfb, hfc, hfd, hz⟩ := fields_of_slotRow_holds a b c d h
  obtain ⟨x, hx⟩ := a.exists_write hfa
  obtain ⟨y, hy⟩ := b.exists_write hfb
  obtain ⟨z, hz'⟩ := c.exists_write hfc
  obtain ⟨u, hu⟩ := d.exists_write hfd
  exact ⟨mk x y z u, (hmk x y z u).trans (packFields_eq_of_fields hz hop hx hy hz' hu)⟩

end

/-! ### The decoder, the encoder and the opcode table agree (rules R91 to R94, R101) -/

/-- Settles O1: each format reads back the operands its commands pack. -/
theorem decodeOfEncodeIsTheInstruction : Obligations.DecodeOfEncodeIsTheInstruction := decode_encode

/-- Each opcode's format is four slots, and the encoder writes its command through the same four; the cases follow the
opcode map, the last one being no opcode. -/
theorem encode_of_decodeOp {w : Word} {i : Instr} (hz : zField w = 0) (h : decodeOp w = .ok i) : encode i = w := by
  unfold decodeOp at h
  split at h
  case h_1 | h_2 | h_3 | h_5 => exact encode_of_readSlots .reg .reg .reg .reg _ h (fun _ _ _ _ => rfl) hz ‹_›
  case h_4 | h_6 | h_7 => exact encode_of_readSlots .reg .reg .unused .reg _ h (fun _ _ _ _ => rfl) hz ‹_›
  case h_8 => exact encode_of_readSlots .reg .unused .unused .reg _ h (fun _ _ _ _ => rfl) hz ‹_›
  case h_9 | h_10 | h_15 | h_16 =>
    exact encode_of_readSlots .ptOrBuf .ptOrBuf .unused .unused _ h (fun _ _ _ _ => rfl) hz ‹_›
  case h_11 => exact encode_of_readSlots .reg .reg .reg .unused _ h (fun _ _ _ _ => rfl) hz ‹_›
  case h_12 | h_13 => exact encode_of_readSlots .ptOrBuf .ptOrBuf .reg .reg _ h (fun _ _ _ _ => rfl) hz ‹_›
  case h_14 => exact encode_of_readSlots .ptOrBuf .ptOrBuf .ptOrBuf .unused _ h (fun _ _ _ _ => rfl) hz ‹_›
  case h_17 | h_18 | h_20 => exact encode_of_readSlots .ptOrBuf .ptOrBuf .reg .unused _ h (fun _ _ _ _ => rfl) hz ‹_›
  case h_19 => exact encode_of_readSlots .ptOrBuf .unused .reg .unused _ h (fun _ _ _ _ => rfl) hz ‹_›
  case h_21 => cases h

/-- Settles O2: the low byte of a decoded word is 0, and the slots of its opcode's format hold the rest. -/
theorem encodeOfDecodedWordIsTheWord : Obligations.EncodeOfDecodedWordIsTheWord := by
  intro w i h
  unfold decode at h
  split at h
  case isTrue hz => exact encode_of_decodeOp hz h
  case isFalse => cases h

/-- Each row of the opcode table is the row of its command's slots. -/
theorem exists_encode_of_row_holds {i : Instr} {w : Word} (h : i.row.holds w = true) : ∃ j, encode j = w := by
  cases i with
  | madd => exact exists_encode_of_slotRow .reg .reg .reg .reg .madd (fun _ _ _ _ => rfl) h
  | msub => exact exists_encode_of_slotRow .reg .reg .reg .reg .msub (fun _ _ _ _ => rfl) h
  | mmul => exact exists_encode_of_slotRow .reg .reg .reg .reg .mmul (fun _ _ _ _ => rfl) h
  | mneg =>
    exact exists_encode_of_slotRow .reg .reg .unused .reg (fun x y _ u => .mneg x y u) (fun _ _ _ _ => rfl) h
  | mpow => exact exists_encode_of_slotRow .reg .reg .reg .reg .mpow (fun _ _ _ _ => rfl) h
  | minv =>
    exact exists_encode_of_slotRow .reg .reg .unused .reg (fun x y _ u => .minv x y u) (fun _ _ _ _ => rfl) h
  | minvf =>
    exact exists_encode_of_slotRow .reg .reg .unused .reg (fun x y _ u => .minvf x y u) (fun _ _ _ _ => rfl) h
  | mrand =>
    exact exists_encode_of_slotRow .reg .unused .unused .reg (fun x _ _ u => .mrand x u) (fun _ _ _ _ => rfl) h
  | pkpad =>
    exact exists_encode_of_slotRow .ptOrBuf .ptOrBuf .unused .unused (fun x y _ _ => .pkpad x y) (fun _ _ _ _ => rfl) h
  | pkunpad =>
    exact exists_encode_of_slotRow .ptOrBuf .ptOrBuf .unused .unused (fun x y _ _ => .pkunpad x y)
      (fun _ _ _ _ => rfl) h
  | rsakg =>
    exact exists_encode_of_slotRow .reg .reg .reg .unused (fun x y z _ => .rsakg x y z) (fun _ _ _ _ => rfl) h
  | rsaenc => exact exists_encode_of_slotRow .ptOrBuf .ptOrBuf .reg .reg .rsaenc (fun _ _ _ _ => rfl) h
  | rsadec => exact exists_encode_of_slotRow .ptOrBuf .ptOrBuf .reg .reg .rsadec (fun _ _ _ _ => rfl) h
  | padd =>
    exact exists_encode_of_slotRow .ptOrBuf .ptOrBuf .ptOrBuf .unused (fun x y z _ => .padd x y z)
      (fun _ _ _ _ => rfl) h
  | pdbl =>
    exact exists_encode_of_slotRow .ptOrBuf .ptOrBuf .unused .unused (fun x y _ _ => .pdbl x y) (fun _ _ _ _ => rfl) h
  | pneg =>
    exact exists_encode_of_slotRow .ptOrBuf .ptOrBuf .unused .unused (fun x y _ _ => .pneg x y) (fun _ _ _ _ => rfl) h
  | smul =>
    exact exists_encode_of_slotRow .ptOrBuf .ptOrBuf .reg .unused (fun x y z _ => .smul x y z) (fun _ _ _ _ => rfl) h
  | smulm =>
    exact exists_encode_of_slotRow .ptOrBuf .ptOrBuf .reg .unused (fun x y z _ => .smulm x y z) (fun _ _ _ _ => rfl) h
  | eckg =>
    exact exists_encode_of_slotRow .ptOrBuf .unused .reg .unused (fun x _ z _ => .eckg x z) (fun _ _ _ _ => rfl) h
  | ecdh =>
    exact exists_encode_of_slotRow .ptOrBuf .ptOrBuf .reg .unused (fun x y z _ => .ecdh x y z) (fun _ _ _ _ => rfl) h

theorem row_mem_opTable (i : Instr) : i.row ∈ opTable := by
  cases i <;> simp [Instr.row, opTable]

/-- The table lists nothing but the commands' rows, in the order of the opcodes. -/
theorem opTable_eq_map_row :
    opTable = [.madd 0 0 0 0, .msub 0 0 0 0, .mmul 0 0 0 0, .mneg 0 0 0, .mpow 0 0 0 0, .minv 0 0 0, .minvf 0 0 0,
      .mrand 0 0, .pkpad 0 0, .pkunpad 0 0, .rsakg 0 0 0, .rsaenc 0 0 0 0, .rsadec 0 0 0 0, .padd 0 0 0, .pdbl 0 0,
      .pneg 0 0, .smul 0 0 0, .smulm 0 0 0, .eckg 0 0, .ecdh 0 0 0].map Instr.row := rfl

theorem exists_decode_of_row_holds {row : OpRow} {w : Word} (hmem : row ∈ opTable) (h : row.holds w = true) :
    ∃ i, decode w = .ok i := by
  rw [opTable_eq_map_row] at hmem
  obtain ⟨i, -, rfl⟩ := List.mem_map.1 hmem
  obtain ⟨j, rfl⟩ := exists_encode_of_row_holds h
  exact ⟨j, decode_encode j⟩

theorem row_holds_encode (i : Instr) : i.row.holds (encode i) = true := by
  cases i
  exacts [Laws.EncodingMatchesRow.madd .., Laws.EncodingMatchesRow.msub .., Laws.EncodingMatchesRow.mmul ..,
    Laws.EncodingMatchesRow.mneg .., Laws.EncodingMatchesRow.mpow .., Laws.EncodingMatchesRow.minv ..,
    Laws.EncodingMatchesRow.minvf .., Laws.EncodingMatchesRow.mrand .., Laws.EncodingMatchesRow.pkpad ..,
    Laws.EncodingMatchesRow.pkunpad .., Laws.EncodingMatchesRow.rsakg .., Laws.EncodingMatchesRow.rsaenc ..,
    Laws.EncodingMatchesRow.rsadec .., Laws.EncodingMatchesRow.padd .., Laws.EncodingMatchesRow.pdbl ..,
    Laws.EncodingMatchesRow.pneg .., Laws.EncodingMatchesRow.smul .., Laws.EncodingMatchesRow.smulm ..,
    Laws.EncodingMatchesRow.eckg .., Laws.EncodingMatchesRow.ecdh ..]

theorem row_holds_of_decode {w : Word} {i : Instr} (h : decode w = .ok i) : i.row.holds w = true := by
  rw [← encodeOfDecodedWordIsTheWord w i h]
  exact row_holds_encode i

/-- Every row compares the whole opcode, and no two rows name the same one. -/
theorem opTable_opField_injective : ∀ r1 ∈ opTable, ∀ r2 ∈ opTable, opField r1.mask = BitVec.allOnes 8 ∧
    (opField r1.pattern = opField r2.pattern → r1 = r2) := by decide

theorem opField_of_row_holds {row : OpRow} {w : Word} (hmem : row ∈ opTable) (h : row.holds w = true) :
    opField w = opField row.pattern := by
  obtain ⟨hop, -⟩ := fields_of_holds h
  obtain ⟨hmask, -⟩ := opTable_opField_injective row hmem row hmem
  rwa [hmask, BitVec.and_allOnes] at hop

/-- Settles O3: the decoded command's row is the row that holds, and the opcode alone tells two rows apart. -/
theorem wordDecodesExactlyWhenARowHolds : Obligations.WordDecodesExactlyWhenARowHolds := by
  refine ⟨fun w => ⟨?_, ?_⟩, fun w i h => ⟨row_mem_opTable i, row_holds_of_decode h⟩, ?_⟩
  · rintro ⟨i, h⟩
    exact ⟨i.row, row_mem_opTable i, row_holds_of_decode h⟩
  · rintro ⟨row, hmem, h⟩
    exact exists_decode_of_row_holds hmem h
  · intro w r1 hmem1 r2 hmem2 h1 h2
    obtain ⟨-, hinj⟩ := opTable_opField_injective r1 hmem1 r2 hmem2
    exact hinj ((opField_of_row_holds hmem1 h1).symm.trans (opField_of_row_holds hmem2 h2))

/-- Settles O4: the seven legal words are encodings, and the four others end at the first check they fail. -/
theorem sampleWordsDecode : Obligations.SampleWordsDecode :=
  ⟨decode_encode (.madd 2 0 1 3), decode_encode (.minv 1 0 2), decode_encode (.pkpad 1 0),
    decode_encode (.rsaenc 1 0 1 0), decode_encode (.smulm 1 0 4), decode_encode (.eckg 0 0),
    decode_encode (.ecdh 0 1 0), rfl, rfl, rfl, rfl⟩

/-! ### RSAKG's rejections (rules R96, R169, R232) -/

theorem exec_rsakg_of_equal_destinations (rd re : RegIx) (s : State) :
    exec (.rsakg rd rd re) s = .next (s.raise .illcmd s.rng) := by
  rw [exec_eq_finish, effectOf, keygenEffect, if_pos rfl, finish_error]

theorem exec_rsakg_of_bad_kbits {rdn rdd : RegIx} (re : RegIx) {s : State} (hne : rdn ≠ rdd)
    (hk : s.kbits.toNat % 2 ≠ 0 ∨ s.kbits.toNat < 4 ∨ Config.opw < s.kbits.toNat) :
    exec (.rsakg rdn rdd re) s = .next (s.raise .param s.rng) := by
  rw [exec_eq_finish, effectOf, keygenEffect, if_neg hne, if_pos hk, finish_error]

/-- Settles O42: both checks come before the first draw. -/
theorem keygenRejectsItsOperands : Obligations.KeygenRejectsItsOperands := by
  refine fun rdn rdd re s => ⟨?_, fun hne hk => ?_⟩
  · rintro rfl
    exact ⟨_, exec_rsakg_of_equal_destinations rdn re s, raise_faulted s _ _, rfl⟩
  · exact ⟨_, exec_rsakg_of_bad_kbits re hne hk, raise_faulted s _ _, rfl⟩

/-! ### An idle PCC, and an illegal word in flight (rules R96, R99, R231, R255) -/

theorem coreTurn_idle {s : State} (h : s.busy = false) : coreTurn s = .next s := by
  simp [coreTurn, h]

theorem hostWait_idle {s : State} (rest : List Event) (h : s.busy = false) :
    hostWait s rest = .next { s with agenda := rest } := by
  simp [hostWait, h]

/-- Settles O12: with BUSY 0 the core's turn and the WAIT both pass. -/
theorem idleMachineWaits : Obligations.IdleMachineWaits := by
  refine fun s hb => ⟨fun ha => ?_, fun rest ha => ?_⟩
  · rw [step_of_nil ha, coreTurn_idle hb]
  · obtain ha | ha := ha
    · rw [step_of_wait ha, hostWait_idle rest hb]
    · rw [step_of_core ha, coreTurn_idle (s := { s with agenda := rest }) hb]

/-- The illegal words of rule R96: no row of the opcode table holds, or the word is RSAKG with equal destinations. -/
def illegalWord (w : Word) : Prop :=
  (∀ row ∈ opTable, row.holds w = false) ∨ ∃ rd re, w = encode (.rsakg rd rd re)

theorem runCommand_of_illegalWord {s : State} (h : illegalWord s.cmd) :
    runCommand s = .next (s.raise .illcmd s.rng) := by
  obtain hrow | ⟨rd, re, hcmd⟩ := h
  · cases hd : decode s.cmd with
    | ok i => exact absurd (row_holds_of_decode hd) (by simp [hrow i.row (row_mem_opTable i)])
    | error e => simp only [runCommand, hd]
  · rw [runCommand_of_decode (hcmd ▸ decode_encode _), exec_rsakg_of_equal_destinations]

/-- Settles O16: each of the three events gives the core its turn on the illegal word. -/
theorem illegalWordFaults : Obligations.IllegalWordFaults := by
  intro s rest hb hill
  refine ⟨fun ha => ?_, fun ha => ?_, fun ha => ?_⟩
  · rw [step_of_nil ha, coreTurn_busy hb, runCommand_of_illegalWord hill]
    rfl
  · rw [step_of_core ha, coreTurn_busy (s := { s with agenda := rest }) hb,
      runCommand_of_illegalWord (s := { s with agenda := rest }) hill]
    rfl
  · rw [step_of_wait ha, hostWait_busy rest hb, runCommand_of_illegalWord hill]
    rfl

end Sys2Proof.Machine

/-! The modular commands (rules R120 to R133). The idea: the effect of each is a fault with the source unmoved, or one write
of a residue below the modulus; a residue below a register's value fits a register, so it reads back whole. -/

namespace Sys2Proof.Machine

/-! ### The value functions, case by case (rules R121 to R131) -/

/-- `x` is the residue `v` modulo `m`, with E_PARAM on modulus 0 its only fault (rules R121, R122). -/
def checkedResidue (m v : Nat) (x : Except ErrCode Nat) : Prop :=
  (m = 0 → x = .error .param) ∧ (0 < m → x = .ok v ∧ v < m)

theorem checkedResidue.lt {m v w : Nat} {x : Except ErrCode Nat} (h : checkedResidue m v x) (hw : x = .ok w) : w < m := by
  obtain ⟨hzero, hpos⟩ := h
  obtain hm | hm := Nat.eq_zero_or_pos m
  · cases (hzero hm).symm.trans hw
  · obtain ⟨hv, hlt⟩ := hpos hm
    cases hv.symm.trans hw
    exact hlt

theorem toNat_emod_lt (z : Int) {m : Nat} (hm : 0 < m) : (z % (m : Int)).toNat < m := by
  have := Int.emod_lt_of_pos z (b := (m : Int)) (by omega)
  omega

/-- The residue of `-x`, by the case split of rule R126. -/
theorem toNat_neg_emod (x m : Nat) : ((-(x : Int)) % (m : Int)).toNat = if x % m = 0 then 0 else m - x % m := by
  simp only [Int.neg_emod, Int.natCast_dvd_natCast, Nat.dvd_iff_mod_eq_zero, Int.natAbs_natCast, ← Int.natCast_mod]
  split <;> omega

theorem modAdd_checkedResidue (x y m : Nat) : checkedResidue m ((x + y) % m) (modAdd x y m) :=
  ⟨fun hm => if_pos hm, fun hm => ⟨if_neg hm.ne', Nat.mod_lt _ hm⟩⟩

theorem modSub_checkedResidue (x y m : Nat) :
    checkedResidue m (((x : Int) - (y : Int)) % (m : Int)).toNat (modSub x y m) :=
  ⟨fun hm => if_pos hm, fun hm => ⟨if_neg hm.ne', toNat_emod_lt _ hm⟩⟩

theorem modMul_checkedResidue (x y m : Nat) : checkedResidue m (x * y % m) (modMul x y m) :=
  ⟨fun hm => if_pos hm, fun hm => ⟨if_neg hm.ne', Nat.mod_lt _ hm⟩⟩

theorem modNeg_checkedResidue (x m : Nat) :
    checkedResidue m (if x % m = 0 then 0 else m - x % m) (modNeg x m) := by
  rw [← toNat_neg_emod]
  exact ⟨fun hm => if_pos hm, fun hm => ⟨if_neg hm.ne', toNat_emod_lt _ hm⟩⟩

theorem modPowChecked_checkedResidue (x y m : Nat) : checkedResidue m (x ^ y % m) (modPowChecked x y m) := by
  rw [← modPow_eq]
  exact ⟨fun hm => if_pos hm, fun hm => ⟨if_neg hm.ne', modPow_eq x y m ▸ Nat.mod_lt _ hm⟩⟩

theorem modInvChecked_of_zero (x : Nat) {m : Nat} (hm : m = 0) : modInvChecked x m = .error .param := if_pos hm

theorem modInvChecked_of_pos (x : Nat) {m : Nat} (hm : 0 < m) : modInvChecked x m = modInv x m := if_neg hm.ne'

theorem modInvChecked_lt {x m v : Nat} (h : modInvChecked x m = .ok v) : v < m := by
  obtain hm | hm := Nat.eq_zero_or_pos m
  · cases (modInvChecked_of_zero x hm).symm.trans h
  · rw [modInvChecked_of_pos x hm] at h
    obtain ⟨hnoinv, hinv⟩ := modInv_spec x m hm
    by_cases hg : Nat.gcd x m = 1
    · obtain ⟨w, hw, hlt, -⟩ := hinv hg
      cases hw.symm.trans h
      exact hlt
    · cases (hnoinv hg).symm.trans h

/-- Two inverses of `x` in `[0, m)` are equal (rule R129). -/
theorem inverse_unique {x m v w : Nat} (hg : Nat.gcd x m = 1) (hv : v < m) (hw : w < m)
    (hxv : x * v % m = 1 % m) (hxw : x * w % m = 1 % m) : v = w := by
  have hmod : v ≡ w [MOD m] := Nat.ModEq.cancel_left_of_coprime (Nat.gcd_comm x m ▸ hg) (hxv.trans hxw.symm)
  rwa [Nat.ModEq, Nat.mod_eq_of_lt hv, Nat.mod_eq_of_lt hw] at hmod

theorem modInvFermat_of_lt_two (x : Nat) {m : Nat} (hm : m < 2) : modInvFermat x m = .error .param := if_pos hm

theorem modInvFermat_of_multiple {x m : Nat} (hm : 2 ≤ m) (hx : x % m = 0) : modInvFermat x m = .error .noinv := by
  rw [modInvFermat, if_neg hm.not_gt, if_pos hx]

theorem modInvFermat_of_not_multiple {x m : Nat} (hm : 2 ≤ m) (hx : x % m ≠ 0) :
    modInvFermat x m = .ok (x ^ (m - 2) % m) := by
  rw [modInvFermat, if_neg hm.not_gt, if_neg hx, modPow_eq]

theorem modInvFermat_lt {x m v : Nat} (h : modInvFermat x m = .ok v) : v < m := by
  obtain hm | hm := Nat.lt_or_ge m 2
  · cases (modInvFermat_of_lt_two x hm).symm.trans h
  · by_cases hx : x % m = 0
    · cases (modInvFermat_of_multiple hm hx).symm.trans h
    · cases (modInvFermat_of_not_multiple hm hx).symm.trans h
      exact Nat.mod_lt _ (by omega)

/-- Modulo a prime, the numbers with an inverse are those that are not a multiple of it. -/
theorem gcd_eq_one_iff_of_prime {p : Nat} (hp : Nat.Prime p) (x : Nat) : Nat.gcd x p = 1 ↔ x % p ≠ 0 := by
  rw [Nat.gcd_comm, ← Nat.coprime_iff_gcd_eq_one, hp.coprime_iff_not_dvd, Nat.dvd_iff_mod_eq_zero]

/-- Fermat's little theorem: modulo a prime, `x^(p-2)` is an inverse of `x` (rule R132). -/
theorem mul_pow_sub_two_mod_of_prime {p x : Nat} (hp : Nat.Prime p) (hx : x % p ≠ 0) :
    x * (x ^ (p - 2) % p) % p = 1 % p := by
  have hexp : p - 2 + 1 = p - 1 := by have := hp.two_le; omega
  calc x * (x ^ (p - 2) % p) % p = x ^ (p - 1) % p := by rw [Nat.mul_mod_mod, ← pow_succ', hexp]
    _ = 1 % p := by
      rw [← Nat.totient_prime hp]
      exact Nat.ModEq.pow_totient ((gcd_eq_one_iff_of_prime hp x).2 hx)

/-! ### The two ends of a command with one register destination -/

theorem exec_of_error {i : Instr} {s : State} {e : ErrCode} (h : effectOf i s = .error (e, s.rng)) :
    ∃ t, exec i s = .next t ∧ faulted e s t ∧ t.rng = s.rng :=
  ⟨s.raise e s.rng, by rw [exec_eq_finish, h, finish_error], raise_faulted s e s.rng, rfl⟩

/-- A residue modulo a register's value reads back from the destination, and nothing but that register, the status and the
source has changed. -/
theorem exec_of_residue {i : Instr} {s : State} {rd rm : RegIx} {v : Nat} {g : Rng}
    (h : effectOf i s = .ok ({ s with rng := g }.setReg rd v)) (hv : v < s.reg rm) :
    ∃ t, exec i s = .next t ∧ t.reg rd = v ∧ completed s t ∧ onlyChanges [rd] [] [] s t ∧ t.rng = g := by
  have ht : exec i s = .next ({ s with rng := g }.setReg rd v).complete := by rw [exec_eq_finish, h, finish_ok]
  exact ⟨_, ht, reg_setReg_same (hv.trans (reg_lt s rm)), ⟨rfl, rfl, rfl, rfl⟩,
    setReg_onlyChanges { s with rng := g } rd v, rfl⟩

theorem exec_putReg_of_error {i : Instr} {s : State} {rd : RegIx} {x : Except ErrCode Nat} {e : ErrCode}
    (hi : effectOf i s = s.putReg rd x) (hx : x = .error e) :
    ∃ t, exec i s = .next t ∧ faulted e s t ∧ t.rng = s.rng :=
  exec_of_error (by rw [hi, hx, putReg_error])

theorem exec_putReg_of_residue {i : Instr} {s : State} {rd rm : RegIx} {x : Except ErrCode Nat} {v : Nat}
    (hi : effectOf i s = s.putReg rd x) (hx : x = .ok v) (hv : v < s.reg rm) :
    ∃ t, exec i s = .next t ∧ t.reg rd = v ∧ completed s t ∧ onlyChanges [rd] [] [] s t ∧ t.rng = s.rng :=
  exec_of_residue (by rw [hi, hx, putReg_ok]) hv

/-- The two cases of the ring commands and MPOW: E_PARAM on modulus 0, else the residue. -/
theorem exec_putReg_of_checkedResidue {i : Instr} {s : State} {rd rm : RegIx} {x : Except ErrCode Nat} {v : Nat}
    (hi : effectOf i s = s.putReg rd x) (hx : checkedResidue (s.reg rm) v x) :
    (s.reg rm = 0 → ∃ t, exec i s = .next t ∧ faulted .param s t ∧ t.rng = s.rng) ∧
      (0 < s.reg rm → ∃ t, exec i s = .next t ∧ t.reg rd = v ∧ completed s t ∧ onlyChanges [rd] [] [] s t ∧
        t.rng = s.rng) := by
  obtain ⟨hzero, hpos⟩ := hx
  refine ⟨fun hm => exec_putReg_of_error hi (hzero hm), fun hm => ?_⟩
  obtain ⟨hok, hlt⟩ := hpos hm
  exact exec_putReg_of_residue hi hok hlt

/-! ### The ring commands and MPOW (rules R123 to R128) -/

/-- Settles O26: the exact sum is reduced once, and the residue fits the destination. -/
theorem addWritesTheResidueOfTheSum : Obligations.AddWritesTheResidueOfTheSum :=
  fun _ _ _ _ _ => exec_putReg_of_checkedResidue rfl (modAdd_checkedResidue _ _ _)

/-- Settles O27: the residue the command writes is non-negative, so as an integer it is the value written. -/
theorem subWritesTheResidueOfTheDifference : Obligations.SubWritesTheResidueOfTheDifference := by
  intro rd rs1 rs2 rm s
  obtain ⟨hzero, hpos⟩ := exec_putReg_of_checkedResidue (i := .msub rd rs1 rs2 rm) rfl
    (modSub_checkedResidue (s.reg rs1) (s.reg rs2) (s.reg rm))
  refine ⟨hzero, fun hm => ?_⟩
  obtain ⟨t, ht, hv, hend⟩ := hpos hm
  exact ⟨t, ht, by rw [hv, Int.toNat_of_nonneg (Int.emod_nonneg _ (by omega))], hend⟩

/-- Settles O28: the exact product is reduced once. -/
theorem mulWritesTheResidueOfTheProduct : Obligations.MulWritesTheResidueOfTheProduct :=
  fun _ _ _ _ _ => exec_putReg_of_checkedResidue rfl (modMul_checkedResidue _ _ _)

/-- Settles O29: the signed residue of `-x` is the rule's case split. -/
theorem negWritesTheAdditiveInverse : Obligations.NegWritesTheAdditiveInverse :=
  fun _ _ _ _ => exec_putReg_of_checkedResidue rfl (modNeg_checkedResidue _ _)

/-- Settles O30: the square-and-multiply loop computes the power. -/
theorem powWritesTheResidueOfThePower : Obligations.PowWritesTheResidueOfThePower :=
  fun _ _ _ _ _ => exec_putReg_of_checkedResidue rfl (modPowChecked_checkedResidue _ _ _)

/-! ### The two inverses (rules R129 to R132) -/

/-- Settles O31: the Euclidean loop finds an inverse exactly when the gcd is 1, and a coprime factor cancels. -/
theorem inverseIsWrittenExactlyWhenItExists : Obligations.InverseIsWrittenExactlyWhenItExists := by
  intro rd rs1 rm s
  refine ⟨fun hm => exec_putReg_of_error rfl (modInvChecked_of_zero _ hm), fun hm hg => ?_, fun hm hg => ?_⟩
  · obtain ⟨hnoinv, -⟩ := modInv_spec (s.reg rs1) (s.reg rm) hm
    exact exec_putReg_of_error rfl ((modInvChecked_of_pos _ hm).trans (hnoinv hg))
  · obtain ⟨-, hinv⟩ := modInv_spec (s.reg rs1) (s.reg rm) hm
    obtain ⟨v, hok, hlt, hxv⟩ := hinv hg
    obtain ⟨t, ht, rfl, hend⟩ := exec_putReg_of_residue (i := .minv rd rs1 rm) rfl
      ((modInvChecked_of_pos _ hm).trans hok) hlt
    exact ⟨t, ht, hlt, hxv, fun w hw hxw => inverse_unique hg hw hlt hxw hxv, hend⟩

/-- Settles O32: the three cases of the value function; no case asks whether the modulus is prime. -/
theorem fermatInverseIsThePower : Obligations.FermatInverseIsThePower := by
  refine fun rd rs1 rm s => ⟨fun hm => exec_putReg_of_error rfl (modInvFermat_of_lt_two _ hm),
    fun hm hx => exec_putReg_of_error rfl (modInvFermat_of_multiple hm hx), fun hm hx => ?_⟩
  exact exec_putReg_of_residue rfl (modInvFermat_of_not_multiple hm hx) (Nat.mod_lt _ (by omega))

/-- Settles O33: by Fermat's little theorem MINVF writes an inverse, and MINV writes the only one. -/
theorem inversesAgreeOnPrimeModuli : Obligations.InversesAgreeOnPrimeModuli := by
  intro rd rs1 rm s hp
  obtain ⟨-, hnoinv, hinv⟩ := inverseIsWrittenExactlyWhenItExists rd rs1 rm s
  obtain ⟨-, hmultiple, hpower⟩ := fermatInverseIsThePower rd rs1 rm s
  have hgcd := gcd_eq_one_iff_of_prime hp (s.reg rs1)
  by_cases hx : s.reg rs1 % s.reg rm = 0
  · obtain ⟨t, ht, htf, -⟩ := hnoinv hp.pos (fun hg => hgcd.1 hg hx)
    obtain ⟨u, hu, huf, -⟩ := hmultiple hp.two_le hx
    exact ⟨t, u, ht, hu, .inr ⟨hx, htf, huf⟩⟩
  · obtain ⟨t, ht, -, -, hunique, htc, -⟩ := hinv hp.pos (hgcd.2 hx)
    obtain ⟨u, hu, hval, huc, -⟩ := hpower hp.two_le hx
    have hu_inverse : u.reg rd = t.reg rd := by
      rw [hval]
      exact hunique _ (Nat.mod_lt _ hp.pos) (mul_pow_sub_two_mod_of_prime hp hx)
    exact ⟨t, u, ht, hu, .inl ⟨hx, htc, huc, hu_inverse.symm⟩⟩

/-! ### MRAND (rule R133) -/

theorem randomEffect_of_zero {s : State} (rd : RegIx) {m : Nat} (hm : m = 0) :
    randomEffect s rd m = .error (.param, s.rng) := if_pos hm

theorem randomEffect_of_pos {s : State} (rd : RegIx) {m : Nat} (hm : 0 < m) :
    randomEffect s rd m = .ok ({ s with rng := randBelowRest m s.rng }.setReg rd (randBelow m s.rng)) := if_neg hm.ne'

/-- Settles O34: the one law of the draw is its bound. -/
theorem randomElementIsBelowTheModulus : Obligations.RandomElementIsBelowTheModulus := by
  refine fun rd rm s => ⟨fun hm => exec_of_error (randomEffect_of_zero rd hm), fun hm => ?_⟩
  have hlt := randBelow_lt s.rng hm
  obtain ⟨t, ht, hv, hc, hframe, -⟩ := exec_of_residue (i := .mrand rd rm) (randomEffect_of_pos rd hm) hlt
  exact ⟨t, ht, by rwa [hv], hc, hframe⟩

/-! ### All eight commands (rules R121, R122) -/

/-- The commands of rules R123 to R133 with given operands. -/
def modularCommands (rd rs1 rs2 rm : RegIx) : List Instr :=
  [.madd rd rs1 rs2 rm, .msub rd rs1 rs2 rm, .mmul rd rs1 rs2 rm, .mneg rd rs1 rm, .mpow rd rs1 rs2 rm, .minv rd rs1 rm,
    .minvf rd rs1 rm, .mrand rd rm]

/-- An effect that writes nothing but a residue below `m` to `r[rd]`. -/
inductive ResidueEffect (s : State) (rd : RegIx) (m : Nat) : Effect → Prop
  | faults (e : ErrCode) : ResidueEffect s rd m (.error (e, s.rng))
  | writes (g : Rng) {v : Nat} : v < m → ResidueEffect s rd m (.ok ({ s with rng := g }.setReg rd v))

theorem putReg_residueEffect {s : State} {rd : RegIx} {m : Nat} {x : Except ErrCode Nat}
    (hx : ∀ v, x = .ok v → v < m) : ResidueEffect s rd m (s.putReg rd x) := by
  cases x with
  | error e => exact .faults e
  | ok v => exact .writes s.rng (hx v rfl)

theorem randomEffect_residueEffect (s : State) (rd : RegIx) (m : Nat) : ResidueEffect s rd m (randomEffect s rd m) := by
  obtain hm | hm := Nat.eq_zero_or_pos m
  · rw [randomEffect_of_zero rd hm]
    exact .faults _
  · rw [randomEffect_of_pos rd hm]
    exact .writes _ (randBelow_lt s.rng hm)

theorem modular_residueEffect {rd rs1 rs2 rm : RegIx} {i : Instr} (s : State) (hi : i ∈ modularCommands rd rs1 rs2 rm) :
    ResidueEffect s rd (s.reg rm) (effectOf i s) := by
  simp only [modularCommands, List.mem_cons, List.not_mem_nil, or_false] at hi
  obtain rfl | rfl | rfl | rfl | rfl | rfl | rfl | rfl := hi
  · exact putReg_residueEffect fun _ => (modAdd_checkedResidue _ _ _).lt
  · exact putReg_residueEffect fun _ => (modSub_checkedResidue _ _ _).lt
  · exact putReg_residueEffect fun _ => (modMul_checkedResidue _ _ _).lt
  · exact putReg_residueEffect fun _ => (modNeg_checkedResidue _ _).lt
  · exact putReg_residueEffect fun _ => (modPowChecked_checkedResidue _ _ _).lt
  · exact putReg_residueEffect fun _ => modInvChecked_lt
  · exact putReg_residueEffect fun _ => modInvFermat_lt
  · exact randomEffect_residueEffect s rd _

/-- Settles O35: a fault would have set FAULT, so the effect was the write of a residue. -/
theorem modularResultsAreBelowTheModulus : Obligations.ModularResultsAreBelowTheModulus := by
  intro rd rs1 rs2 rm i s t hi ht hc hfault
  have heff := modular_residueEffect s hi
  rw [exec_eq_finish] at ht
  cases ht
  generalize effectOf i s = x at heff hc ⊢
  cases heff with
  | faults e =>
    obtain ⟨-, -, hflag, -⟩ := hc
    cases hflag.trans hfault
  | @writes g v hv => exact (reg_setReg_same (hv.trans (reg_lt s rm))).trans_lt hv

theorem exec_modular_of_modulus_zero {rd rs1 rs2 rm : RegIx} {i : Instr} {s : State}
    (hi : i ∈ modularCommands rd rs1 rs2 rm) (hm : s.reg rm = 0) :
    ∃ t, exec i s = .next t ∧ faulted .param s t ∧ t.rng = s.rng := by
  simp only [modularCommands, List.mem_cons, List.not_mem_nil, or_false] at hi
  obtain rfl | rfl | rfl | rfl | rfl | rfl | rfl | rfl := hi
  · exact (addWritesTheResidueOfTheSum rd rs1 rs2 rm s).1 hm
  · exact (subWritesTheResidueOfTheDifference rd rs1 rs2 rm s).1 hm
  · exact (mulWritesTheResidueOfTheProduct rd rs1 rs2 rm s).1 hm
  · exact (negWritesTheAdditiveInverse rd rs1 rm s).1 hm
  · exact (powWritesTheResidueOfThePower rd rs1 rs2 rm s).1 hm
  · exact (inverseIsWrittenExactlyWhenItExists rd rs1 rm s).1 hm
  · exact (fermatInverseIsThePower rd rs1 rm s).1 (by omega)
  · exact (randomElementIsBelowTheModulus rd rm s).1 hm

/-- A residue modulo 1 is 0. -/
theorem exec_putReg_of_modulus_one {i : Instr} {s : State} {rd rm : RegIx} {x : Except ErrCode Nat} {v : Nat}
    (hi : effectOf i s = s.putReg rd x) (hx : checkedResidue (s.reg rm) v x) (hm : s.reg rm = 1) :
    ∃ t, exec i s = .next t ∧ completed s t ∧ t.reg rd = 0 := by
  obtain ⟨-, hpos⟩ := hx
  obtain ⟨hok, hlt⟩ := hpos (by omega)
  obtain ⟨t, ht, hv, hc, -⟩ := exec_putReg_of_residue hi hok hlt
  exact ⟨t, ht, hc, by omega⟩

/-- Settles O36: 0 is the only residue modulo 1, and every number is coprime to 1. -/
theorem modulusZeroFaultsAndModulusOneGivesZero : Obligations.ModulusZeroFaultsAndModulusOneGivesZero := by
  refine fun rd rs1 rs2 rm s => ⟨fun i hi hm => exec_modular_of_modulus_zero hi hm, fun i hi hm => ?_,
    fun hm => exec_putReg_of_error rfl (modInvFermat_of_lt_two _ (by omega))⟩
  simp only [List.mem_cons, List.not_mem_nil, or_false] at hi
  obtain rfl | rfl | rfl | rfl | rfl | rfl | rfl := hi
  · exact exec_putReg_of_modulus_one rfl (modAdd_checkedResidue _ _ _) hm
  · exact exec_putReg_of_modulus_one rfl (modSub_checkedResidue _ _ _) hm
  · exact exec_putReg_of_modulus_one rfl (modMul_checkedResidue _ _ _) hm
  · exact exec_putReg_of_modulus_one rfl (modNeg_checkedResidue _ _) hm
  · exact exec_putReg_of_modulus_one rfl (modPowChecked_checkedResidue _ _ _) hm
  · obtain ⟨-, -, hinv⟩ := inverseIsWrittenExactlyWhenItExists rd rs1 rm s
    obtain ⟨t, ht, hlt, -, -, hc, -⟩ := hinv (by omega) (by rw [hm, Nat.gcd_one_right])
    exact ⟨t, ht, hc, by omega⟩
  · obtain ⟨-, hrand⟩ := randomElementIsBelowTheModulus rd rm s
    obtain ⟨t, ht, hlt, hc, -⟩ := hrand (by omega)
    exact ⟨t, ht, hc, by omega⟩

end Sys2Proof.Machine

/-! PKCS#1 padding (rules R150 to R155). The idea: the separator Unpad looks for is the first zero byte after the leading `00 02`, and
a padding run holds no zero byte after the remap, so in a padded block it is the zero byte Pad wrote before the message. -/

namespace Sys2Proof.Machine

/-! ### A buffer as the source and as the destination of a command (rule R31) -/

theorem bufBytes_length (s : State) (k : BufIx) : (s.bufBytes k).length = s.bufLen k := readBytes_length _ _ _

theorem buf_of_lengthTooLarge {s : State} {k : BufIx} (h : lengthTooLarge s k) : s.buf k = .error .param := if_pos h

theorem buf_of_not_lengthTooLarge {s : State} {k : BufIx} (h : ¬ lengthTooLarge s k) : s.buf k = .ok (s.bufBytes k) :=
  if_neg h

/-- A sequence within the capacity is held by the destination, and nothing but that buffer, the status and the source has
changed. -/
theorem exec_of_bytes {i : Instr} {s : State} {bd : BufIx} {bytes : List Byte} {g : Rng}
    (h : effectOf i s = .ok ({ s with rng := g }.setBuf bd bytes)) (hcap : bytes.length ≤ Config.bufCap) :
    ∃ t, exec i s = .next t ∧ completed s t ∧ onlyChanges [] [] [bd] s t ∧ t.rng = g ∧ holdsBytes t bd bytes := by
  have ht : exec i s = .next ({ s with rng := g }.setBuf bd bytes).complete := by rw [exec_eq_finish, h, finish_ok]
  exact ⟨_, ht, ⟨rfl, rfl, rfl, rfl⟩, setBuf_onlyChanges { s with rng := g } bd bytes hcap, rfl,
    setBuf_holdsBytes _ bd bytes hcap⟩

/-! ### Pad (rules R150, R151) -/

theorem remapZero_ne_zero (b : Byte) : remapZero b ≠ 0x00 := by
  unfold remapZero
  split
  case isTrue => decide
  case isFalse h => exact h

/-- A padded block as its two leading bytes and the rest. -/
theorem paddedBlock_eq_cons_cons (run msg : List Byte) : paddedBlock run msg = 0x00 :: 0x02 :: (run ++ 0x00 :: msg) := by
  simp [paddedBlock]

theorem paddedBlock_length (run msg : List Byte) : (paddedBlock run msg).length = run.length + msg.length + 3 := by
  simp only [paddedBlock_eq_cons_cons, List.length_cons, List.length_append]
  omega

theorem pad_of_long {msg : List Byte} {kbits : Nat} (g : Rng) (h : kbits / 8 < msg.length + 11) :
    pad msg kbits g = .error (.msglong, g) := if_pos (by omega)

theorem pad_of_fits {msg : List Byte} {kbits : Nat} (g : Rng) (h : msg.length + 11 ≤ kbits / 8) :
    pad msg kbits g = .ok (paddedBlock ((g.bytes (kbits / 8 - 3 - msg.length)).map remapZero) msg,
      g.skip (kbits / 8 - 3 - msg.length)) := if_neg (by omega)

/-! ### PKPAD (rule R152) -/

/-- E_PARAM, by the size register or by the length of the message. -/
theorem padEffect_of_param {s : State} (bd : BufIx) {bs : BufIx}
    (h : s.kbits.toNat % 8 ≠ 0 ∨ Config.bufCap < s.kbits.toNat / 8 ∨ lengthTooLarge s bs) :
    padEffect s bd bs = .error (.param, s.rng) := by
  unfold padEffect
  split
  case isTrue => rfl
  case isFalse hkbits =>
    have hlong : lengthTooLarge s bs := by tauto
    rw [buf_of_lengthTooLarge hlong]

theorem padEffect_of_operands {s : State} (bd : BufIx) {bs : BufIx} (hmult : s.kbits.toNat % 8 = 0)
    (hcap : s.kbits.toNat / 8 ≤ Config.bufCap) (hlen : ¬ lengthTooLarge s bs) :
    padEffect s bd bs = s.putBufDrawn bd (pad (s.bufBytes bs) s.kbits.toNat s.rng) := by
  rw [padEffect, if_neg (by omega), buf_of_not_lengthTooLarge hlen]

/-- Settles O37: the operand checks come first, then the length check, and the block written is as long as the key. -/
theorem padWritesThePaddedBlock : Obligations.PadWritesThePaddedBlock := by
  refine fun bd bs s => ⟨fun h => exec_of_error (padEffect_of_param bd h), fun hmult hcap hlen hlong => ?_,
    fun hmult hcap hfits => ?_⟩
  · refine exec_of_error ?_
    rw [effectOf, padEffect_of_operands bd hmult hcap hlen, pad_of_long _ (by rwa [bufBytes_length]), putBufDrawn_error]
  · have hlen : ¬ lengthTooLarge s bs := by omega
    have heff : effectOf (.pkpad bd bs) s = _ := padEffect_of_operands bd hmult hcap hlen
    rw [pad_of_fits _ (by rwa [bufBytes_length]), putBufDrawn_ok, bufBytes_length] at heff
    have hblock : (paddedBlock ((s.rng.bytes (s.kbits.toNat / 8 - 3 - s.bufLen bs)).map remapZero)
        (s.bufBytes bs)).length = s.kbits.toNat / 8 := by
      rw [paddedBlock_length, List.length_map, rngBytes_length, bufBytes_length]
      omega
    obtain ⟨t, ht, hc, hframe, hrng, hbytes, hlent, hrest⟩ := exec_of_bytes heff (by omega)
    exact ⟨t, ht, hc, hframe, hrng, hlent.trans hblock, hbytes, hlent, hrest⟩

/-! ### Unpad (rule R153) -/

theorem afterSeparator_eq_findIdx? (bs : List Byte) :
    afterSeparator bs = (bs.findIdx? (· == 0x00)).map fun n => bs.drop (n + 1) := by
  induction bs with
  | nil => rfl
  | cons b bs ih =>
    rw [afterSeparator, List.findIdx?_cons]
    by_cases hb : b = 0x00
    · rw [if_pos hb, if_pos (beq_iff_eq.2 hb)]
      rfl
    · rw [if_neg hb, if_neg (by simpa using hb), ih, Option.map_map]
      rfl

theorem findIdx?_zero_eq_some_iff {bs : List Byte} {n : Nat} :
    bs.findIdx? (· == 0x00) = some n ↔ bs[n]? = some 0x00 ∧ ∀ j, j < n → bs[j]? ≠ some 0x00 := by
  rw [List.findIdx?_eq_some_iff_getElem]
  constructor
  · rintro ⟨hn, hzero, hbefore⟩
    refine ⟨?_, fun j hj => ?_⟩
    · simpa [List.getElem?_eq_getElem hn] using hzero
    · simpa [List.getElem?_eq_getElem (hj.trans hn)] using hbefore j hj
  · rintro ⟨hzero, hbefore⟩
    obtain ⟨hn, hval⟩ := List.getElem?_eq_some_iff.1 hzero
    refine ⟨hn, by simpa using hval, fun j hj => ?_⟩
    simpa [List.getElem?_eq_getElem (hj.trans hn)] using hbefore j hj

/-- The separator of a sequence of two bytes and more: the first zero byte behind the leading `00 02`. -/
theorem separatorAt_cons_cons {b0 b1 : Byte} {rest : List Byte} {i : Nat} :
    separatorAt (b0 :: b1 :: rest) i ↔
      b0 = 0x00 ∧ b1 = 0x02 ∧ ∃ n, i = n + 2 ∧ rest.findIdx? (· == 0x00) = some n := by
  constructor
  · rintro ⟨h0, h1, hi, hzero, hbefore⟩
    obtain ⟨n, rfl⟩ := Nat.exists_eq_add_of_le' hi
    refine ⟨by simpa using h0, by simpa using h1, n, rfl, findIdx?_zero_eq_some_iff.2 ⟨by simpa using hzero, ?_⟩⟩
    exact fun j hj => by simpa using hbefore (j + 2) (by omega) (by omega)
  · rintro ⟨rfl, rfl, n, rfl, hn⟩
    obtain ⟨hzero, hbefore⟩ := findIdx?_zero_eq_some_iff.1 hn
    refine ⟨rfl, rfl, by omega, by simpa using hzero, fun j hj hjn => ?_⟩
    obtain ⟨m, rfl⟩ := Nat.exists_eq_add_of_le' hj
    simpa using hbefore m (by omega)

theorem unpad_of_separatorAt {bs : List Byte} {i : Nat} (h : separatorAt bs i) : unpad bs = .ok (bs.drop (i + 1)) := by
  match bs with
  | [] | [_] =>
    obtain ⟨-, h1, -⟩ := h
    cases h1
  | b0 :: b1 :: rest =>
    obtain ⟨rfl, rfl, n, rfl, hn⟩ := separatorAt_cons_cons.1 h
    rw [unpad, if_pos ⟨rfl, rfl⟩, afterSeparator_eq_findIdx?, hn]
    rfl

theorem unpad_of_no_separator {bs : List Byte} (h : ∀ i, ¬ separatorAt bs i) : unpad bs = .error .badpad := by
  match bs with
  | [] | [_] => rfl
  | b0 :: b1 :: rest =>
    rw [unpad]
    split
    case isFalse => rfl
    case isTrue hstart =>
      obtain ⟨rfl, rfl⟩ := hstart
      cases hn : rest.findIdx? (· == 0x00) with
      | none =>
        rw [afterSeparator_eq_findIdx?, hn]
        rfl
      | some n => exact absurd (separatorAt_cons_cons.2 ⟨rfl, rfl, n, rfl, hn⟩) (h _)

/-! ### PKUNPAD (rule R154) -/

theorem effectOf_pkunpad {s : State} (bd : BufIx) {bs : BufIx} (hlen : ¬ lengthTooLarge s bs) :
    effectOf (.pkunpad bd bs) s = s.putBuf bd (unpad (s.bufBytes bs)) := by
  rw [effectOf, buf_of_not_lengthTooLarge hlen, Except.bind]

/-- Settles O38: the operand check, then Unpad with a separator or without. -/
theorem unpadWritesWhatFollowsTheSeparator : Obligations.UnpadWritesWhatFollowsTheSeparator := by
  refine fun bd bs s => ⟨fun hlong => exec_of_error ?_, fun i hlen hsep => ?_, fun hlen hnone => exec_of_error ?_⟩
  · rw [effectOf, buf_of_lengthTooLarge hlong, Except.bind, putBuf_error]
  · have heff := effectOf_pkunpad bd hlen
    rw [unpad_of_separatorAt hsep, putBuf_ok] at heff
    refine exec_of_bytes heff ?_
    rw [List.length_drop, bufBytes_length]
    omega
  · rw [effectOf_pkunpad bd hlen, unpad_of_no_separator hnone, putBuf_error]

/-! ### The round trip (rule R155) -/

/-- The separator of a padded block is the zero byte behind its padding run. -/
theorem separatorAt_paddedBlock {run : List Byte} (msg : List Byte) (hrun : ∀ b ∈ run, b ≠ 0x00) :
    separatorAt (paddedBlock run msg) (run.length + 2) := by
  have hnone : run.findIdx? (· == 0x00) = none := List.findIdx?_eq_none_iff.2 fun b hb => by simpa using hrun b hb
  rw [paddedBlock_eq_cons_cons, separatorAt_cons_cons]
  refine ⟨rfl, rfl, run.length, rfl, ?_⟩
  rw [List.findIdx?_append, hnone, Option.none_or, List.findIdx?_cons, if_pos (beq_self_eq_true _), Option.map_some,
    Nat.zero_add]

theorem drop_paddedBlock (run msg : List Byte) : (paddedBlock run msg).drop (run.length + 2 + 1) = msg := by
  rw [paddedBlock_eq_cons_cons]
  simp

/-- Settles O39: PKPAD leaves a padded block with no zero byte in its run, and PKUNPAD writes what follows the run's
separator. -/
theorem padThenUnpadRestoresTheMessage : Obligations.PadThenUnpadRestoresTheMessage := by
  intro b0 b1 b2 s hmult hcap
  obtain ⟨-, hlong, hfits⟩ := padWritesThePaddedBlock b1 b0 s
  refine ⟨fun hmsg => ?_, fun hmsg hlen => ?_⟩
  · obtain ⟨t, ht, hct, -, -, hlent, hblock, -⟩ := hfits hmult hcap hmsg
    obtain ⟨-, hunpad, -⟩ := unpadWritesWhatFollowsTheSeparator b2 b1 t
    obtain ⟨run, hrun, hpadded⟩ : ∃ run, (∀ b ∈ run, b ≠ 0x00) ∧ t.bufBytes b1 = paddedBlock run (s.bufBytes b0) :=
      ⟨(s.rng.bytes (s.kbits.toNat / 8 - 3 - s.bufLen b0)).map remapZero,
        List.forall_mem_map.2 fun b _ => remapZero_ne_zero b, hblock⟩
    obtain ⟨u, hu, hcu, -, -, hbytes, hlenu, -⟩ :=
      hunpad _ (by omega) (hpadded ▸ separatorAt_paddedBlock (s.bufBytes b0) hrun)
    rw [hpadded, drop_paddedBlock] at hbytes hlenu
    exact ⟨t, u, ht, hct, hu, hcu, hbytes, hlenu.trans (bufBytes_length s b0)⟩
  · obtain ⟨t, ht, hf, -⟩ := hlong hmult hcap hlen hmsg
    exact ⟨t, ht, hf⟩

end Sys2Proof.Machine

/-! RSA encryption and decryption (rules R172 to R174). The idea: the padded block of N's own byte length starts with a zero
byte, so its number is below N and its minimal encoding is the block without that byte; the power with the product of the two
exponents is the identity below N. -/

namespace Sys2Proof.Machine

/-! ### Minimal encodings and the byte length of a modulus (rule R16) -/

@[simp] theorem be_zero_cons (bs : List Byte) : be (0x00 :: bs) = be bs := by simp [be]

/-- A number does not fit fewer bytes than its minimal encoding. -/
theorem pow_bytesFor_le {v n : Nat} (h : n < bytesFor (bitlen v)) : 256 ^ n ≤ v := by
  by_contra hlt
  have hbits : bitlen v ≤ 8 * n := (bitlen_le_iff v (8 * n)).2 (by rw [pow_mul]; exact not_le.1 hlt)
  rw [bytesFor] at h
  omega

theorem two_pow_le_be_cons {b : Byte} (hb : b ≠ 0x00) (bs : List Byte) : 256 ^ bs.length ≤ be (b :: bs) := by
  have hpos : 0 < b.toNat := Nat.pos_of_ne_zero fun h => hb (BitVec.eq_of_toNat_eq h)
  exact (Nat.le_mul_of_pos_left _ hpos).trans (Nat.le_add_right _ _)

/-- A sequence without a leading zero byte is the minimal encoding of its number. -/
theorem i2beMin_be_cons {b : Byte} (hb : b ≠ 0x00) (bs : List Byte) : i2beMin (be (b :: bs)) = b :: bs := by
  have hlow := two_pow_le_be_cons hb bs
  have hlen : (i2beMin (be (b :: bs))).length ≤ bs.length + 1 := by
    refine i2beMin_length_le ?_
    rw [pow_mul]
    exact be_lt (b :: bs)
  have hbytes : bytesFor (bitlen (be (b :: bs))) = bs.length + 1 := by
    rw [i2beMin_length] at hlen
    have hlt := hlow.trans_lt (lt_pow_bytesFor (be (b :: bs)))
    rw [Nat.pow_lt_pow_iff_right (by omega)] at hlt
    omega
  rw [i2beMin, hbytes]
  exact i2be_be (b :: bs)

theorem bytesFor_bitlen_reg_le (s : State) (i : RegIx) : bytesFor (bitlen (s.reg i)) ≤ Config.bufCap := by
  have hwidth : 8 * Config.bufCap = Config.opw := rfl
  rw [← i2beMin_length]
  refine i2beMin_length_le ?_
  rw [hwidth]
  exact reg_lt s i

/-- A sequence with a leading zero byte and the byte length of the modulus is below the modulus: with the length taken from N,
E_MSGLARGE cannot occur (rule R172). -/
theorem be_zero_cons_lt {bs : List Byte} {modulus : Nat}
    (hlen : (0x00 :: bs).length = bytesFor (bitlen modulus)) : be (0x00 :: bs) < modulus := by
  rw [List.length_cons] at hlen
  rw [be_zero_cons]
  exact (be_lt bs).trans_le (pow_bytesFor_le (by omega))

/-! ### RSAENC (rule R172) -/

theorem encryptEffect_of_param {s : State} (bd : BufIx) {bs : BufIx} (e : Nat) {modulus : Nat}
    (h : modulus = 0 ∨ lengthTooLarge s bs) : encryptEffect s bd bs e modulus = .error (.param, s.rng) := by
  unfold encryptEffect
  split
  case isTrue => rfl
  case isFalse hm => rw [buf_of_lengthTooLarge (h.resolve_left hm)]

theorem encryptEffect_of_operands {s : State} (bd : BufIx) {bs : BufIx} (e : Nat) {modulus : Nat} (hm : 0 < modulus)
    (hlen : ¬ lengthTooLarge s bs) :
    encryptEffect s bd bs e modulus = s.putBufDrawn bd (rsaEncrypt (s.bufBytes bs) e modulus s.rng) := by
  rw [encryptEffect, if_neg hm.ne', buf_of_not_lengthTooLarge hlen]

theorem rsaEncrypt_of_long {msg : List Byte} {modulus : Nat} (e : Nat) (g : Rng)
    (h : bytesFor (bitlen modulus) < msg.length + 11) : rsaEncrypt msg e modulus g = .error (.msglong, g) := by
  rw [rsaEncrypt, pad_of_long g (by omega)]

/-- The block RSAENC raises to the power: Pad to the modulus' own byte length (rules R151, R172). -/
def encryptionBlock (msg : List Byte) (modulus : Nat) (g : Rng) : List Byte :=
  paddedBlock ((g.bytes (bytesFor (bitlen modulus) - 3 - msg.length)).map remapZero) msg

theorem encryptionBlock_length {msg : List Byte} {modulus : Nat} (g : Rng)
    (h : msg.length + 11 ≤ bytesFor (bitlen modulus)) :
    (encryptionBlock msg modulus g).length = bytesFor (bitlen modulus) := by
  rw [encryptionBlock, paddedBlock_length, List.length_map, rngBytes_length]
  omega

theorem be_encryptionBlock_lt {msg : List Byte} {modulus : Nat} (g : Rng)
    (h : msg.length + 11 ≤ bytesFor (bitlen modulus)) : be (encryptionBlock msg modulus g) < modulus := by
  have hlen := encryptionBlock_length g h
  rw [encryptionBlock, paddedBlock_eq_cons_cons] at hlen ⊢
  exact be_zero_cons_lt hlen

theorem rsaEncrypt_of_fits {msg : List Byte} {modulus : Nat} (e : Nat) (g : Rng)
    (h : msg.length + 11 ≤ bytesFor (bitlen modulus)) :
    rsaEncrypt msg e modulus g = .ok (i2beMin (be (encryptionBlock msg modulus g) ^ e % modulus),
      g.skip (bytesFor (bitlen modulus) - 3 - msg.length)) := by
  have hlt := be_encryptionBlock_lt g h
  have hpad := pad_of_fits (kbits := 8 * bytesFor (bitlen modulus)) g (by omega : msg.length + 11 ≤ _)
  rw [Nat.mul_div_cancel_left _ (by omega)] at hpad
  rw [rsaEncrypt, hpad]
  exact (if_neg hlt.not_ge).trans (by rw [modPow_eq, encryptionBlock])

/-- Settles O44: the operand checks, the length check, then the power of a block that is below the modulus. -/
theorem encryptWritesTheMinimalCiphertext : Obligations.EncryptWritesTheMinimalCiphertext := by
  refine fun bd bs rx rn s => ⟨fun h => exec_of_error (encryptEffect_of_param bd _ h), fun hm hlen hlong => ?_,
    fun hm hfits => ?_⟩
  · refine exec_of_error ?_
    rw [effectOf, encryptEffect_of_operands bd _ hm hlen, rsaEncrypt_of_long _ _ (by rwa [bufBytes_length]),
      putBufDrawn_error]
  · have hcap := bytesFor_bitlen_reg_le s rn
    have hfits' : (s.bufBytes bs).length + 11 ≤ bytesFor (bitlen (s.reg rn)) := by rwa [bufBytes_length]
    have hlen : ¬ lengthTooLarge s bs := by rw [bufBytes_length] at hfits'; omega
    have heff : effectOf (.rsaenc bd bs rx rn) s = _ := encryptEffect_of_operands bd (s.reg rx) hm hlen
    rw [rsaEncrypt_of_fits _ _ hfits', putBufDrawn_ok, bufBytes_length] at heff
    have hout := i2beMin_modPow_reg_length s (be (encryptionBlock (s.bufBytes bs) (s.reg rn) s.rng)) (s.reg rx) hm.ne'
    rw [modPow_eq] at hout
    obtain ⟨t, ht, hc, hframe, hrng, hholds⟩ := exec_of_bytes heff hout
    refine ⟨t, _, ht, hc, hframe, hrng, ?_, be_encryptionBlock_lt s.rng hfits', hholds⟩
    rw [encryptionBlock, bufBytes_length]
    rfl

/-! ### RSADEC (rule R173) -/

theorem decryptValue_of_param {s : State} {bs : BufIx} (d : Nat) {modulus : Nat}
    (h : modulus = 0 ∨ lengthTooLarge s bs) : decryptValue s bs d modulus = .error .param := by
  unfold decryptValue
  split
  case isTrue => rfl
  case isFalse hm => rw [buf_of_lengthTooLarge (h.resolve_left hm), Except.bind]

theorem effectOf_rsadec {s : State} (bd : BufIx) {bs : BufIx} (rx : RegIx) {rn : RegIx} (hm : 0 < s.reg rn)
    (hlen : ¬ lengthTooLarge s bs) :
    effectOf (.rsadec bd bs rx rn) s =
      s.putBuf bd (unpad (0x00 :: i2beMin (be (s.bufBytes bs) ^ s.reg rx % s.reg rn))) := by
  rw [effectOf, decryptValue, if_neg hm.ne', buf_of_not_lengthTooLarge hlen, Except.bind, rsaDecrypt, modPow_eq]

/-- Settles O45: the operand checks, then Unpad of the rebuilt block with a separator or without. -/
theorem decryptUnpadsThePower : Obligations.DecryptUnpadsThePower := by
  refine fun bd bs rx rn s => ⟨fun h => exec_of_error ?_, ?_, ?_⟩
  · rw [effectOf, decryptValue_of_param _ h, putBuf_error]
  · rintro i em hm hlen rfl hsep
    have heff := effectOf_rsadec bd rx hm hlen
    rw [unpad_of_separatorAt hsep, putBuf_ok] at heff
    have hpow := i2beMin_modPow_reg_length s (be (s.bufBytes bs)) (s.reg rx) hm.ne'
    rw [modPow_eq] at hpow
    refine exec_of_bytes heff ?_
    rw [List.length_drop, List.length_cons]
    omega
  · rintro em hm hlen rfl hnone
    refine exec_of_error ?_
    rw [effectOf_rsadec bd rx hm hlen, unpad_of_no_separator hnone, putBuf_error]

/-! ### The round trip (rule R174) -/

/-- Fermat's little theorem for exponents: modulo a prime `p`, a positive exponent that is 1 modulo `p - 1` does nothing. -/
theorem pow_modEq_self_of_prime {p n : Nat} (hp : Nat.Prime p) (hn : 0 < n) (h : n ≡ 1 [MOD p - 1]) (m : Nat) :
    m ^ n ≡ m [MOD p] := by
  have := Fact.mk hp
  obtain ⟨k, hk⟩ : p - 1 ∣ n - 1 := (Nat.modEq_iff_dvd' hn).1 h.symm
  obtain rfl : n = (p - 1) * k + 1 := by omega
  rw [← ZMod.natCast_eq_natCast_iff]
  push_cast
  by_cases hm : (m : ZMod p) = 0
  · rw [hm, zero_pow (Nat.succ_ne_zero _)]
  · rw [pow_succ, pow_mul, ZMod.pow_card_sub_one_eq_one hm, one_pow, one_mul]

/-- Two distinct numbers less 1 are not both 1, nor is their lcm, so an exponent that is 1 modulo the lcm is not 0. -/
theorem pos_of_modEq_one_lcm {p q n : Nat} (hne : p ≠ q)
    (h : n ≡ 1 [MOD Nat.lcm (p - 1) (q - 1)]) : 0 < n := by
  refine Nat.pos_of_ne_zero ?_
  rintro rfl
  have hone : Nat.lcm (p - 1) (q - 1) = 1 := Nat.dvd_one.1 ((Nat.modEq_zero_iff_dvd).1 h.symm)
  have hp1 : p - 1 = 1 := Nat.dvd_one.1 ((Nat.dvd_lcm_left _ _).trans hone.dvd)
  have hq1 : q - 1 = 1 := Nat.dvd_one.1 ((Nat.dvd_lcm_right _ _).trans hone.dvd)
  omega

/-- The RSA theorem (rule R174): below the product of two distinct primes, an exponent that is 1 modulo the lcm does nothing. -/
theorem pow_mod_eq_self {p q n m : Nat} (hp : Nat.Prime p) (hq : Nat.Prime q) (hne : p ≠ q)
    (h : n ≡ 1 [MOD Nat.lcm (p - 1) (q - 1)]) (hm : m < p * q) : m ^ n % (p * q) = m := by
  have hn := pos_of_modEq_one_lcm hne h
  have hmodp := pow_modEq_self_of_prime hp hn (h.of_dvd (Nat.dvd_lcm_left _ _)) m
  have hmodq := pow_modEq_self_of_prime hq hn (h.of_dvd (Nat.dvd_lcm_right _ _)) m
  have hmod : m ^ n ≡ m [MOD p * q] :=
    (Nat.modEq_and_modEq_iff_modEq_mul ((Nat.coprime_primes hp hq).2 hne)).1 ⟨hmodp, hmodq⟩
  exact Eq.trans hmod (Nat.mod_eq_of_lt hm)

/-- The zero byte RSADEC puts before the minimal encoding restores a padded block (rule R173). -/
theorem zero_cons_i2beMin_be_paddedBlock (run msg : List Byte) :
    0x00 :: i2beMin (be (paddedBlock run msg)) = paddedBlock run msg := by
  rw [paddedBlock_eq_cons_cons, be_zero_cons, i2beMin_be_cons (by decide)]

/-- Settles O46: RSAENC leaves the power of a padded block, RSADEC's power gives the block back, and what follows its
separator is the message. -/
theorem decryptOfEncryptRestoresTheMessage : Obligations.DecryptOfEncryptRestoresTheMessage := by
  intro b0 b1 b2 re rd rn s p q hp hq hne hmodulus hexp hfits
  have hpos : 0 < s.reg rn := hmodulus ▸ Nat.mul_pos hp.pos hq.pos
  obtain ⟨-, -, hencrypt⟩ := encryptWritesTheMinimalCiphertext b1 b0 re rn s
  obtain ⟨t, em, ht, hct, ⟨hregs, -⟩, -, hem, hlt, hcipher, hlen, -⟩ := hencrypt hpos hfits
  obtain ⟨run, hrun, rfl⟩ : ∃ run, (∀ b ∈ run, b ≠ 0x00) ∧ em = paddedBlock run (s.bufBytes b0) :=
    ⟨(s.rng.bytes (bytesFor (bitlen (s.reg rn)) - 3 - s.bufLen b0)).map remapZero,
      List.forall_mem_map.2 fun b _ => remapZero_ne_zero b, hem⟩
  have hreg (i : RegIx) : t.reg i = s.reg i := congrArg BitVec.toNat (hregs i (by simp))
  have hblock : paddedBlock run (s.bufBytes b0) = 0x00 :: i2beMin (be (t.bufBytes b1) ^ t.reg rd % t.reg rn) := by
    rw [hmodulus] at hlt
    rw [hreg, hreg, hcipher, be_i2beMin, ← Nat.pow_mod, ← pow_mul, hmodulus, pow_mod_eq_self hp hq hne hexp hlt,
      zero_cons_i2beMin_be_paddedBlock]
  have hcap : t.bufLen b1 ≤ Config.bufCap := by
    rw [hlen, ← modPow_eq]
    exact i2beMin_modPow_reg_length s _ _ hpos.ne'
  obtain ⟨-, hdecrypt, -⟩ := decryptUnpadsThePower b2 b1 rd rn t
  obtain ⟨u, hu, hcu, -, -, hbytes, hlenu, -⟩ :=
    hdecrypt _ _ ((hreg rn).symm ▸ hpos) hcap.not_gt hblock (separatorAt_paddedBlock _ hrun)
  rw [drop_paddedBlock] at hbytes hlenu
  exact ⟨t, u, ht, hct, hu, hcu, hbytes, hlenu.trans (bufBytes_length s b0)⟩

end Sys2Proof.Machine

/-! RSA key generation (rules R166 to R171). The idea: every prime the generator answers is an accepted candidate, so what holds
of accepted candidates holds of a key's primes; with the draws counted by `keyPrimes_draws`, each end of RSAKG is then fixed by
what the candidates can be. -/

namespace Sys2Proof.Machine

/-! ### One candidate (rules R166, R167) -/

theorem two_pow_le_oddOfBytes (h : Nat) (bs : List Byte) : 2 ^ (h - 1) ≤ oddOfBytes h bs :=
  Nat.right_le_or.trans Nat.left_le_or

theorem oddOfBytes_mod_two (h : Nat) (bs : List Byte) : oddOfBytes h bs % 2 = 1 :=
  Nat.or_mod_two_eq_one.2 (.inr rfl)

theorem candidate_leastPrimeFrom (h : Nat) (g : Rng) :
    leastPrimeFrom (oddOfBytes h (g.bytes (bytesFor h))) (candidate h g) :=
  nextPrime_spec _ (Nat.one_le_two_pow.trans (two_pow_le_oddOfBytes h _))

/-- With two bits and more, no candidate is the even prime: RandOdd is odd and above 2. -/
theorem candidate_mod_two {h : Nat} (hh : 2 ≤ h) (g : Rng) : candidate h g % 2 = 1 := by
  obtain ⟨hprime, hle, -⟩ := candidate_leastPrimeFrom h g
  have htop := two_pow_le_oddOfBytes h (g.bytes (bytesFor h))
  have hodd := oddOfBytes_mod_two h (g.bytes (bytesFor h))
  have htwo : 2 ^ 1 ≤ 2 ^ (h - 1) := Nat.pow_le_pow_right (by omega) (by omega)
  exact hprime.eq_two_or_odd.resolve_left (by omega)

/-- Two bits leave RandOdd no choice: every candidate is 3 (rule R169, KBITS = 4). -/
theorem candidate_two_bits (g : Rng) : candidate 2 g = 3 := by
  have hodd : ∀ r < 4, r ||| 2 ||| 1 = 3 := by decide
  have hstart : oddOfBytes 2 (g.bytes (bytesFor 2)) = 3 := hodd _ (Nat.mod_lt _ (by omega))
  rw [candidate, hstart]
  decide

/-! ### The accepted candidates (rule R168) -/

theorem candidateOk_iff {h e c : Nat} : candidateOk h e c = true ↔ bitlen c = h ∧ Nat.gcd e (c - 1) = 1 := by
  simp [candidateOk]

/-- A candidate that GenPrime may return. -/
structure Accepted (h e c : Nat) : Prop where
  ok : candidateOk h e c = true
  drawn : ∃ g, c = candidate h g

theorem Accepted.prime {h e c : Nat} (hc : Accepted h e c) : Nat.Prime c := by
  obtain ⟨-, g, rfl⟩ := hc
  obtain ⟨hprime, -⟩ := candidate_leastPrimeFrom h g
  exact hprime

theorem retryPrime_accepted {h e left c left' : Nat} {g g' : Rng}
    (hr : retryPrime h e left g = .ok (c, left', g')) : Accepted h e c := by
  induction left generalizing g with
  | zero => cases hr
  | succ left ih =>
    rw [retryPrime] at hr
    split at hr
    case isTrue hok => cases hr; exact ⟨hok, g, rfl⟩
    case isFalse => exact ih hr

theorem genPrime_accepted {h e left c left' : Nat} {g g' : Rng}
    (hg : genPrime h e left g = .ok (c, left', g')) : Accepted h e c := by
  rw [genPrime] at hg
  split at hg
  case isTrue hok => cases hg; exact ⟨hok, g, rfl⟩
  case isFalse => exact retryPrime_accepted hg

theorem spreadPrimes_accepted {h e p n left q q' : Nat} {g g' : Rng} (hq : Accepted h e q)
    (hs : spreadPrimes h e p n left q g = .ok (q', g')) : Accepted h e q' := by
  induction n generalizing left q g with
  | zero => cases hs
  | succ n ih =>
    rw [spreadPrimes.eq_def] at hs
    dsimp only at hs
    split at hs
    case isTrue => cases hs; exact hq
    case isFalse =>
      split at hs
      case h_1 => cases hs
      case h_2 =>
        split at hs
        case h_1 => cases hs
        case h_2 hg => exact ih (genPrime_accepted hg) hs

/-- Both primes of a key are accepted candidates (rules R168, R169). -/
theorem keyPrimes_accepted {h e left p q : Nat} {g g' : Rng} (hk : keyPrimes h e left g = .ok (p, q, g')) :
    Accepted h e p ∧ Accepted h e q := by
  rw [keyPrimes] at hk
  split at hk
  case h_1 => cases hk
  case h_2 hp =>
    split at hk
    case h_1 => cases hk
    case h_2 hq =>
      split at hk
      case h_1 => cases hk
      case h_2 hs =>
        cases hk
        exact ⟨genPrime_accepted hp, spreadPrimes_accepted (genPrime_accepted hq) hs⟩

/-! ### Good and bad draws (rules R168, R169) -/

/-- When GenPrime can accept nothing, it draws `left + 1` candidates and fails. -/
theorem genPrime_of_none_accepted {h e : Nat} (hnone : ∀ c, ¬ Accepted h e c) (left : Nat) (g : Rng) :
    genPrime h e left g = .error (g.skip ((left + 1) * bytesFor h)) := by
  have hdraws := genPrime_draws h e left g
  cases hg : genPrime h e left g with
  | error g' =>
    rw [hg] at hdraws
    exact congrArg _ hdraws
  | ok r => exact absurd (genPrime_accepted hg) (hnone r.1)

theorem keyPrimes_of_none_accepted {h e : Nat} (hnone : ∀ c, ¬ Accepted h e c) (left : Nat) (g : Rng) :
    keyPrimes h e left g = .error (g.skip ((left + 1) * bytesFor h)) := by
  rw [keyPrimes, genPrime_of_none_accepted hnone]

/-- A good first candidate costs no retry. -/
theorem genPrime_of_candidateOk {h e : Nat} {g : Rng} (hc : candidateOk h e (candidate h g) = true) (left : Nat) :
    genPrime h e left g = .ok (candidate h g, left, afterCandidate h g) := if_pos hc

/-- With two good candidates drawn, only the distance remains to be met, with the whole budget left. -/
theorem keyPrimes_of_two_candidates {h e p q : Nat} {g : Rng} (hp : p = candidate h g)
    (hq : q = candidate h (afterCandidate h g)) (hpok : candidateOk h e p = true) (hqok : candidateOk h e q = true)
    (left : Nat) :
    keyPrimes h e left g =
      (spreadPrimes h e p (left + 1) left q (g.skip (2 * bytesFor h))).map fun r => (p, r.1, r.2) := by
  subst hp hq
  have hskip : afterCandidate h (afterCandidate h g) = g.skip (2 * bytesFor h) := by
    rw [afterCandidate, afterCandidate, skip_skip, ← Nat.two_mul]
  rw [keyPrimes, genPrime_of_candidateOk hpok]
  dsimp only
  rw [genPrime_of_candidateOk hqok, hskip]
  dsimp only
  cases spreadPrimes h e (candidate h g) (left + 1) left (candidate h (afterCandidate h g)) (g.skip (2 * bytesFor h)) <;>
    rfl

theorem distOk_iff {p q h : Nat} : distOk p q h = true ↔ 2 ^ h ≤ distance p q * 2 ^ 100 := by simp [distOk]

/-- Equal primes are never far enough apart. -/
theorem ne_of_distOk {p q h : Nat} (hd : distOk p q h = true) : p ≠ q := by
  rintro rfl
  simp [distOk, distance] at hd

theorem spreadPrimes_of_distOk {h e p left q : Nat} {g : Rng} (hd : distOk p q h = true) :
    spreadPrimes h e p (left + 1) left q g = .ok (q, g) := if_pos hd

/-- When all accepted candidates equal `p`, no `q` is far enough from it, and every retry is used up. -/
theorem spreadPrimes_of_only_candidate {h e p left : Nat} (g : Rng) (hp : Accepted h e p)
    (honly : ∀ c, Accepted h e c → c = p) :
    spreadPrimes h e p (left + 1) left p g = .error (g.skip (left * bytesFor h)) := by
  have hdraws := spreadPrimes_draws h e p (left + 1) left p g (Nat.lt_succ_self _)
  cases hs : spreadPrimes h e p (left + 1) left p g with
  | error g' =>
    rw [hs] at hdraws
    exact congrArg _ hdraws
  | ok r =>
    rw [hs] at hdraws
    obtain ⟨hd, -⟩ := hdraws
    exact absurd (honly _ (spreadPrimes_accepted hp hs)).symm (ne_of_distOk hd)

/-- An even exponent shares the factor 2 with every candidate less 1. -/
theorem not_accepted_of_even {h e : Nat} (hh : 2 ≤ h) (he : e % 2 = 0) (c : Nat) : ¬ Accepted h e c := by
  rintro ⟨hok, g, rfl⟩
  obtain ⟨-, hgcd⟩ := candidateOk_iff.1 hok
  have hodd := candidate_mod_two hh g
  have htwo : 2 ∣ Nat.gcd e (candidate h g - 1) := Nat.dvd_gcd (by omega) (by omega)
  omega

/-- Two bits and an odd exponent: `p` is 3 at the first draw, and so is every candidate for `q` (rule R169). -/
theorem keyPrimes_two_bits {e : Nat} (he : e % 2 = 1) (left : Nat) (g : Rng) :
    keyPrimes 2 e left g = .error (g.skip (left + 2)) := by
  have hok : candidateOk 2 e 3 = true := candidateOk_iff.2 ⟨by decide, Nat.coprime_two_right.2 (Nat.odd_iff.2 he)⟩
  have honly : ∀ c, Accepted 2 e c → c = 3 := by
    rintro c ⟨-, g', rfl⟩
    exact candidate_two_bits g'
  have hcount : 2 * bytesFor 2 + left * bytesFor 2 = left + 2 := by rw [show bytesFor 2 = 1 from rfl]; omega
  rw [keyPrimes_of_two_candidates (candidate_two_bits g).symm (candidate_two_bits _).symm hok hok,
    spreadPrimes_of_only_candidate _ ⟨hok, g, (candidate_two_bits g).symm⟩ honly, skip_skip, hcount]
  rfl

/-! ### The key of two primes (rule R171) -/

/-- The one inversion of RSAKG cannot fail: an exponent prime to `p - 1` and to `q - 1` is prime to their lcm (rule R171). -/
theorem modInv_lcm {e p q : Nat} (hp : 2 ≤ p) (hq : 2 ≤ q) (hep : Nat.gcd e (p - 1) = 1) (heq : Nat.gcd e (q - 1) = 1) :
    ∃ d, modInv e (Nat.lcm (p - 1) (q - 1)) = .ok d ∧ d < Nat.lcm (p - 1) (q - 1) ∧
      e * d % Nat.lcm (p - 1) (q - 1) = 1 % Nat.lcm (p - 1) (q - 1) := by
  obtain ⟨-, hinv⟩ := modInv_spec e (Nat.lcm (p - 1) (q - 1)) (Nat.lcm_pos (by omega) (by omega))
  exact hinv ((Nat.Coprime.mul_right hep heq).coprime_dvd_right (Nat.lcm_dvd_mul _ _))

theorem lcm_lt_mul {p q : Nat} (hp : 2 ≤ p) (hq : 2 ≤ q) : Nat.lcm (p - 1) (q - 1) < p * q :=
  calc Nat.lcm (p - 1) (q - 1) ≤ (p - 1) * (q - 1) :=
        Nat.le_of_dvd (Nat.mul_pos (by omega) (by omega)) (Nat.lcm_dvd_mul _ _)
    _ < p * q := Nat.mul_lt_mul_of_lt_of_le (by omega) (by omega) (by omega)

theorem mul_lt_two_pow {p q kbits : Nat} (heven : kbits % 2 = 0) (hp : bitlen p = kbits / 2) (hq : bitlen q = kbits / 2) :
    p * q < 2 ^ kbits :=
  calc p * q < 2 ^ (kbits / 2) * 2 ^ (kbits / 2) :=
        Nat.mul_lt_mul'' (hp ▸ lt_two_pow_bitlen p) (hq ▸ lt_two_pow_bitlen q)
    _ = 2 ^ kbits := by rw [← pow_add]; congr 1; omega

/-- Two accepted candidates that are far enough apart, and the inverse of `e`, are a key (rule R171). -/
theorem keyOfPrimes_of_accepted {kbits e d p q : Nat} (heven : kbits % 2 = 0) (hp : Accepted (kbits / 2) e p)
    (hq : Accepted (kbits / 2) e q) (hdist : distOk p q (kbits / 2) = true) (hdlt : d < Nat.lcm (p - 1) (q - 1))
    (hd : e * d % Nat.lcm (p - 1) (q - 1) = 1 % Nat.lcm (p - 1) (q - 1)) :
    keyOfPrimes kbits e (p * q) d p q := by
  obtain ⟨hbitp, hgcdp⟩ := candidateOk_iff.1 hp.ok
  obtain ⟨hbitq, hgcdq⟩ := candidateOk_iff.1 hq.ok
  exact ⟨hp.prime, hq.prime, ne_of_distOk hdist, hbitp, hbitq, hgcdp, hgcdq, distOk_iff.1 hdist, rfl, hd, hdlt,
    lcm_lt_mul hp.prime.two_le hq.prime.two_le, mul_lt_two_pow heven hbitp hbitq⟩

/-- The modulus and the secret exponent of a key fit its key size. -/
theorem keyOfPrimes.values_lt {kbits e modulus d p q : Nat} (h : keyOfPrimes kbits e modulus d p q) :
    modulus < 2 ^ kbits ∧ d < 2 ^ kbits := by
  obtain ⟨-, -, -, -, -, -, -, -, -, -, hdlt, hlcm, hmodulus⟩ := h
  exact ⟨hmodulus, hdlt.trans (hlcm.trans hmodulus)⟩

/-! ### RSAKG (rule R169) -/

/-- A key size RSAKG accepts. -/
def legalKeySize (s : State) : Prop :=
  s.kbits.toNat % 2 = 0 ∧ 4 ≤ s.kbits.toNat ∧ s.kbits.toNat ≤ Config.opw

theorem reg_complete (s : State) (i : RegIx) : s.complete.reg i = s.reg i := rfl

theorem reg_setReg_ne {s : State} {i j : RegIx} {v : Nat} (h : j ≠ i) : (s.setReg i v).reg j = s.reg j :=
  congrArg BitVec.toNat (get_setReg_ne h)

section
variable {rdn rdd re : RegIx} {s : State} (hne : rdn ≠ rdd) (hsize : legalKeySize s)
include hne hsize

theorem exec_rsakg_of_exhausted {g : Rng}
    (hk : keyPrimes (s.kbits.toNat / 2) (s.reg re) Config.keygenRetryMax s.rng = .error g) :
    ∃ t, exec (.rsakg rdn rdd re) s = .next t ∧ faulted .keygen s t ∧ t.rng = g := by
  obtain ⟨heven, hmin, hmax⟩ := hsize
  refine ⟨s.raise .keygen g, ?_, raise_faulted s _ g, rfl⟩
  rw [exec_eq_finish, effectOf, keygenEffect, if_neg hne, if_neg (by omega), hk, finish_error]

/-- The primes found, RSAKG writes their key: both values fit a register, as they are below `2 ^ KBITS` (rule R171). -/
theorem exec_rsakg_of_keyPrimes {p q : Nat} {g : Rng}
    (hk : keyPrimes (s.kbits.toNat / 2) (s.reg re) Config.keygenRetryMax s.rng = .ok (p, q, g)) :
    ∃ t, exec (.rsakg rdn rdd re) s = .next t ∧ completed s t ∧ onlyChanges [rdn, rdd] [] [] s t ∧ t.rng = g ∧
      keyOfPrimes s.kbits.toNat (s.reg re) (t.reg rdn) (t.reg rdd) p q := by
  obtain ⟨heven, hmin, hmax⟩ := hsize
  have hdraws := keyPrimes_draws (s.kbits.toNat / 2) (s.reg re) Config.keygenRetryMax s.rng
  rw [hk] at hdraws
  obtain ⟨-, hdist, -⟩ := hdraws
  obtain ⟨hp, hq⟩ := keyPrimes_accepted hk
  obtain ⟨-, hgcdp⟩ := candidateOk_iff.1 hp.ok
  obtain ⟨-, hgcdq⟩ := candidateOk_iff.1 hq.ok
  obtain ⟨d, hinv, hdlt, hd⟩ := modInv_lcm hp.prime.two_le hq.prime.two_le hgcdp hgcdq
  have hexec : exec (.rsakg rdn rdd re) s =
      .next (({ s with rng := g }.setReg rdn (p * q)).setReg rdd d).complete := by
    rw [exec_eq_finish, effectOf, keygenEffect, if_neg hne, if_neg (by omega), hk]
    dsimp only
    rw [carmichael, hinv, finish_ok]
  obtain ⟨hframe, -⟩ := commandsChangeOnlyTheirDestinations _ _ _ hexec
  have hkey := keyOfPrimes_of_accepted heven hp hq hdist hdlt hd
  obtain ⟨hmodulus, hsecret⟩ := hkey.values_lt
  have hwidth : 2 ^ s.kbits.toNat ≤ 2 ^ Config.opw := Nat.pow_le_pow_right (by omega) hmax
  refine ⟨_, hexec, ⟨rfl, rfl, rfl, rfl⟩, hframe, rfl, ?_⟩
  rwa [reg_complete, reg_complete, reg_setReg_ne hne, reg_setReg_same (hmodulus.trans_le hwidth),
    reg_setReg_same (hsecret.trans_le hwidth)]

end

/-- Settles O40: an answer of the generator is a key, a failure comes with the draws counted, and the inversion modulo the lcm
has its inverse. -/
theorem keygenWritesAValidKeyOrExhausts : Obligations.KeygenWritesAValidKeyOrExhausts := by
  refine ⟨fun rdn rdd re s hne heven hmin hmax => ?_, fun e p q hp hq hep heq => ?_⟩
  · have hsize : legalKeySize s := ⟨heven, hmin, hmax⟩
    have hdraws := keyPrimes_draws (s.kbits.toNat / 2) (s.reg re) Config.keygenRetryMax s.rng
    cases hk : keyPrimes (s.kbits.toNat / 2) (s.reg re) Config.keygenRetryMax s.rng with
    | error g =>
      rw [hk] at hdraws
      obtain ⟨t, ht, hf, rfl⟩ := exec_rsakg_of_exhausted hne hsize hk
      exact ⟨t, ht, .inl ⟨hf, hdraws⟩⟩
    | ok r =>
      obtain ⟨p, q, g⟩ := r
      rw [hk] at hdraws
      obtain ⟨-, -, hcount⟩ := hdraws
      obtain ⟨t, ht, hc, hframe, rfl, hkey⟩ := exec_rsakg_of_keyPrimes hne hsize hk
      exact ⟨t, ht, .inr ⟨hc, hframe, hcount, p, q, hkey⟩⟩
  · obtain ⟨d, hd, -⟩ := modInv_lcm hp hq hep heq
    exact ⟨d, hd⟩

/-- Settles O41: neither candidate costs a retry, and the distance is met at once. -/
theorem keygenCompletesOnTwoGoodDraws : Obligations.KeygenCompletesOnTwoGoodDraws := by
  rintro rdn rdd re s p q hne heven hmin hmax rfl rfl hbitp hbitq hgcdp hgcdq hdist
  refine ⟨candidate_leastPrimeFrom _ _, candidate_leastPrimeFrom _ _, ?_⟩
  have hk := keyPrimes_of_two_candidates rfl rfl (candidateOk_iff.2 ⟨hbitp, hgcdp⟩)
    (candidateOk_iff.2 ⟨hbitq, hgcdq⟩) Config.keygenRetryMax
  rw [spreadPrimes_of_distOk (distOk_iff.2 hdist)] at hk
  obtain ⟨t, ht, hc, hframe, hrng, -, -, -, -, -, -, -, -, hmodulus, hd, hdlt, -⟩ :=
    exec_rsakg_of_keyPrimes hne ⟨heven, hmin, hmax⟩ hk
  exact ⟨t, ht, hc, hframe, hmodulus, hdlt, hd, hrng⟩

/-- Settles O43: an even exponent accepts no candidate, and two bits have one candidate only. -/
theorem keygenExhaustsOnEvenExponents : Obligations.KeygenExhaustsOnEvenExponents := by
  refine fun rdn rdd re s hne heven hmin hmax => ⟨fun he => ?_, fun he hfour => ?_⟩
  · exact exec_rsakg_of_exhausted hne ⟨heven, hmin, hmax⟩
      (keyPrimes_of_none_accepted (not_accepted_of_even (by omega) he) _ _)
  · refine exec_rsakg_of_exhausted hne ⟨heven, hmin, hmax⟩ ?_
    rw [hfour]
    exact keyPrimes_two_bits he _ _

end Sys2Proof.Machine

/-! Point addition in the field (rules R192 to R195, R199). The idea: the chord and the tangent are one case, a line with its slope,
and on a curve of short Weierstrass form that slope is Mathlib's, so its closure theorem is the model's. `PointAdd` never reads `b`:
every pair in range is on the curve of some `b`, where `PointAdd` does not fail. -/

namespace Sys2Proof.Machine

section
variable {c : Curve}

/-! ### Negation (rule R194) -/

theorem eq_fneg_iff (hp : Nat.Prime c.p) {u v : Nat} (hv : v < c.p) : v = fneg c u ↔ (v + u) % c.p = 0 := by
  have hcast : v = fneg c u ↔ (v : ZMod c.p) = fneg c u :=
    ⟨fun h => by rw [← h], eq_of_cast_eq hv (fneg_lt u hp.pos)⟩
  rw [hcast, fneg_cast u hp.pos, eq_neg_iff_add_eq_zero, ← Nat.cast_add, ZMod.natCast_eq_zero_iff,
    Nat.dvd_iff_mod_eq_zero]

theorem eq_fneg_comm (hp : Nat.Prime c.p) {u v : Nat} (hu : u < c.p) (hv : v < c.p) : v = fneg c u ↔ u = fneg c v := by
  rw [eq_fneg_iff hp hv, eq_fneg_iff hp hu, Nat.add_comm]

theorem fneg_eq_sub_mod {y : Nat} (hy : y < c.p) : fneg c y = (c.p - y) % c.p := by
  rw [fneg, toNat_neg_emod, Nat.mod_eq_of_lt hy]
  split
  case isTrue h => rw [h, Nat.sub_zero, Nat.mod_self]
  case isFalse h => rw [Nat.mod_eq_of_lt (by omega)]

theorem pointNeg_inRange (hp : Nat.Prime c.p) {P : Point} (hP : P.inRange c) : (pointNeg c P).inRange c := by
  cases P with
  | inf => trivial
  | affine x y => exact ⟨hP.1, fneg_lt y hp.pos⟩

theorem pointNeg_pointNeg (hp : Nat.Prime c.p) {P : Point} (hP : P.inRange c) : pointNeg c (pointNeg c P) = P := by
  cases P with
  | inf => rfl
  | affine x y => rw [pointNeg, pointNeg, ← (eq_fneg_comm hp hP.2 (fneg_lt y hp.pos)).1 rfl]

/-! ### The third point of a line, for chord and tangent alike (rule R194) -/

/-- `(rx, ry)` is the mirrored third point of the line of slope `lam` through the two pairs: the tangent's slope where the
x-coordinates are equal, the chord's where they are not. `SumOnLine.onLine` gives it the words of Safety.lean. -/
structure SumOnLine (c : Curve) (lam px py qx qy rx ry : Nat) : Prop where
  x_lt : rx < c.p
  y_lt : ry < c.p
  tangent : qx = px → (lam : ZMod c.p) * (2 * py) = 3 * (px * px) + c.a
  chord : qx ≠ px → (lam : ZMod c.p) * (qx - px) = qy - py
  x_eq : (rx : ZMod c.p) = lam * lam - px - qx
  y_eq : (ry : ZMod c.p) = lam * (px - rx) - py

theorem exists_pointAdd_on_line (hp : Nat.Prime c.p) (h3 : 3 < c.p) {px py qx qy : Nat}
    (hP : (Point.affine px py).inRange c) (hQ : (Point.affine qx qy).inRange c)
    (hopp : ¬ (qx = px ∧ (qy + py) % c.p = 0)) (hdef : ¬ (qx = px ∧ qy ≠ py)) :
    ∃ lam rx ry, pointAdd c (.affine px py) (.affine qx qy) = .ok (.affine rx ry) ∧
      SumOnLine c lam px py qx qy rx ry := by
  obtain ⟨hpx, hpy⟩ := hP
  obtain ⟨hqx, -⟩ := hQ
  by_cases hx : qx = px
  · obtain rfl : qy = py := by_contra fun h => hdef ⟨hx, h⟩
    subst hx
    have hy : qy ≠ 0 := fun h => hopp ⟨rfl, by rw [h, Nat.zero_mod]⟩
    obtain ⟨lam, hadd, hlam⟩ := pointAdd_tangent hp h3 (px := qx) hpy hy
    obtain ⟨rx, ry, hline, hrx, hry, hrx_eq, hry_eq⟩ := linePoint_eq hp lam qx qy qx
    exact ⟨lam, rx, ry, by rw [hadd, hline], hrx, hry, fun _ => hlam, fun h => absurd rfl h, hrx_eq, hry_eq⟩
  · obtain ⟨lam, hadd, hlam⟩ := pointAdd_chord hp (py := py) (qy := qy) hpx hqx hx
    obtain ⟨rx, ry, hline, hrx, hry, hrx_eq, hry_eq⟩ := linePoint_eq hp lam px py qx
    exact ⟨lam, rx, ry, by rw [hadd, hline], hrx, hry, fun h => absurd h hx, fun _ => hlam, hrx_eq, hry_eq⟩

theorem pointAdd_of_opposite (hp : Nat.Prime c.p) {px py qx qy : Nat} (hQ : (Point.affine qx qy).inRange c)
    (hopp : qx = px ∧ (qy + py) % c.p = 0) : pointAdd c (.affine px py) (.affine qx qy) = .ok .inf := by
  obtain ⟨rfl, hy⟩ := hopp
  rw [(eq_fneg_iff hp hQ.2).2 hy, pointAdd_opposite]

theorem pointAdd_of_no_inverse (hp : Nat.Prime c.p) {px py qx qy : Nat} (hQ : (Point.affine qx qy).inRange c)
    (hopp : ¬ (qx = px ∧ (qy + py) % c.p = 0)) (hdef : qx = px ∧ qy ≠ py) :
    pointAdd c (.affine px py) (.affine qx qy) = .error .noinv := by
  obtain ⟨rfl, hy⟩ := hdef
  exact pointAdd_noinv hp _ _ _ (fun h => hopp ⟨rfl, (eq_fneg_iff hp hQ.2).1 h⟩) hy

/-! ### Identity and commutativity (rule R199) -/

theorem pointAdd_inf (P : Point) : pointAdd c P .inf = .ok P := by cases P <;> rfl

theorem inf_pointAdd (P : Point) : pointAdd c .inf P = .ok P := rfl

theorem pointAdd_pointNeg (P : Point) : pointAdd c P (pointNeg c P) = .ok .inf := by
  cases P with
  | inf => rfl
  | affine x y => exact pointAdd_opposite x y

/-- The chord through two points does not depend on which is named first. -/
theorem SumOnLine.swap_eq (hp : Nat.Prime c.p) {px py qx qy lam rx ry lam' rx' ry' : Nat}
    (hP : (Point.affine px py).inRange c) (hQ : (Point.affine qx qy).inRange c) (hx : qx ≠ px)
    (h : SumOnLine c lam px py qx qy rx ry) (h' : SumOnLine c lam' qx qy px py rx' ry') : rx = rx' ∧ ry = ry' := by
  have := Fact.mk hp
  have hchord := h.chord hx
  have hchord' := h'.chord hx.symm
  have hne : (qx : ZMod c.p) - px ≠ 0 := fun h0 => hx (eq_of_cast_eq hQ.1 hP.1 (sub_eq_zero.1 h0))
  have hlam : (lam : ZMod c.p) = lam' := mul_right_cancel₀ hne (by linear_combination hchord + hchord')
  have hrx : rx = rx' := eq_of_cast_eq h.x_lt h'.x_lt (by rw [h.x_eq, h'.x_eq, hlam]; ring)
  subst hrx
  refine ⟨rfl, eq_of_cast_eq h.y_lt h'.y_lt ?_⟩
  rw [h.y_eq, h'.y_eq, ← hlam]
  linear_combination -hchord

theorem pointAdd_comm (hp : Nat.Prime c.p) (h3 : 3 < c.p) {P Q : Point} (hP : P.inRange c) (hQ : Q.inRange c) :
    pointAdd c P Q = pointAdd c Q P := by
  cases P with
  | inf => rw [pointAdd_inf, inf_pointAdd]
  | affine px py =>
    cases Q with
    | inf => rfl
    | affine qx qy =>
      by_cases hopp : qx = px ∧ (qy + py) % c.p = 0
      · rw [pointAdd_of_opposite hp hQ hopp, pointAdd_of_opposite hp hP ⟨hopp.1.symm, Nat.add_comm qy py ▸ hopp.2⟩]
      · have hopp' : ¬ (px = qx ∧ (py + qy) % c.p = 0) := fun h => hopp ⟨h.1.symm, Nat.add_comm py qy ▸ h.2⟩
        by_cases hdef : qx = px ∧ qy ≠ py
        · rw [pointAdd_of_no_inverse hp hQ hopp hdef, pointAdd_of_no_inverse hp hP hopp' ⟨hdef.1.symm, hdef.2.symm⟩]
        · by_cases hx : qx = px
          · obtain rfl : qy = py := by_contra fun h => hdef ⟨hx, h⟩
            rw [hx]
          · obtain ⟨lam, rx, ry, hadd, hsum⟩ := exists_pointAdd_on_line hp h3 hP hQ hopp hdef
            obtain ⟨lam', rx', ry', hadd', hsum'⟩ :=
              exists_pointAdd_on_line hp h3 hQ hP hopp' fun h => hx h.1.symm
            obtain ⟨rfl, rfl⟩ := hsum.swap_eq hp hP hQ hx hsum'
            rw [hadd, hadd']

/-! ### The curve in Mathlib's terms -/

/-- The curve `y² = x³ + ax + b` over the field of `p` elements. -/
def weierstrass (c : Curve) : WeierstrassCurve.Affine (ZMod c.p) := ⟨0, 0, 0, c.a, c.b⟩

theorem weierstrass_negY (x y : ZMod c.p) : (weierstrass c).negY x y = -y := by
  simp [WeierstrassCurve.Affine.negY, weierstrass]

theorem weierstrass_equation_iff (x y : Nat) :
    (weierstrass c).Equation (x : ZMod c.p) y ↔ (y * y) % c.p = (x * x * x + c.a * x + c.b) % c.p := by
  rw [WeierstrassCurve.Affine.equation_iff, ← ZMod.natCast_eq_natCast_iff']
  simp only [weierstrass, Nat.cast_add, Nat.cast_mul]
  ring_nf

theorem onCurve_affine_iff (x y : Nat) :
    (Point.affine x y).onCurve c ↔ (x < c.p ∧ y < c.p) ∧ (weierstrass c).Equation (x : ZMod c.p) y := by
  rw [weierstrass_equation_iff]

theorem inRange_of_onCurve {P : Point} (hP : P.onCurve c) : P.inRange c := by
  cases P with
  | inf => trivial
  | affine x y => exact hP.1

theorem pointNeg_onCurve (hp : Nat.Prime c.p) {P : Point} (hP : P.onCurve c) : (pointNeg c P).onCurve c := by
  cases P with
  | inf => trivial
  | affine x y =>
    obtain ⟨⟨hx, -⟩, heq⟩ := (onCurve_affine_iff x y).1 hP
    refine (onCurve_affine_iff _ _).2 ⟨⟨hx, fneg_lt y hp.pos⟩, ?_⟩
    rwa [fneg_cast y hp.pos, ← weierstrass_negY, WeierstrassCurve.Affine.equation_neg]

/-- The two ways of naming opposite points. -/
theorem opposite_iff_negY {px py qx qy : Nat} (hP : (Point.affine px py).inRange c)
    (hQ : (Point.affine qx qy).inRange c) :
    (qx = px ∧ (qy + py) % c.p = 0) ↔ (px : ZMod c.p) = qx ∧ (py : ZMod c.p) = (weierstrass c).negY qx qy := by
  rw [weierstrass_negY, eq_neg_iff_add_eq_zero, ← Nat.cast_add, ZMod.natCast_eq_zero_iff, Nat.dvd_iff_mod_eq_zero,
    Nat.add_comm py]
  exact and_congr_left' ⟨fun h => by rw [h], fun h => (eq_of_cast_eq hP.1 hQ.1 h).symm⟩

theorem two_ne_zero_of_three_lt (h3 : 3 < c.p) : (2 : ZMod c.p) ≠ 0 := by
  intro h0
  have := Nat.le_of_dvd (by omega) ((ZMod.natCast_eq_zero_iff 2 c.p).1 (by exact_mod_cast h0))
  omega

variable [Fact (Nat.Prime c.p)]

/-- The slope the model divides for is Mathlib's. -/
theorem SumOnLine.slope_eq (h3 : 3 < c.p) {lam px py qx qy rx ry : Nat} (hP : (Point.affine px py).inRange c)
    (hQ : (Point.affine qx qy).inRange c) (hopp : ¬ (qx = px ∧ (qy + py) % c.p = 0)) (hdef : ¬ (qx = px ∧ qy ≠ py))
    (h : SumOnLine c lam px py qx qy rx ry) : (lam : ZMod c.p) = (weierstrass c).slope px qx py qy := by
  by_cases hx : qx = px
  · obtain rfl : qy = py := by_contra fun h => hdef ⟨hx, h⟩
    have htangent := h.tangent hx
    subst hx
    have hy0 : (qy : ZMod c.p) ≠ 0 := fun h0 => hopp ⟨rfl, by
      rw [← Nat.dvd_iff_mod_eq_zero, ← ZMod.natCast_eq_zero_iff, Nat.cast_add, h0, add_zero]⟩
    have hy : (qy : ZMod c.p) ≠ (weierstrass c).negY qx qy := by
      rw [weierstrass_negY, ne_eq, eq_neg_iff_add_eq_zero, ← two_mul]
      exact mul_ne_zero (two_ne_zero_of_three_lt h3) hy0
    rw [WeierstrassCurve.Affine.slope_of_Y_ne rfl hy, eq_div_iff (sub_ne_zero.2 hy), weierstrass_negY]
    simp only [weierstrass]
    linear_combination htangent
  · have hx' : (px : ZMod c.p) ≠ qx := fun h0 => hx (eq_of_cast_eq hP.1 hQ.1 h0).symm
    rw [WeierstrassCurve.Affine.slope_of_X_ne hx', eq_div_iff (sub_ne_zero.2 hx')]
    linear_combination -h.chord hx

theorem SumOnLine.x_eq_addX {lam px py qx qy rx ry : Nat} (h : SumOnLine c lam px py qx qy rx ry) :
    (rx : ZMod c.p) = (weierstrass c).addX px qx lam := by
  rw [h.x_eq, WeierstrassCurve.Affine.addX]
  simp only [weierstrass]
  ring

theorem SumOnLine.y_eq_addY {lam px py qx qy rx ry : Nat} (h : SumOnLine c lam px py qx qy rx ry) :
    (ry : ZMod c.p) = (weierstrass c).addY px qx py lam := by
  rw [WeierstrassCurve.Affine.addY, weierstrass_negY, WeierstrassCurve.Affine.negAddY, ← h.x_eq_addX, h.y_eq]
  ring

/-- On the curve, `PointAdd` of points that are not opposite is Mathlib's sum of coordinates: two points with one x are equal or
opposite there, so the chord's divisor is never 0. -/
theorem exists_pointAdd_eq_addX_addY (h3 : 3 < c.p) {px py qx qy : Nat} (hP : (Point.affine px py).onCurve c)
    (hQ : (Point.affine qx qy).onCurve c) (hopp : ¬ (qx = px ∧ (qy + py) % c.p = 0)) :
    ∃ rx ry, pointAdd c (.affine px py) (.affine qx qy) = .ok (.affine rx ry) ∧ rx < c.p ∧ ry < c.p ∧
      (rx : ZMod c.p) = (weierstrass c).addX px qx ((weierstrass c).slope px qx py qy) ∧
      (ry : ZMod c.p) = (weierstrass c).addY px qx py ((weierstrass c).slope px qx py qy) := by
  obtain ⟨hPr, hPeq⟩ := (onCurve_affine_iff px py).1 hP
  obtain ⟨hQr, hQeq⟩ := (onCurve_affine_iff qx qy).1 hQ
  have hp : Nat.Prime c.p := Fact.out
  have hdef : ¬ (qx = px ∧ qy ≠ py) := by
    rintro ⟨rfl, hy⟩
    have hy' := WeierstrassCurve.Affine.Y_eq_of_Y_ne hPeq hQeq rfl fun h =>
      hopp ((opposite_iff_negY hPr hQr).2 ⟨rfl, h⟩)
    exact hy (eq_of_cast_eq hQr.2 hPr.2 hy'.symm)
  obtain ⟨lam, rx, ry, hadd, hsum⟩ := exists_pointAdd_on_line hp h3 hPr hQr hopp hdef
  have hlam := hsum.slope_eq h3 hPr hQr hopp hdef
  exact ⟨rx, ry, hadd, hsum.x_lt, hsum.y_lt, hlam ▸ hsum.x_eq_addX, hlam ▸ hsum.y_eq_addY⟩

/-- Rule R195: `PointAdd` neither fails on the curve nor leaves it, singular curves included. -/
theorem exists_pointAdd_onCurve (h3 : 3 < c.p) {P Q : Point} (hP : P.onCurve c) (hQ : Q.onCurve c) :
    ∃ R, pointAdd c P Q = .ok R ∧ R.onCurve c := by
  have hp : Nat.Prime c.p := Fact.out
  cases P with
  | inf => exact ⟨Q, rfl, hQ⟩
  | affine px py =>
    cases Q with
    | inf => exact ⟨_, rfl, hP⟩
    | affine qx qy =>
      obtain ⟨hPr, hPeq⟩ := (onCurve_affine_iff px py).1 hP
      obtain ⟨hQr, hQeq⟩ := (onCurve_affine_iff qx qy).1 hQ
      by_cases hopp : qx = px ∧ (qy + py) % c.p = 0
      · exact ⟨.inf, pointAdd_of_opposite hp hQr hopp, trivial⟩
      · obtain ⟨rx, ry, hadd, hrx, hry, hx, hy⟩ := exists_pointAdd_eq_addX_addY h3 hP hQ hopp
        refine ⟨_, hadd, (onCurve_affine_iff rx ry).2 ⟨⟨hrx, hry⟩, ?_⟩⟩
        rw [hx, hy]
        exact WeierstrassCurve.Affine.equation_add hPeq hQeq fun h => hopp ((opposite_iff_negY hPr hQr).2 h)

end

/-- Settles O51: the identity and the inverse are the first cases of `PointAdd`; the other cases are symmetric. -/
theorem pointAdditionHasIdentityInverseAndCommutes : Obligations.PointAdditionHasIdentityInverseAndCommutes := by
  rintro c ⟨hp, h3, -⟩ P Q hP hQ
  exact ⟨pointAdd_inf P, pointAdd_pointNeg P, pointAdd_comm hp h3 hP hQ⟩

end Sys2Proof.Machine

/-! The scalar multiplications (rules R19, R192, R200, R205, R207). The idea: whatever the loops are asked for (that they do not fail,
that they stay on a curve, that they compute the multiple in the group) is a family of sets of points that holds `O` at 0, the operand
at 1, and is closed under `PointAdd`; one induction per loop serves every such family. -/

namespace Sys2Proof.Machine

section
variable {c : Curve}

/-! ### The three ways to a multiple -/

/-- `rel n` can hold of the multiple `n·P` and is kept by `PointAdd`, which does not fail there. -/
structure MultiplesIn (c : Curve) (P : Point) (rel : Nat → Point → Prop) : Prop where
  zero : rel 0 .inf
  one : rel 1 P
  add {m n : Nat} {Q R : Point} : rel m Q → rel n R → ∃ S, pointAdd c Q R = .ok S ∧ rel (m + n) S

section
variable {P : Point} {rel : Nat → Point → Prop}

theorem MultiplesIn.doubleAddLoop (h : MultiplesIn c P rel) {n d m k : Nat} {R T : Point} (hd : d < 2 ^ n)
    (hR : rel m R) (hT : rel k T) : ∃ S, doubleAddLoop c n d R T = .ok S ∧ rel (m + d * k) S := by
  induction n generalizing d m k R T with
  | zero =>
    obtain rfl : d = 0 := by simpa using hd
    exact ⟨R, rfl, by simpa using hR⟩
  | succ n ih =>
    rw [pow_succ] at hd
    obtain ⟨T', hT', hrel'⟩ := h.add hT hT
    by_cases hodd : d % 2 = 1
    · obtain ⟨R', hR', hsum⟩ := h.add hR hT
      obtain ⟨S, hS, hmul⟩ := ih (d := d / 2) (by omega) hsum hrel'
      have hk : m + d * k = m + k + d / 2 * (k + k) := by
        calc m + d * k = m + (1 + 2 * (d / 2)) * k := by congr 2; omega
          _ = m + k + d / 2 * (k + k) := by ring
      refine ⟨S, ?_, hk ▸ hmul⟩
      rw [Machine.doubleAddLoop, if_pos hodd, hR', hT']
      exact hS
    · obtain ⟨S, hS, hmul⟩ := ih (d := d / 2) (by omega) hR hrel'
      have hk : m + d * k = m + d / 2 * (k + k) := by
        calc m + d * k = m + 2 * (d / 2) * k := by congr 2; omega
          _ = m + d / 2 * (k + k) := by ring
      refine ⟨S, ?_, hk ▸ hmul⟩
      rw [Machine.doubleAddLoop, if_neg hodd, hT']
      exact hS

theorem MultiplesIn.scalarMulDA (h : MultiplesIn c P rel) (d : Nat) :
    ∃ Q, scalarMulDA c d P = .ok Q ∧ rel d Q := by
  obtain ⟨Q, hQ, hrel⟩ := h.doubleAddLoop (lt_two_pow_bitlen d) h.zero h.one
  exact ⟨Q, hQ, by simpa using hrel⟩

/-- The ladder's invariant (rule R205): its registers hold two neighbouring multiples, by the bits looked at so far. -/
theorem MultiplesIn.ladderLoop (h : MultiplesIn c P rel) {d n : Nat} {R0 R1 : Point} (h0 : rel (d / 2 ^ n) R0)
    (h1 : rel (d / 2 ^ n + 1) R1) : ∃ S, ladderLoop c d n R0 R1 = .ok S ∧ rel d S := by
  induction n generalizing R0 R1 with
  | zero => exact ⟨R0, rfl, by simpa using h0⟩
  | succ n ih =>
    have hbits : d / 2 ^ n = 2 * (d / 2 ^ (n + 1)) + (d.testBit n).toNat := by
      rw [Nat.toNat_testBit, Nat.pow_succ, ← Nat.div_div_eq_div_mul]
      omega
    obtain ⟨sum, hsum, hrel⟩ := h.add h0 h1
    obtain ⟨dbl0, hdbl0, hrel0⟩ := h.add h0 h0
    obtain ⟨dbl1, hdbl1, hrel1⟩ := h.add h1 h1
    rw [Machine.ladderLoop, hsum]
    dsimp only
    cases hbit : d.testBit n with
    | true =>
      have hk : d / 2 ^ n = 2 * (d / 2 ^ (n + 1)) + 1 := by rw [hbits, hbit, Bool.toNat_true]
      rw [if_pos rfl, pointDouble, hdbl1]
      refine ih ?_ ?_
      · rwa [hk, two_mul, Nat.add_assoc]
      · rwa [hk, show 2 * (d / 2 ^ (n + 1)) + 1 + 1 = d / 2 ^ (n + 1) + 1 + (d / 2 ^ (n + 1) + 1) by omega]
    | false =>
      have hk : d / 2 ^ n = 2 * (d / 2 ^ (n + 1)) := by rw [hbits, hbit, Bool.toNat_false, Nat.add_zero]
      rw [if_neg Bool.false_ne_true, pointDouble, hdbl0]
      refine ih ?_ ?_
      · rwa [hk, two_mul]
      · rwa [hk, two_mul, Nat.add_assoc]

theorem MultiplesIn.scalarMulML (h : MultiplesIn c P rel) (d : Nat) :
    ∃ Q, scalarMulML c d P = .ok Q ∧ rel d Q := by
  have hzero : d / 2 ^ bitlen d = 0 := Nat.div_eq_of_lt (lt_two_pow_bitlen d)
  exact h.ladderLoop (by rw [hzero]; exact h.zero) (by rw [hzero]; exact h.one)

theorem MultiplesIn.multiple (h : MultiplesIn c P rel) (d : Nat) : ∃ Q, multiple c d P = .ok Q ∧ rel d Q := by
  induction d with
  | zero => exact ⟨.inf, rfl, h.zero⟩
  | succ d ih =>
    obtain ⟨Q, hQ, hrel⟩ := ih
    obtain ⟨S, hS, hrelS⟩ := h.add hrel h.one
    exact ⟨S, by rw [Machine.multiple, hQ]; exact hS, hrelS⟩

end

/-! ### Multiples of `O`, and on a curve -/

theorem multiplesIn_inf : MultiplesIn c .inf fun _ Q => Q = .inf :=
  ⟨rfl, rfl, fun hQ hR => ⟨.inf, by rw [hQ, hR, inf_pointAdd], rfl⟩⟩

theorem multiplesIn_onCurve (hp : Nat.Prime c.p) (h3 : 3 < c.p) {P : Point} (hP : P.onCurve c) :
    MultiplesIn c P fun _ Q => Q.onCurve c :=
  have := Fact.mk hp
  ⟨trivial, hP, exists_pointAdd_onCurve h3⟩

/-- Every pair in range satisfies the curve equation for some `b`, which is the curve's own if the pair is on it. -/
theorem exists_b_onCurve (hp : Nat.Prime c.p) {P : Point} (hP : P.inRange c) :
    ∃ b, P.onCurve { c with b := b } ∧ (P.onCurve c → b = c.b) := by
  by_cases hcurve : P.onCurve c
  · exact ⟨c.b, hcurve, fun _ => rfl⟩
  · cases P with
    | inf => exact absurd trivial hcurve
    | affine x y =>
      refine ⟨y * y + (c.p - 1) * (x * x * x + c.a * x), ⟨hP, ?_⟩, fun h => absurd h hcurve⟩
      obtain ⟨k, hk⟩ : ∃ k, c.p = k + 1 := ⟨c.p - 1, by have := hp.pos; omega⟩
      have hb : x * x * x + c.a * x + (y * y + (c.p - 1) * (x * x * x + c.a * x)) =
          y * y + c.p * (x * x * x + c.a * x) := by
        rw [hk, Nat.add_sub_cancel]
        ring
      rw [hb, Nat.add_mul_mod_self_left]

/-- `PointAdd` never reads `b` (rule R194). -/
theorem pointAdd_with_b (c : Curve) (b : Nat) (P Q : Point) : pointAdd { c with b := b } P Q = pointAdd c P Q := by
  cases P <;> cases Q <;> rfl

/-- The multiples of any pair in range stay on the curve of its own `b` (log entry 19). -/
theorem exists_multiplesIn_onCurve (hp : Nat.Prime c.p) (h3 : 3 < c.p) {P : Point} (hP : P.inRange c) :
    ∃ b, (P.onCurve c → b = c.b) ∧ MultiplesIn c P fun _ Q => Q.onCurve { c with b := b } := by
  obtain ⟨b, hb, hown⟩ := exists_b_onCurve hp hP
  obtain ⟨hzero, hone, hadd⟩ := multiplesIn_onCurve (c := { c with b := b }) hp h3 hb
  exact ⟨b, hown, hzero, hone, fun hQ hR => by simpa only [pointAdd_with_b] using hadd (m := 0) (n := 0) hQ hR⟩

theorem inRange_of_onCurve_with_b {b : Nat} {P : Point} (hP : P.onCurve { c with b := b }) : P.inRange c :=
  inRange_of_onCurve (c := { c with b := b }) hP

/-! ### The multiple in the group (rules R19, R207) -/

theorem weierstrass_Δ (c : Curve) : (weierstrass c).Δ = -((16 * (4 * c.a ^ 3 + 27 * c.b ^ 2) : Nat) : ZMod c.p) := by
  simp only [WeierstrassCurve.Δ, WeierstrassCurve.b₂, WeierstrassCurve.b₄, WeierstrassCurve.b₆, WeierstrassCurve.b₈,
    weierstrass]
  push_cast
  ring

/-- The model's point of a point of Mathlib's group. -/
def ofGroup (c : Curve) : (weierstrass c).Point → Point
  | .zero => .inf
  | .some x y _ => .affine x.val y.val

theorem ofGroup_zero : ofGroup c 0 = .inf := rfl

section
variable [Fact (Nat.Prime c.p)]

theorem ofGroup_onCurve (g : (weierstrass c).Point) : (ofGroup c g).onCurve c := by
  cases g with
  | zero => trivial
  | some x y h =>
    refine (onCurve_affine_iff _ _).2 ⟨⟨ZMod.val_lt x, ZMod.val_lt y⟩, ?_⟩
    simpa only [ZMod.natCast_zmod_val] using h.1

theorem exists_ofGroup_eq (hΔ : (weierstrass c).Δ ≠ 0) {P : Point} (hP : P.onCurve c) : ∃ g, ofGroup c g = P := by
  cases P with
  | inf => exact ⟨0, rfl⟩
  | affine x y =>
    obtain ⟨⟨hx, hy⟩, heq⟩ := (onCurve_affine_iff x y).1 hP
    refine ⟨.some _ _ ((WeierstrassCurve.Affine.equation_iff_nonsingular_of_Δ_ne_zero hΔ).1 heq), ?_⟩
    rw [ofGroup, ZMod.val_cast_of_lt hx, ZMod.val_cast_of_lt hy]

theorem pointAdd_ofGroup (h3 : 3 < c.p) (g h : (weierstrass c).Point) :
    pointAdd c (ofGroup c g) (ofGroup c h) = .ok (ofGroup c (g + h)) := by
  have hp : Nat.Prime c.p := Fact.out
  have hg := ofGroup_onCurve g
  have hh := ofGroup_onCurve h
  cases g with
  | zero => rw [← WeierstrassCurve.Affine.Point.zero_def, zero_add, ofGroup_zero, inf_pointAdd]
  | some px py hP =>
    cases h with
    | zero => rw [← WeierstrassCurve.Affine.Point.zero_def, add_zero, ofGroup_zero, pointAdd_inf]
    | some qx qy hQ =>
      rw [ofGroup] at hg hh ⊢
      have hiff := opposite_iff_negY (inRange_of_onCurve hg) (inRange_of_onCurve hh)
      rw [ofGroup]
      simp only [ZMod.natCast_zmod_val] at hiff
      by_cases hopp : qx.val = px.val ∧ (qy.val + py.val) % c.p = 0
      · obtain ⟨hx, hy⟩ := hiff.1 hopp
        rw [pointAdd_of_opposite hp (inRange_of_onCurve hh) hopp, WeierstrassCurve.Affine.Point.add_of_Y_eq hx hy, ofGroup_zero]
      · obtain ⟨rx, ry, hadd, hrx, hry, hx, hy⟩ := exists_pointAdd_eq_addX_addY h3 hg hh hopp
        simp only [ZMod.natCast_zmod_val] at hx hy
        rw [hadd, WeierstrassCurve.Affine.Point.add_some fun h => hopp (hiff.2 h), ofGroup, ← hx, ← hy,
          ZMod.val_cast_of_lt hrx, ZMod.val_cast_of_lt hry]

theorem multiplesIn_ofGroup (h3 : 3 < c.p) (g : (weierstrass c).Point) :
    MultiplesIn c (ofGroup c g) fun n Q => Q = ofGroup c (n • g) where
  zero := by rw [zero_nsmul, ofGroup_zero]
  one := by rw [one_nsmul]
  add := by
    rintro m n _ _ rfl rfl
    exact ⟨_, pointAdd_ofGroup h3 _ _, by rw [add_nsmul]⟩

variable (h3 : 3 < c.p) (d : Nat) (g : (weierstrass c).Point)
include h3

theorem scalarMulDA_ofGroup : scalarMulDA c d (ofGroup c g) = .ok (ofGroup c (d • g)) := by
  obtain ⟨Q, hQ, rfl⟩ := (multiplesIn_ofGroup h3 g).scalarMulDA d
  exact hQ

theorem scalarMulML_ofGroup : scalarMulML c d (ofGroup c g) = .ok (ofGroup c (d • g)) := by
  obtain ⟨Q, hQ, rfl⟩ := (multiplesIn_ofGroup h3 g).scalarMulML d
  exact hQ

theorem multiple_ofGroup : multiple c d (ofGroup c g) = .ok (ofGroup c (d • g)) := by
  obtain ⟨Q, hQ, rfl⟩ := (multiplesIn_ofGroup h3 g).multiple d
  exact hQ

end

end

/-- Settles O50: on the curve `PointAdd` does not fail and does not leave it, and so neither do the loops made of it. -/
theorem operationsStayOnTheCurve : Obligations.OperationsStayOnTheCurve := by
  rintro c ⟨hp, h3, -⟩ P Q hP hQ
  have := Fact.mk hp
  have hmul := multiplesIn_onCurve hp h3 hP
  exact ⟨exists_pointAdd_onCurve h3 hP hQ, pointNeg_onCurve hp hP, fun d => ⟨hmul.scalarMulDA d, hmul.scalarMulML d⟩⟩

end Sys2Proof.Machine

/-! The elliptic-curve commands (rules R192 to R210). The idea: a command is its value function between the reading of its points and
the writing of its result; on points of the curve that function is the group's, so the multiples SMUL, SMULM, ECKG and ECDH compute are
one multiple, and two secrets agree because multiples commute. -/

namespace Sys2Proof.Machine

/-! ### Reading an operand before a value function -/

theorem bind_error {ε α β : Type} (e : ε) (f : α → Except ε β) : (Except.error e).bind f = .error e := rfl

theorem bind_ok {ε α β : Type} (a : α) (f : α → Except ε β) : (Except.ok a : Except ε α).bind f = f a := rfl

/-! ### A point register as the source and as the destination of a command (rule R27) -/

section
variable {c : Curve} {s : State} {j : PtIx} {P : Point}

theorem inRange_of_pointIs (h : pointIs c s j P) : P.inRange c := by
  cases P with
  | inf => trivial
  | affine x y =>
    obtain ⟨-, -, -, hx, hy⟩ := h
    exact ⟨hx, hy⟩

theorem point_of_pointIs (h : pointIs c s j P) : s.point c j = .ok P := by
  cases P with
  | inf => exact if_pos h
  | affine x y =>
    obtain ⟨hinf, rfl, rfl, hx, hy⟩ := h
    rw [State.point, hinf, if_neg Bool.false_ne_true, if_neg (by omega)]

theorem point_of_pointOutOfRange (h : pointOutOfRange c s j) : s.point c j = .error .param := by
  obtain ⟨hinf, hrange⟩ := h
  rw [State.point, hinf, if_neg Bool.false_ne_true, if_pos hrange]

/-- A register written with a point in range is read as that point. -/
theorem pointIs_of_get (h : s.pt.get j = PointReg.ofPoint P) (hP : P.inRange c) (hwidth : c.p < 2 ^ 256) :
    pointIs c s j P := by
  cases P with
  | inf =>
    rw [pointIs, h]
    rfl
  | affine x y =>
    obtain ⟨hx, hy⟩ := hP
    rw [pointIs, h]
    exact ⟨rfl, Nat.mod_eq_of_lt (hx.trans hwidth), Nat.mod_eq_of_lt (hy.trans hwidth), hx, hy⟩

end

theorem exec_of_point {i : Instr} {s : State} {pd : PtIx} {P : Point} (h : effectOf i s = .ok (s.setPoint pd P)) :
    ∃ t, exec i s = .next t ∧ completed s t ∧ onlyChanges [] [pd] [] s t ∧ t.rng = s.rng ∧
      t.pt.get pd = PointReg.ofPoint P := by
  have ht : exec i s = .next (s.setPoint pd P).complete := by rw [exec_eq_finish, h, finish_ok]
  exact ⟨_, ht, ⟨rfl, rfl, rfl, rfl⟩, setPoint_onlyChanges s pd P, rfl, get_setPoint_same s pd P⟩

theorem curve_three_lt : 3 < Config.curve.p := by
  obtain ⟨-, h3, -⟩ := curve_admissible
  exact h3

theorem curve_lt_two_pow : Config.curve.p < 2 ^ 256 := by
  obtain ⟨-, -, hwidth, -⟩ := curve_admissible
  exact hwidth

/-! ### PADD, PDBL and PNEG (rules R196 to R198) -/

/-- The formulas of rule R194 in the words of Safety.lean. -/
theorem SumOnLine.onLine {c : Curve} {lam px py qx qy rx ry : Nat} (h : SumOnLine c lam px py qx qy rx ry) :
    onLine c lam px py qx rx ry ∧
      if qx = px then (lam : Int) * (2 * py) ≡ 3 * (px * px) + c.a [ZMOD (c.p : Int)]
      else (lam : Int) * (qx - px) ≡ qy - py [ZMOD (c.p : Int)] := by
  refine ⟨⟨Int.natCast_nonneg _, Int.ofNat_lt.2 h.x_lt, Int.natCast_nonneg _, Int.ofNat_lt.2 h.y_lt, ?_, ?_⟩, ?_⟩
  · exact (ZMod.intCast_eq_intCast_iff _ _ _).1 (by exact_mod_cast h.x_eq)
  · exact (ZMod.intCast_eq_intCast_iff _ _ _).1 (by exact_mod_cast h.y_eq)
  · split
    case isTrue hx => exact (ZMod.intCast_eq_intCast_iff _ _ _).1 (by exact_mod_cast h.tangent hx)
    case isFalse hx => exact (ZMod.intCast_eq_intCast_iff _ _ _).1 (by exact_mod_cast h.chord hx)

section
variable {s : State} {pd ps1 ps2 : PtIx}

theorem effectOf_padd_of_param (pd : PtIx) (h : pointOutOfRange Config.curve s ps1 ∨ pointOutOfRange Config.curve s ps2) :
    effectOf (.padd pd ps1 ps2) s = .error (.param, s.rng) := by
  have hvalue : addValue s Config.curve ps1 ps2 = .error .param := by
    obtain h1 | h2 := h
    · rw [addValue, point_of_pointOutOfRange h1, bind_error]
    · rw [addValue, point_of_pointOutOfRange h2]
      obtain h1 | ⟨P, h1, -⟩ := point_cases s Config.curve ps1 <;> rw [h1] <;> rfl
  rw [effectOf, hvalue, putPoint_error]

theorem effectOf_padd (pd : PtIx) {P Q : Point} (hP : pointIs Config.curve s ps1 P) (hQ : pointIs Config.curve s ps2 Q) :
    effectOf (.padd pd ps1 ps2) s = s.putPoint pd (pointAdd Config.curve P Q) := by
  rw [effectOf, addValue, point_of_pointIs hP, point_of_pointIs hQ, bind_ok, bind_ok]

theorem exec_padd_of_sum {P Q R : Point} (hP : pointIs Config.curve s ps1 P) (hQ : pointIs Config.curve s ps2 Q)
    (hR : pointAdd Config.curve P Q = .ok R) :
    ∃ t, exec (.padd pd ps1 ps2) s = .next t ∧ completed s t ∧ onlyChanges [] [pd] [] s t ∧ t.rng = s.rng ∧
      t.pt.get pd = PointReg.ofPoint R :=
  exec_of_point (by rw [effectOf_padd pd hP hQ, hR, putPoint_ok])

theorem exec_pdbl_eq_padd (pd ps : PtIx) (s : State) : exec (.pdbl pd ps) s = exec (.padd pd ps ps) s := by
  rw [exec_eq_finish, exec_eq_finish, effectOf, effectOf, addValue]
  obtain h | ⟨P, h, -⟩ := point_cases s Config.curve ps <;> rw [h] <;> rfl

end

/-- Settles O47: the cases of `PointAdd` on a pair of affine points are the opposite pair, the zero divisor, and the line. -/
theorem pointAdditionFollowsTheCases : Obligations.PointAdditionFollowsTheCases := by
  refine fun pd ps1 ps2 s => ⟨fun h => exec_of_error (effectOf_padd_of_param pd h), fun P Q hP hQ => ?_⟩
  cases P with
  | inf =>
    obtain ⟨t, ht, hc, hframe, hrng, hpt⟩ := exec_padd_of_sum (pd := pd) hP hQ (inf_pointAdd Q)
    exact ⟨t, ht, hrng, hc, hframe, hpt⟩
  | affine px py =>
    cases Q with
    | inf =>
      obtain ⟨t, ht, hc, hframe, hrng, hpt⟩ := exec_padd_of_sum (pd := pd) hP hQ (pointAdd_inf _)
      exact ⟨t, ht, hrng, hc, hframe, hpt⟩
    | affine qx qy =>
      have hPr := inRange_of_pointIs hP
      have hQr := inRange_of_pointIs hQ
      dsimp only
      by_cases hopp : qx = px ∧ (qy + py) % Config.curve.p = 0
      · obtain ⟨t, ht, hc, hframe, hrng, hpt⟩ :=
          exec_padd_of_sum (pd := pd) hP hQ (pointAdd_of_opposite curve_prime hQr hopp)
        exact ⟨t, ht, hrng, by rw [if_pos hopp]; exact ⟨hc, hframe, hpt⟩⟩
      · by_cases hdef : qx = px ∧ qy ≠ py
        · obtain ⟨t, ht, hf, hrng⟩ := exec_of_error (i := .padd pd ps1 ps2) (s := s) (e := .noinv) (by
            rw [effectOf_padd pd hP hQ, pointAdd_of_no_inverse curve_prime hQr hopp hdef, putPoint_error])
          exact ⟨t, ht, hrng, by rw [if_neg hopp, if_pos hdef]; exact hf⟩
        · obtain ⟨lam, rx, ry, hadd, hsum⟩ :=
            exists_pointAdd_on_line curve_prime curve_three_lt hPr hQr hopp hdef
          obtain ⟨t, ht, hc, hframe, hrng, hpt⟩ := exec_padd_of_sum (pd := pd) hP hQ hadd
          refine ⟨t, ht, hrng, ?_⟩
          rw [if_neg hopp, if_neg hdef]
          exact ⟨hc, hframe, lam, rx, ry, hpt, hsum.onLine⟩

/-- A nonzero y-coordinate is not its own opposite, as `p` is odd (rule R195). -/
theorem add_self_mod_ne_zero {p y : Nat} (hp : Nat.Prime p) (h3 : 3 < p) (hlt : y < p) (hy : y ≠ 0) :
    (y + y) % p ≠ 0 := by
  rw [← two_mul, ne_eq, ← Nat.dvd_iff_mod_eq_zero, hp.dvd_mul, not_or]
  exact ⟨Nat.not_dvd_of_pos_of_lt (by omega) (by omega), Nat.not_dvd_of_pos_of_lt (by omega) hlt⟩

/-- Settles O48: a register added to itself has its x twice and its y twice, so no divisor but `2y` occurs. -/
theorem doublingRaisesNothingButParam : Obligations.DoublingRaisesNothingButParam := by
  intro pd ps s
  rw [exec_pdbl_eq_padd]
  refine ⟨rfl, fun h => exec_of_error (effectOf_padd_of_param pd (.inl h)), fun P hP => ?_⟩
  cases P with
  | inf => exact exec_padd_of_sum hP hP (inf_pointAdd _)
  | affine px py =>
    have hPr := inRange_of_pointIs hP
    dsimp only
    by_cases hy : py = 0
    · subst hy
      obtain ⟨t, ht, hc, hframe, hrng, hpt⟩ :=
        exec_padd_of_sum (pd := pd) hP hP (pointAdd_of_opposite curve_prime hPr ⟨rfl, Nat.zero_mod _⟩)
      exact ⟨t, ht, hc, hframe, hrng, by rw [if_pos rfl]; exact hpt⟩
    · obtain ⟨lam, rx, ry, hadd, hsum⟩ := exists_pointAdd_on_line curve_prime curve_three_lt hPr hPr
        (fun h => add_self_mod_ne_zero curve_prime curve_three_lt hPr.2 hy h.2) fun h => h.2 rfl
      obtain ⟨t, ht, hc, hframe, hrng, hpt⟩ := exec_padd_of_sum (pd := pd) hP hP hadd
      obtain ⟨hline, hslope⟩ := hsum.onLine
      rw [if_pos rfl] at hslope
      exact ⟨t, ht, hc, hframe, hrng, by rw [if_neg hy]; exact ⟨lam, rx, ry, hpt, hline, hslope⟩⟩

theorem exec_pneg {s : State} (pd : PtIx) {ps : PtIx} {P : Point} (hP : pointIs Config.curve s ps P) :
    ∃ t, exec (.pneg pd ps) s = .next t ∧ completed s t ∧ onlyChanges [] [pd] [] s t ∧ t.rng = s.rng ∧
      t.pt.get pd = PointReg.ofPoint (pointNeg Config.curve P) :=
  exec_of_point (by rw [effectOf, point_of_pointIs hP, Except.map, putPoint_ok])

/-- Settles O49: the result is in range, so the second PNEG reads it back. -/
theorem negationMirrorsThePoint : Obligations.NegationMirrorsThePoint := by
  refine fun pd ps s => ⟨fun h => exec_of_error ?_, fun P hP => ?_⟩
  · rw [effectOf, point_of_pointOutOfRange h, Except.map, putPoint_error]
  · have hPr := inRange_of_pointIs hP
    obtain ⟨t, ht, hc, hframe, hrng, hpt⟩ := exec_pneg pd hP
    have hneg := pointIs_of_get hpt (pointNeg_inRange curve_prime hPr) curve_lt_two_pow
    obtain ⟨u, hu, hcu, -, -, hptu⟩ := exec_pneg pd hneg
    rw [pointNeg_pointNeg curve_prime hPr] at hptu
    refine ⟨t, u, ht, hc, hframe, hrng, ?_, hu, hcu, hptu⟩
    cases P with
    | inf => exact hpt
    | affine x y => rwa [pointNeg, fneg_eq_sub_mod hPr.2] at hpt

/-! ### SMUL and SMULM (rules R201, R206, R207) -/

section
variable {s : State} {pd ps : PtIx} {rk : RegIx} {P Q : Point}

theorem effectOf_smul (hP : pointIs Config.curve s ps P) (hQ : scalarMulDA Config.curve (s.reg rk) P = .ok Q) :
    effectOf (.smul pd ps rk) s = .ok (s.setPoint pd Q) := by
  rw [effectOf, point_of_pointIs hP, bind_ok, hQ, putPoint_ok]

theorem effectOf_smulm (hP : pointIs Config.curve s ps P) (hQ : scalarMulML Config.curve (s.reg rk) P = .ok Q) :
    effectOf (.smulm pd ps rk) s = .ok (s.setPoint pd Q) := by
  rw [effectOf, point_of_pointIs hP, bind_ok, hQ, putPoint_ok]

/-- What either loop answers, of any family of multiples. -/
theorem exists_effectOf_of_multiplesIn {rel : Nat → Point → Prop} {i : Instr}
    (hi : i ∈ [Instr.smul pd ps rk, .smulm pd ps rk]) (hP : pointIs Config.curve s ps P) (hmul : MultiplesIn Config.curve P rel) :
    ∃ Q, effectOf i s = .ok (s.setPoint pd Q) ∧ rel (s.reg rk) Q ∧
      (i = .smul pd ps rk → scalarMulDA Config.curve (s.reg rk) P = .ok Q) ∧
      (i = .smulm pd ps rk → scalarMulML Config.curve (s.reg rk) P = .ok Q) := by
  simp only [List.mem_cons, List.not_mem_nil, or_false] at hi
  obtain rfl | rfl := hi
  · obtain ⟨Q, hQ, hrel⟩ := hmul.scalarMulDA (s.reg rk)
    exact ⟨Q, effectOf_smul hP hQ, hrel, fun _ => hQ, nofun⟩
  · obtain ⟨Q, hQ, hrel⟩ := hmul.scalarMulML (s.reg rk)
    exact ⟨Q, effectOf_smulm hP hQ, hrel, nofun, fun _ => hQ⟩

end

/-- The multiple by 0, and every multiple of `O`, is `O`. -/
theorem scalarMul_eq_inf (c : Curve) {d : Nat} {P : Point} (h : d = 0 ∨ P = .inf) :
    scalarMulDA c d P = .ok .inf ∧ scalarMulML c d P = .ok .inf := by
  obtain rfl | rfl := h
  · exact ⟨rfl, rfl⟩
  · obtain ⟨_, hDA, rfl⟩ := multiplesIn_inf.scalarMulDA (c := c) d
    obtain ⟨_, hML, rfl⟩ := multiplesIn_inf.scalarMulML (c := c) d
    exact ⟨hDA, hML⟩

/-- Settles O52: the multiples of a pair stay on the curve of the pair's own `b`, where the loops do not fail. -/
theorem scalarMultiplicationsComplete : Obligations.ScalarMultiplicationsComplete := by
  refine fun pd ps rk i s hi => ⟨fun h => exec_of_error ?_, fun P hP => ?_, fun P hP hzero => ?_⟩
  · simp only [List.mem_cons, List.not_mem_nil, or_false] at hi
    obtain rfl | rfl := hi <;> rw [effectOf, point_of_pointOutOfRange h, bind_error, putPoint_error]
  · obtain ⟨b, hown, hmul⟩ := exists_multiplesIn_onCurve curve_prime curve_three_lt (inRange_of_pointIs hP)
    obtain ⟨Q, heff, hQ, hDA, hML⟩ := exists_effectOf_of_multiplesIn hi hP hmul
    obtain ⟨t, ht, hc, hframe, hrng, hpt⟩ := exec_of_point heff
    exact ⟨t, Q, ht, hc, hframe, hrng, hpt, inRange_of_onCurve_with_b hQ, hDA, hML, fun h => by rwa [hown h] at hQ⟩
  · obtain ⟨hDA, hML⟩ := scalarMul_eq_inf Config.curve hzero
    have heff : effectOf i s = .ok (s.setPoint pd .inf) := by
      simp only [List.mem_cons, List.not_mem_nil, or_false] at hi
      obtain rfl | rfl := hi
      · exact effectOf_smul hP hDA
      · exact effectOf_smulm hP hML
    obtain ⟨t, ht, hc, -, -, hpt⟩ := exec_of_point heff
    exact ⟨t, ht, hc, hpt⟩

/-- The numbers of rule R191 are those of an elliptic curve, so every point on it is a point of the group. -/
theorem curve_Δ_ne_zero : (weierstrass Config.curve).Δ ≠ 0 := by
  rw [weierstrass_Δ, neg_ne_zero, ne_eq, ZMod.natCast_eq_zero_iff]
  decide +kernel

/-- Settles O53: on the curve both loops and the repeated addition compute the multiple of the group. -/
theorem scalarMultiplicationsAgree : Obligations.ScalarMultiplicationsAgree := by
  intro pd ps rk s P hP hon
  have := Fact.mk curve_prime
  obtain ⟨g, rfl⟩ := exists_ofGroup_eq curve_Δ_ne_zero hon
  obtain ⟨t, ht, hct, -, -, hpt⟩ := exec_of_point (pd := pd) (effectOf_smul hP (scalarMulDA_ofGroup curve_three_lt _ g))
  obtain ⟨u, hu, hcu, -, -, hpu⟩ := exec_of_point (pd := pd) (effectOf_smulm hP (scalarMulML_ofGroup curve_three_lt _ g))
  exact ⟨t, u, _, multiple_ofGroup curve_three_lt _ g, ht, hct, hpt, hu, hcu, hpu⟩

/-! ### ECKG and ECDH (rules R208, R209) -/

theorem ecScalar_lt (bs : List Byte) : ecScalar Config.curve bs < 2 ^ Config.opw :=
  calc ecScalar Config.curve bs < Config.curve.p := Nat.mod_lt _ curve_prime.pos
    _ < 2 ^ 256 := curve_lt_two_pow
    _ ≤ 2 ^ Config.opw := Nat.pow_le_pow_right (by omega) (by rw [opw_eq]; omega)

theorem reg_setPoint (s : State) (j : PtIx) (P : Point) (i : RegIx) : (s.setPoint j P).reg i = s.reg i := rfl

theorem exec_eckg {s : State} (pd : PtIx) (rk : RegIx) {Q : Point}
    (hQ : scalarMulML Config.curve (ecScalar Config.curve (s.rng.bytes 32)) (generator Config.curve) = .ok Q) :
    ∃ t, exec (.eckg pd rk) s = .next t ∧ completed s t ∧ onlyChanges [rk] [pd] [] s t ∧ t.rng = s.rng.skip 32 ∧
      t.reg rk = ecScalar Config.curve (s.rng.bytes 32) ∧ t.pt.get pd = PointReg.ofPoint Q := by
  have ht := exec_eq_finish (.eckg pd rk) s
  rw [effectOf, eckgEffect_of_ok pd rk hQ, finish_ok] at ht
  obtain ⟨hframe, -⟩ := commandsChangeOnlyTheirDestinations _ _ _ ht
  refine ⟨_, ht, ⟨rfl, rfl, rfl, rfl⟩, hframe, rfl, ?_, get_setPoint_same _ pd Q⟩
  rw [reg_complete, reg_setPoint, reg_setReg_same (ecScalar_lt _)]

/-- Settles O54: G is on the curve, so the ladder answers a point on it. -/
theorem ecKeygenWritesTheScalarAndItsPoint : Obligations.EcKeygenWritesTheScalarAndItsPoint := by
  intro pd rk s
  obtain ⟨Q, hQ, hon⟩ := (multiplesIn_onCurve curve_prime curve_three_lt generator_onCurve).scalarMulML
    (ecScalar Config.curve (s.rng.bytes 32))
  obtain ⟨t, ht, hc, hframe, hrng, hreg, hpt⟩ := exec_eckg pd rk hQ
  refine ⟨t, Q, ht, hc, hframe, hrng, hreg, ?_, hon, hpt⟩
  rw [hreg]
  exact hQ

section
variable {s : State} {bd : BufIx} {ps : PtIx} {rk : RegIx} {P : Point}

theorem exec_ecdh_of_inf (hP : pointIs Config.curve s ps P) (hR : scalarMulDA Config.curve (s.reg rk) P = .ok .inf) :
    ∃ t, exec (.ecdh bd ps rk) s = .next t ∧ faulted .infpt s t ∧ t.rng = s.rng :=
  exec_of_error (by rw [effectOf, point_of_pointIs hP, bind_ok, hR, bind_ok, secretOf, putBuf_error])

theorem exec_ecdh_of_affine {x y : Nat} (hP : pointIs Config.curve s ps P)
    (hR : scalarMulDA Config.curve (s.reg rk) P = .ok (.affine x y)) :
    ∃ t, exec (.ecdh bd ps rk) s = .next t ∧ completed s t ∧ onlyChanges [] [] [bd] s t ∧ t.rng = s.rng ∧
      holdsBytes t bd (i2be x 32) :=
  exec_of_bytes (by rw [effectOf, point_of_pointIs hP, bind_ok, hR, bind_ok, secretOf, putBuf_ok])
    (by rw [i2be_length, bufCap_eq]; omega)

end

/-- Settles O55: the product is in range, so its x-coordinate is the number of its 32 bytes. -/
theorem sharedSecretIsTheXCoordinate : Obligations.SharedSecretIsTheXCoordinate := by
  refine fun bd ps rk s => ⟨fun h => exec_of_error ?_, fun P hP => ?_, fun P hP hzero => ?_⟩
  · rw [effectOf, point_of_pointOutOfRange h, bind_error, bind_error, putBuf_error]
  · obtain ⟨b, -, hmul⟩ := exists_multiplesIn_onCurve curve_prime curve_three_lt (inRange_of_pointIs hP)
    obtain ⟨R, hR, hon⟩ := hmul.scalarMulDA (s.reg rk)
    cases R with
    | inf =>
      obtain ⟨t, ht, hf, hrng⟩ := exec_ecdh_of_inf (bd := bd) hP hR
      exact ⟨t, .inf, hR, ht, hrng, hf⟩
    | affine x y =>
      obtain ⟨t, ht, hc, hframe, hrng, hholds⟩ := exec_ecdh_of_affine (bd := bd) hP hR
      obtain ⟨hx, -⟩ := inRange_of_onCurve_with_b hon
      have hbytes : be (i2be x 32) = x := by
        rw [be_i2be]
        exact Nat.mod_eq_of_lt (hx.trans (curve_lt_two_pow.trans_le (by norm_num)))
      have ⟨hseq, hlen, _⟩ := hholds
      exact ⟨t, _, hR, ht, hrng, hc, hframe, by rw [hlen, i2be_length], by rw [hseq, hbytes], hholds⟩
  · obtain ⟨hDA, -⟩ := scalarMul_eq_inf Config.curve hzero
    obtain ⟨t, ht, hf, -⟩ := exec_ecdh_of_inf (bd := bd) hP hDA
    exact ⟨t, ht, hf⟩

/-! ### Key agreement (rule R210) -/

/-- ECKG in the group: the point is the multiple of the generator by the scalar, whatever the scalar is. -/
theorem exec_eckg_of_generator [Fact (Nat.Prime Config.curve.p)] {g : (weierstrass Config.curve).Point}
    (hg : ofGroup Config.curve g = generator Config.curve) (pd : PtIx) (rk : RegIx) (s : State) :
    ∃ t, exec (.eckg pd rk) s = .next t ∧ onlyChanges [rk] [pd] [] s t ∧
      t.pt.get pd = PointReg.ofPoint (ofGroup Config.curve (t.reg rk • g)) := by
  obtain ⟨t, ht, -, hframe, -, hreg, hpt⟩ := exec_eckg pd rk (hg ▸ scalarMulML_ofGroup curve_three_lt _ g)
  exact ⟨t, ht, hframe, by rw [hreg]; exact hpt⟩

theorem reg_of_onlyChanges {regs : List RegIx} {pts : List PtIx} {bufs : List BufIx} {s t : State} {i : RegIx}
    (h : onlyChanges regs pts bufs s t) (hi : i ∉ regs) : t.reg i = s.reg i := by
  obtain ⟨hreg, -⟩ := h
  rw [State.reg, hreg i hi, State.reg]

/-- Settles O56: both parties multiply the generator by both scalars, in one order or the other. -/
theorem keyAgreementGivesTheSameSecret : Obligations.KeyAgreementGivesTheSameSecret := by
  intro p0 p1 r0 r1 b0 b1 s hp hr
  have := Fact.mk curve_prime
  obtain ⟨g, hg⟩ := exists_ofGroup_eq curve_Δ_ne_zero generator_onCurve
  obtain ⟨s1, hs1, -, hpt0⟩ := exec_eckg_of_generator hg p0 r0 s
  obtain ⟨s2, hs2, hframe, hpt1⟩ := exec_eckg_of_generator hg p1 r1 s1
  have hreg0 : s2.reg r0 = s1.reg r0 := reg_of_onlyChanges hframe (by simpa using hr)
  obtain ⟨-, hpts, -⟩ := hframe
  rw [← hpts p0 (by simpa using hp), ← hreg0] at hpt0
  have hP0 := pointIs_of_get hpt0 (inRange_of_onCurve (ofGroup_onCurve _)) curve_lt_two_pow
  have hP1 := pointIs_of_get hpt1 (inRange_of_onCurve (ofGroup_onCurve _)) curve_lt_two_pow
  have hmul0 := scalarMulDA_ofGroup curve_three_lt (s2.reg r0) (s2.reg r1 • g)
  have hmul1 := scalarMulDA_ofGroup curve_three_lt (s2.reg r1) (s2.reg r0 • g)
  rw [smul_comm] at hmul1
  refine ⟨s1, s2, ?_⟩
  cases hR : ofGroup Config.curve (s2.reg r0 • s2.reg r1 • g) with
  | inf =>
    rw [hR] at hmul0 hmul1
    obtain ⟨t, ht, hft, -⟩ := exec_ecdh_of_inf (bd := b0) hP1 hmul0
    obtain ⟨u, hu, hfu, -⟩ := exec_ecdh_of_inf (bd := b1) hP0 hmul1
    exact ⟨t, u, hs1, hs2, ht, hu, .inl ⟨hft, hfu⟩⟩
  | affine x y =>
    rw [hR] at hmul0 hmul1
    obtain ⟨t, ht, hct, -, -, hbt, hlt, -⟩ := exec_ecdh_of_affine (bd := b0) hP1 hmul0
    obtain ⟨u, hu, hcu, -, -, hbu, hlu, -⟩ := exec_ecdh_of_affine (bd := b1) hP0 hmul1
    rw [i2be_length] at hlt hlu
    exact ⟨t, u, hs1, hs2, ht, hu, .inr ⟨hct, hcu, hbt.trans hbu.symm, hlt, hlu⟩⟩

end Sys2Proof.Machine

/-! How commands end, and what the host sees of it: the completion and the fault completion, the codes each command can raise, a
write to `CMD`, and the interrupt output (rules R230 to R244). The idea: the statement of each command splits into cases that
cover every state, each a completion or a fault with one code, so the codes a command can raise are those of its cases. -/

namespace Sys2Proof.Machine

/-! ### The two ends of a command (rules R239, R240) -/

/-- The destination writes of a command leave the fault record alone, and its completion then sets the status. -/
theorem Writes.completed {i : Instr} {s t : State} (h : Writes i s t) : completed s t.complete := by
  induction h with
  | source _ => exact ⟨rfl, rfl, rfl, rfl⟩
  | reg _ _ _ ih | point _ _ _ ih | buf _ _ _ ih => exact ih

theorem exec_completed_or_faulted {i : Instr} {s t : State} (h : exec i s = .next t) :
    completed s t ∨ ∃ e, faulted e s t := by
  obtain ⟨u, hu, rfl⟩ | ⟨e, g, -, rfl⟩ := exec_next_cases h
  · exact .inl hu.completed
  · exact .inr ⟨e, raise_faulted s e g⟩

/-- Settles O58: every command answers a next state, and its effect is a chain of writes or a fault. -/
theorem commandsEndCompletedOrFaulted : Obligations.CommandsEndCompletedOrFaulted := by
  intro i s
  obtain ⟨t, ht⟩ := exec_next i s
  exact ⟨t, ht, exec_completed_or_faulted ht⟩

/-! ### The codes a command can raise (rules R230 to R237) -/

/-- From `s`, the command ends in a completion, or in a fault completion with one of the codes its rule gives it. -/
def endsInItsCodes (i : Instr) (s : State) : Prop :=
  ∃ t, exec i s = .next t ∧ (completed s t ∨ ∃ e ∈ mayRaise i, faulted e s t)

section
variable {i : Instr} {s t : State} {e : ErrCode}

theorem endsInItsCodes_of_completed (ht : exec i s = .next t) (hc : completed s t) : endsInItsCodes i s :=
  ⟨t, ht, .inl hc⟩

/-- A case of a command's statement that is a fault without a draw. -/
theorem endsInItsCodes_of_faulted (h : ∃ t, exec i s = .next t ∧ faulted e s t ∧ t.rng = s.rng) (he : e ∈ mayRaise i) :
    endsInItsCodes i s := by
  obtain ⟨t, ht, hf, -⟩ := h
  exact ⟨t, ht, .inr ⟨e, he, hf⟩⟩

theorem endsInItsCodes_of_checkedResidue {rd rm : RegIx} {x : Except ErrCode Nat} {v : Nat}
    (hi : effectOf i s = s.putReg rd x) (hx : checkedResidue (s.reg rm) v x) (hparam : .param ∈ mayRaise i) :
    endsInItsCodes i s := by
  obtain ⟨hzero, hpos⟩ := exec_putReg_of_checkedResidue hi hx
  obtain hm | hm := Nat.eq_zero_or_pos (s.reg rm)
  · exact endsInItsCodes_of_faulted (hzero hm) hparam
  · obtain ⟨t, ht, -, hc, -⟩ := hpos hm
    exact endsInItsCodes_of_completed ht hc

end

theorem minv_endsInItsCodes (rd rs1 rm : RegIx) (s : State) : endsInItsCodes (.minv rd rs1 rm) s := by
  obtain ⟨hzero, hnoinv, hinv⟩ := inverseIsWrittenExactlyWhenItExists rd rs1 rm s
  obtain hm | hm := Nat.eq_zero_or_pos (s.reg rm)
  · exact endsInItsCodes_of_faulted (hzero hm) (by simp [mayRaise])
  · by_cases hg : Nat.gcd (s.reg rs1) (s.reg rm) = 1
    · obtain ⟨t, ht, -, -, -, hc, -⟩ := hinv hm hg
      exact endsInItsCodes_of_completed ht hc
    · exact endsInItsCodes_of_faulted (hnoinv hm hg) (by simp [mayRaise])

theorem minvf_endsInItsCodes (rd rs1 rm : RegIx) (s : State) : endsInItsCodes (.minvf rd rs1 rm) s := by
  obtain ⟨hsmall, hmultiple, hpower⟩ := fermatInverseIsThePower rd rs1 rm s
  obtain hm | hm := Nat.lt_or_ge (s.reg rm) 2
  · exact endsInItsCodes_of_faulted (hsmall hm) (by simp [mayRaise])
  · by_cases hx : s.reg rs1 % s.reg rm = 0
    · exact endsInItsCodes_of_faulted (hmultiple hm hx) (by simp [mayRaise])
    · obtain ⟨t, ht, -, hc, -⟩ := hpower hm hx
      exact endsInItsCodes_of_completed ht hc

theorem mrand_endsInItsCodes (rd rm : RegIx) (s : State) : endsInItsCodes (.mrand rd rm) s := by
  obtain ⟨hzero, hrand⟩ := randomElementIsBelowTheModulus rd rm s
  obtain hm | hm := Nat.eq_zero_or_pos (s.reg rm)
  · exact endsInItsCodes_of_faulted (hzero hm) (by simp [mayRaise])
  · obtain ⟨t, ht, -, hc, -⟩ := hrand hm
    exact endsInItsCodes_of_completed ht hc

theorem pkpad_endsInItsCodes (bd bs : BufIx) (s : State) : endsInItsCodes (.pkpad bd bs) s := by
  obtain ⟨hparam, hlong, hfits⟩ := padWritesThePaddedBlock bd bs s
  by_cases hop : s.kbits.toNat % 8 ≠ 0 ∨ Config.bufCap < s.kbits.toNat / 8 ∨ lengthTooLarge s bs
  · exact endsInItsCodes_of_faulted (hparam hop) (by simp [mayRaise])
  · obtain ⟨hmult, hcap, hlen⟩ :
        s.kbits.toNat % 8 = 0 ∧ s.kbits.toNat / 8 ≤ Config.bufCap ∧ ¬ lengthTooLarge s bs := by omega
    obtain hmsg | hmsg := Nat.lt_or_ge (s.kbits.toNat / 8) (s.bufLen bs + 11)
    · exact endsInItsCodes_of_faulted (hlong hmult hcap hlen hmsg) (by simp [mayRaise])
    · obtain ⟨t, ht, hc, -⟩ := hfits hmult hcap hmsg
      exact endsInItsCodes_of_completed ht hc

theorem pkunpad_endsInItsCodes (bd bs : BufIx) (s : State) : endsInItsCodes (.pkunpad bd bs) s := by
  obtain ⟨hparam, hsome, hnone⟩ := unpadWritesWhatFollowsTheSeparator bd bs s
  by_cases hlen : lengthTooLarge s bs
  · exact endsInItsCodes_of_faulted (hparam hlen) (by simp [mayRaise])
  · by_cases hsep : ∃ n, separatorAt (s.bufBytes bs) n
    · obtain ⟨n, hn⟩ := hsep
      obtain ⟨t, ht, hc, -⟩ := hsome n hlen hn
      exact endsInItsCodes_of_completed ht hc
    · exact endsInItsCodes_of_faulted (hnone hlen (not_exists.1 hsep)) (by simp [mayRaise])

theorem rsakg_endsInItsCodes (rdn rdd re : RegIx) (s : State) : endsInItsCodes (.rsakg rdn rdd re) s := by
  obtain ⟨hequal, hsize⟩ := keygenRejectsItsOperands rdn rdd re s
  obtain ⟨hkey, -⟩ := keygenWritesAValidKeyOrExhausts
  by_cases hne : rdn = rdd
  · exact endsInItsCodes_of_faulted (hequal hne) (by simp [mayRaise])
  · by_cases hk : s.kbits.toNat % 2 ≠ 0 ∨ s.kbits.toNat < 4 ∨ Config.opw < s.kbits.toNat
    · exact endsInItsCodes_of_faulted (hsize hne hk) (by simp [mayRaise])
    · obtain ⟨t, ht, ⟨hf, -⟩ | ⟨hc, -⟩⟩ := hkey rdn rdd re s hne (by omega) (by omega) (by omega)
      · exact ⟨t, ht, .inr ⟨.keygen, by simp [mayRaise], hf⟩⟩
      · exact endsInItsCodes_of_completed ht hc

theorem rsaenc_endsInItsCodes (bd bs : BufIx) (rx rn : RegIx) (s : State) : endsInItsCodes (.rsaenc bd bs rx rn) s := by
  obtain ⟨hparam, hlong, hfits⟩ := encryptWritesTheMinimalCiphertext bd bs rx rn s
  by_cases hop : s.reg rn = 0 ∨ lengthTooLarge s bs
  · exact endsInItsCodes_of_faulted (hparam hop) (by simp [mayRaise])
  · obtain ⟨hm, hlen⟩ := not_or.1 hop
    obtain hmsg | hmsg := Nat.lt_or_ge ((bitlen (s.reg rn) + 7) / 8) (s.bufLen bs + 11)
    · exact endsInItsCodes_of_faulted (hlong (Nat.pos_of_ne_zero hm) hlen hmsg) (by simp [mayRaise])
    · obtain ⟨t, -, ht, hc, -⟩ := hfits (Nat.pos_of_ne_zero hm) hmsg
      exact endsInItsCodes_of_completed ht hc

theorem rsadec_endsInItsCodes (bd bs : BufIx) (rx rn : RegIx) (s : State) : endsInItsCodes (.rsadec bd bs rx rn) s := by
  obtain ⟨hparam, hsome, hnone⟩ := decryptUnpadsThePower bd bs rx rn s
  by_cases hop : s.reg rn = 0 ∨ lengthTooLarge s bs
  · exact endsInItsCodes_of_faulted (hparam hop) (by simp [mayRaise])
  · obtain ⟨hm, hlen⟩ := not_or.1 hop
    by_cases hsep : ∃ n, separatorAt (0x00 :: i2beMin (be (s.bufBytes bs) ^ s.reg rx % s.reg rn)) n
    · obtain ⟨n, hn⟩ := hsep
      obtain ⟨t, ht, hc, -⟩ := hsome n _ (Nat.pos_of_ne_zero hm) hlen rfl hn
      exact endsInItsCodes_of_completed ht hc
    · exact endsInItsCodes_of_faulted (hnone _ (Nat.pos_of_ne_zero hm) hlen rfl (not_exists.1 hsep)) (by simp [mayRaise])

/-- A point register is the source of a point, or of E_PARAM (rule R27). -/
theorem pointOutOfRange_or_pointIs (c : Curve) (s : State) (j : PtIx) : pointOutOfRange c s j ∨ ∃ P, pointIs c s j P := by
  cases hinf : (s.pt.get j).inf with
  | true => exact .inr ⟨.inf, hinf⟩
  | false =>
    by_cases hrange : c.p ≤ (s.pt.get j).x.toNat ∨ c.p ≤ (s.pt.get j).y.toNat
    · exact .inl ⟨hinf, hrange⟩
    · obtain ⟨hx, hy⟩ := not_or.1 hrange
      exact .inr ⟨.affine _ _, hinf, rfl, rfl, not_le.1 hx, not_le.1 hy⟩

/-- Two affine points are opposite, or on a vertical chord, which is E_NOINV, or on a line that has a third point. -/
theorem padd_endsInItsCodes (pd ps1 ps2 : PtIx) (s : State) : endsInItsCodes (.padd pd ps1 ps2) s := by
  obtain ⟨hparam, hsum⟩ := pointAdditionFollowsTheCases pd ps1 ps2 s
  obtain hout | ⟨P, hP⟩ := pointOutOfRange_or_pointIs Config.curve s ps1
  · exact endsInItsCodes_of_faulted (hparam (.inl hout)) (by simp [mayRaise])
  obtain hout | ⟨Q, hQ⟩ := pointOutOfRange_or_pointIs Config.curve s ps2
  · exact endsInItsCodes_of_faulted (hparam (.inr hout)) (by simp [mayRaise])
  obtain ⟨t, ht, -, hend⟩ := hsum P Q hP hQ
  match P, Q with
  | .inf, _ | .affine _ _, .inf =>
    obtain ⟨hc, -⟩ := hend
    exact endsInItsCodes_of_completed ht hc
  | .affine px py, .affine qx qy =>
    dsimp only at hend
    split at hend
    case isTrue =>
      obtain ⟨hc, -⟩ := hend
      exact endsInItsCodes_of_completed ht hc
    case isFalse =>
      split at hend
      case isTrue => exact ⟨t, ht, .inr ⟨.noinv, by simp [mayRaise], hend⟩⟩
      case isFalse =>
        obtain ⟨hc, -⟩ := hend
        exact endsInItsCodes_of_completed ht hc

theorem pdbl_endsInItsCodes (pd ps : PtIx) (s : State) : endsInItsCodes (.pdbl pd ps) s := by
  obtain ⟨-, hparam, hdouble⟩ := doublingRaisesNothingButParam pd ps s
  obtain hout | ⟨P, hP⟩ := pointOutOfRange_or_pointIs Config.curve s ps
  · exact endsInItsCodes_of_faulted (hparam hout) (by simp [mayRaise])
  · obtain ⟨t, ht, hc, -⟩ := hdouble P hP
    exact endsInItsCodes_of_completed ht hc

theorem pneg_endsInItsCodes (pd ps : PtIx) (s : State) : endsInItsCodes (.pneg pd ps) s := by
  obtain ⟨hparam, hneg⟩ := negationMirrorsThePoint pd ps s
  obtain hout | ⟨P, hP⟩ := pointOutOfRange_or_pointIs Config.curve s ps
  · exact endsInItsCodes_of_faulted (hparam hout) (by simp [mayRaise])
  · obtain ⟨t, -, ht, hc, -⟩ := hneg P hP
    exact endsInItsCodes_of_completed ht hc

theorem scalarMul_endsInItsCodes (pd ps : PtIx) (rk : RegIx) {i : Instr} (s : State)
    (hi : i ∈ [Instr.smul pd ps rk, .smulm pd ps rk]) (hcode : .param ∈ mayRaise i) : endsInItsCodes i s := by
  obtain ⟨hparam, hmul, -⟩ := scalarMultiplicationsComplete pd ps rk i s hi
  obtain hout | ⟨P, hP⟩ := pointOutOfRange_or_pointIs Config.curve s ps
  · exact endsInItsCodes_of_faulted (hparam hout) hcode
  · obtain ⟨t, -, ht, hc, -⟩ := hmul P hP
    exact endsInItsCodes_of_completed ht hc

theorem ecdh_endsInItsCodes (bd : BufIx) (ps : PtIx) (rk : RegIx) (s : State) : endsInItsCodes (.ecdh bd ps rk) s := by
  obtain ⟨hparam, hsecret, -⟩ := sharedSecretIsTheXCoordinate bd ps rk s
  obtain hout | ⟨P, hP⟩ := pointOutOfRange_or_pointIs Config.curve s ps
  · exact endsInItsCodes_of_faulted (hparam hout) (by simp [mayRaise])
  · obtain ⟨t, R, -, ht, -, hend⟩ := hsecret P hP
    cases R with
    | inf => exact ⟨t, ht, .inr ⟨.infpt, by simp [mayRaise], hend⟩⟩
    | affine x y =>
      obtain ⟨hc, -⟩ := hend
      exact endsInItsCodes_of_completed ht hc

/-- The ring commands and MPOW are the case of a checked residue, ECKG completes always, and the others are above. -/
theorem exec_endsInItsCodes (i : Instr) (s : State) : endsInItsCodes i s := by
  cases i with
  | madd => exact endsInItsCodes_of_checkedResidue rfl (modAdd_checkedResidue _ _ _) (by simp [mayRaise])
  | msub => exact endsInItsCodes_of_checkedResidue rfl (modSub_checkedResidue _ _ _) (by simp [mayRaise])
  | mmul => exact endsInItsCodes_of_checkedResidue rfl (modMul_checkedResidue _ _ _) (by simp [mayRaise])
  | mneg => exact endsInItsCodes_of_checkedResidue rfl (modNeg_checkedResidue _ _) (by simp [mayRaise])
  | mpow => exact endsInItsCodes_of_checkedResidue rfl (modPowChecked_checkedResidue _ _ _) (by simp [mayRaise])
  | minv rd rs1 rm => exact minv_endsInItsCodes rd rs1 rm s
  | minvf rd rs1 rm => exact minvf_endsInItsCodes rd rs1 rm s
  | mrand rd rm => exact mrand_endsInItsCodes rd rm s
  | pkpad bd bs => exact pkpad_endsInItsCodes bd bs s
  | pkunpad bd bs => exact pkunpad_endsInItsCodes bd bs s
  | rsakg rdn rdd re => exact rsakg_endsInItsCodes rdn rdd re s
  | rsaenc bd bs rx rn => exact rsaenc_endsInItsCodes bd bs rx rn s
  | rsadec bd bs rx rn => exact rsadec_endsInItsCodes bd bs rx rn s
  | padd pd ps1 ps2 => exact padd_endsInItsCodes pd ps1 ps2 s
  | pdbl pd ps => exact pdbl_endsInItsCodes pd ps s
  | pneg pd ps => exact pneg_endsInItsCodes pd ps s
  | smul pd ps rk | smulm pd ps rk => exact scalarMul_endsInItsCodes pd ps rk s (by simp) (by simp [mayRaise])
  | eckg pd rk =>
    obtain ⟨t, -, ht, hc, -⟩ := ecKeygenWritesTheScalarAndItsPoint pd rk s
    exact endsInItsCodes_of_completed ht hc
  | ecdh bd ps rk => exact ecdh_endsInItsCodes bd ps rk s

/-- Settles O59: the next state is the one the command's own cases end in. -/
theorem commandsRaiseOnlyTheirCodes : Obligations.CommandsRaiseOnlyTheirCodes := by
  intro i s t h
  obtain ⟨u, hu, hend⟩ := exec_endsInItsCodes i s
  cases hu.symm.trans h
  exact hend

/-! ### A write to `CMD` (rules R238, R241, R242) -/

theorem issue_of_fault {s : State} (w : Word) (h : s.fault = true) : s.issue w = s := by
  rw [State.issue, if_pos h]

theorem step_cmd_write_busy {s : State} {w : Word} {rest : List Event} (hb : s.busy = true)
    (ha : s.agenda = .write 0x0010 4 w :: rest) : step s = .refused .commandWhileBusy := by
  have hundefined : (s.busy && !writableWhileBusy 0x0010 w) = true := by
    rw [hb]
    rfl
  rw [step_of_write ha, hostWrite, if_neg (by decide), if_neg (by decide), if_pos hundefined, if_pos (by decide)]

/-- On an idle PCC the write is `issue`, which drops or accepts the word. -/
theorem step_cmd_write_idle {s : State} {w : Word} {rest : List Event} (hb : s.busy = false)
    (ha : s.agenda = .write 0x0010 4 w :: rest) : step s = .next ({ s with agenda := rest }.issue w) :=
  step_idle_write hb ha (by omega) (by omega)

/-- Settles O8: refused while a command runs, and else `issue` with FAULT latched or not. -/
theorem commandWriteOutcomes : Obligations.CommandWriteOutcomes := by
  refine fun s w rest ha => ⟨fun hb => step_cmd_write_busy hb ha, fun hb hf => ?_, fun hb hf => ?_⟩
  · rw [step_cmd_write_idle hb ha, issue_of_fault (s := { s with agenda := rest }) w hf]
  · rw [step_cmd_write_idle hb ha, issue_of_no_fault (s := { s with agenda := rest }) w hf]
    rfl

/-- CLRF alone, on an idle PCC: the fault record is cleared, and DONE stays (rules R34, R241). -/
theorem step_clrf_write {s : State} {rest : List Event} (hb : s.busy = false)
    (ha : s.agenda = .write 0x0004 4 0x00000004 :: rest) :
    ∃ t, step s = .next t ∧ t.agenda = rest ∧ t.busy = false ∧ t.fault = false ∧ t.errcode = 0 ∧ t.done = s.done := by
  obtain ⟨-, hclear, -⟩ := ctrlWriteActions s 0x00000004 rest ha
  exact ⟨_, hclear hb rfl, rfl, hb, Bool.and_false _, rfl, Bool.and_true _⟩

/-- Settles O18: with FAULT latched the word is dropped; CLRF unlatches FAULT, so the next word is accepted. -/
theorem faultLatchDropsCommands : Obligations.FaultLatchDropsCommands := by
  intro s w rest hb hf
  refine ⟨fun ha => ?_, fun ha => ?_⟩
  · obtain ⟨-, hdropped, -⟩ := commandWriteOutcomes s w rest ha
    exact hdropped hb hf
  · obtain ⟨t, ht, hat, hbt, hft, hcode, hdone⟩ := step_clrf_write hb ha
    obtain ⟨-, -, haccepted⟩ := commandWriteOutcomes t w rest hat
    exact ⟨t, _, ht, hft, hcode, hdone, haccepted hbt hft, rfl, rfl, rfl⟩

/-! ### The interrupt output (rule R244) -/

theorem exec_done {i : Instr} {s t : State} (h : exec i s = .next t) : t.done = true := by
  obtain ⟨-, hdone, -⟩ | ⟨e, -, -, -, -, hdone⟩ := exec_completed_or_faulted h <;> exact hdone

theorem exec_ie {i : Instr} {s t : State} (h : exec i s = .next t) : t.ie = s.ie := by
  obtain ⟨⟨-, -, -, -, hie, -⟩, -⟩ := commandsChangeOnlyTheirDestinations i s t h
  exact hie

/-- Settles O19: a command's end sets DONE and keeps IE; the other three events leave IE and DONE as their own rules say. -/
theorem irqFollowsCompletion : Obligations.IrqFollowsCompletion := by
  refine ⟨fun i s t h => ?_, fun s w rest hb hf ha => ?_, fun s v rest hb ha hsrst => ?_, fun s rest ha => ?_⟩
  · rw [State.irq, exec_ie h, exec_done h, Bool.and_true]
  · obtain ⟨-, -, haccepted⟩ := commandWriteOutcomes s w rest ha
    exact ⟨_, haccepted hb hf, Bool.and_false _⟩
  · obtain ⟨-, hwrite, -⟩ := ctrlWriteActions s v rest ha
    exact ⟨_, hwrite hb hsrst, (Bool.and_assoc _ _ _).symm⟩
  · exact ⟨_, step_of_hwReset ha, rfl⟩

end Sys2Proof.Machine

/-! The host's accesses while a command runs (rules R34, R238, R270, R280). The idea: whether an access is defined depends on
the offset alone through the address map, and each of the five registers that a busy PCC answers stands at one offset; so
`readableWhileBusy` and `writableWhileBusy` are memberships of the offset, and every clause is one branch of the access. -/

namespace Sys2Proof.Machine

/-! ### The offsets of the registers a busy PCC answers (rules R62, R280) -/

theorem readableWhileBusy_of_notMem {off : Nat} (h : off ∉ [0x0000, 0x0004, 0x0008, 0x000C, 0x0010]) :
    readableWhileBusy off = false := by
  simp only [List.mem_cons, List.not_mem_nil, or_false, not_or] at h
  obtain ⟨hid, hctrl, hstatus, herrcode, hcmd⟩ := h
  unfold readableWhileBusy winReg
  rw [if_neg hid, if_neg hctrl, if_neg hstatus, if_neg herrcode, if_neg hcmd]
  dsimp only
  split_ifs <;> rfl

theorem readableWhileBusy_iff {off : Nat} :
    readableWhileBusy off = true ↔ off ∈ [0x0000, 0x0004, 0x0008, 0x000C, 0x0010] := by
  refine ⟨fun h => ?_, fun h => ?_⟩
  · by_contra hout
    rw [readableWhileBusy_of_notMem hout] at h
    cases h
  · revert off
    decide

theorem winReg_injOn_readableWhileBusy {a b : Nat} (ha : readableWhileBusy a = true) (hb : readableWhileBusy b = true)
    (h : winReg a = winReg b) : a = b := by
  have hlisted : ∀ x ∈ [0x0000, 0x0004, 0x0008, 0x000C, 0x0010], ∀ y ∈ [0x0000, 0x0004, 0x0008, 0x000C, 0x0010],
      winReg x = winReg y → x = y := by decide
  exact hlisted a (readableWhileBusy_iff.mp ha) b (readableWhileBusy_iff.mp hb) h

theorem winReg_eq_ctrl_iff {off : Nat} : winReg off = .ctrl ↔ off = 0x0004 :=
  ⟨fun h => winReg_injOn_readableWhileBusy (by rw [readableWhileBusy, h]) rfl h, fun h => h ▸ rfl⟩

theorem winReg_eq_cmd_iff {off : Nat} : winReg off = .cmd ↔ off = 0x0010 :=
  ⟨fun h => winReg_injOn_readableWhileBusy (by rw [readableWhileBusy, h]) rfl h, fun h => h ▸ rfl⟩

theorem writableWhileBusy_eq_false_iff {off : Nat} {v : Word} :
    writableWhileBusy off v = false ↔ off ≠ 0x0004 ∨ v.getLsbD 1 = true ∨ v.getLsbD 2 = true := by
  rw [Bool.eq_false_iff, Ne, writableWhileBusy_iff, winReg_eq_ctrl_iff, not_and_or, not_and_or, Bool.not_eq_false,
    Bool.not_eq_false]

/-! ### Reads while a command runs -/

/-- A read the host may make: of any register while PCC is idle, and of those of rule R280 while a command runs. -/
theorem step_defined_read {s : State} {off : Nat} {rest : List Event} (ha : s.agenda = .read off 4 :: rest)
    (hoff : off < 0x6000) (halign : off % 4 = 0) (hbusy : s.busy = true → readableWhileBusy off = true) :
    step s = .next { s with agenda := rest, reads := s.reads ++ [s.windowRead off] } := by
  rw [step_of_read ha, hostRead, if_neg (by rw [windowSize]; omega), if_neg (by omega), if_neg]
  · rfl
  · cases hb : s.busy <;> simp [hb, hbusy]

theorem step_busy_undefined_read {s : State} {off : Nat} {rest : List Event} (hb : s.busy = true)
    (ha : s.agenda = .read off 4 :: rest) (hoff : off < 0x6000) (halign : off % 4 = 0)
    (hundefined : readableWhileBusy off = false) : step s = .refused .accessWhileBusy := by
  rw [step_of_read ha, hostRead, if_neg (by rw [windowSize]; omega), if_neg (by omega), if_pos (by simp [hb, hundefined])]

/-! ### Writes while a command runs -/

/-- Of the undefined writes, the one to `CMD` has a refusal of its own (`step_cmd_write_busy`, rule R238). -/
theorem step_busy_undefined_write {s : State} {off : Nat} {v : Word} {rest : List Event} (hb : s.busy = true)
    (ha : s.agenda = .write off 4 v :: rest) (hoff : off < 0x6000) (halign : off % 4 = 0) (hcmd : off ≠ 0x0010)
    (hundefined : writableWhileBusy off v = false) : step s = .refused .accessWhileBusy := by
  rw [step_of_write ha, hostWrite, if_neg (by rw [windowSize]; omega), if_neg (by omega),
    if_pos (by simp [hb, hundefined]), if_neg (mt winReg_eq_cmd_iff.mp hcmd)]

/-- A `CTRL` write without CLRD and CLRF is defined, PCC idle or busy, and is `writeCtrl` (rules R34, R280). -/
theorem step_ctrl_write {s : State} {v : Word} {rest : List Event} (ha : s.agenda = .write 0x0004 4 v :: rest)
    (hclrd : v.getLsbD 1 = false) (hclrf : v.getLsbD 2 = false) : step s = .next ((s.withAgenda rest).writeCtrl v) :=
  step_defined_write ha (by omega) (by omega) fun _ => writableWhileBusy_iff.mpr ⟨rfl, hclrd, hclrf⟩

/-- What the soft reset leaves, written out: the host's list and read values, and the source at `rngAtReset`. -/
theorem softReset_withAgenda (s : State) (rest : List Event) :
    (s.withAgenda rest).softReset = { State.reset with rng := s.rngAtReset, agenda := rest, reads := s.reads } := by
  rw [State.softReset, rngAtReset_withAgenda]
  rfl

/-! ### The source after a command is abandoned (rule R270) -/

theorem rngAtReset_pos_le_of_exec {s u : State} {i : Instr} (hd : decode s.cmd = .ok i) (hu : exec i s = .next u) :
    s.rngAtReset.pos ≤ u.rng.pos := by
  obtain ⟨-, hle⟩ := rngAtReset_pos s (rng_pos_le_rngAtCompletion_pos s)
  rwa [rngAtCompletion_of_exec hd hu] at hle

theorem rngAtReset_pos_of_illegal {s : State} {e : Illegal} (hd : decode s.cmd = .error e) :
    s.rngAtReset.pos = s.rng.pos := by
  obtain ⟨hge, hle⟩ := rngAtReset_pos s (rng_pos_le_rngAtCompletion_pos s)
  rw [rngAtCompletion_of_illegal hd] at hle
  exact le_antisymm hle hge

/-- The soft reset: the source ends between its place and the one at the completion of the command it abandons. -/
theorem step_ctrl_write_srst {s : State} {v : Word} {rest : List Event} (ha : s.agenda = .write 0x0004 4 v :: rest)
    (hclrd : v.getLsbD 1 = false) (hclrf : v.getLsbD 2 = false) (hsrst : v.getLsbD 31 = true) :
    ∃ g, step s = .next { State.reset with rng := g, agenda := rest, reads := s.reads } ∧
      g.given = s.rng.given ∧ s.rng.pos ≤ g.pos ∧
      (∀ i u, decode s.cmd = .ok i → exec i s = .next u → g.pos ≤ u.rng.pos) ∧
      (∀ e, decode s.cmd = .error e → g.pos = s.rng.pos) := by
  obtain ⟨hge, -⟩ := rngAtReset_pos s (rng_pos_le_rngAtCompletion_pos s)
  refine ⟨s.rngAtReset, ?_, rngAtReset_given s, hge, fun _ _ => rngAtReset_pos_le_of_exec,
    fun _ => rngAtReset_pos_of_illegal⟩
  rw [step_ctrl_write ha hclrd hclrf, writeCtrl_of_srst _ hsrst, softReset_withAgenda]

/-- Settles O10: a read is defined or refused by `readableWhileBusy`, a write by `writableWhileBusy`; a defined write is
`writeCtrl`, with SRST or without. -/
theorem busyWindowAccesses : Obligations.BusyWindowAccesses := by
  intro s off v rest hb hoff halign
  refine ⟨fun ha hmem => ?_, fun ha hmem => ?_, fun ha hclrd hclrf hsrst => ?_, fun ha => step_ctrl_write_srst ha,
    fun ha hclr => ?_, step_cmd_write_busy hb, fun ha hctrl hcmd => ?_⟩
  · exact step_defined_read ha hoff halign fun _ => readableWhileBusy_iff.mpr hmem
  · exact step_busy_undefined_read hb ha hoff halign (readableWhileBusy_of_notMem hmem)
  · rw [step_ctrl_write ha hclrd hclrf, writeCtrl_of_no_action _ hclrd hclrf hsrst]
    rfl
  · exact step_busy_undefined_write hb ha (by omega) (by omega) (by omega) (writableWhileBusy_eq_false_iff.mpr (.inr hclr))
  · exact step_busy_undefined_write hb ha hoff halign hcmd (writableWhileBusy_eq_false_iff.mpr (.inl hctrl))

end Sys2Proof.Machine
